-- ==== Sys2Proof/Word.lean ====
section
/-! DEFINITION. The word types of LEGv8-D0 (spec rules R5, R7, R53): 64-bit values, bytes, 32-bit
instruction words, register numbers, and text as a list of characters. -/

namespace Sys2Proof

/-- A register value: a 64-bit pattern (R7). -/
abbrev Word := BitVec 64

/-- A byte of data memory (R30). -/
abbrev Byte := BitVec 8

/-- An instruction word (R51). -/
abbrev InstrWord := BitVec 32

/-- A register number, 0 to 31 (R53). -/
abbrev Reg := Fin 32

/-- A piece of text: payloads, printed text, assembly source. -/
abbrev Text := List Char

end Sys2Proof
end

