-- ==== Sys2Proof/Machine/Bits.lean ====
section
/-! DEFINITION. Bit fields of a PackedWord (R50), the readings of a value (R7) and its bytes (R33, R50). -/

namespace Sys2Proof

/-- `getRange(w, lo, hi)` of R50: bits `hi` down to `lo`, read unsigned. -/
def getRange {n : Nat} (w : BitVec n) (lo hi : Nat) : Nat :=
  (w.toNat >>> lo) % 2 ^ (hi - lo + 1)

/-- `setRange(w, lo, hi, v)` of R50: the destination bits are cleared and `v`, truncated to the width of the range,
is put there. A negative `v` is stored as the low bits of its two's-complement pattern. -/
def setRange {n : Nat} (w : BitVec n) (lo hi : Nat) (v : Int) : BitVec n :=
  (w &&& ~~~ BitVec.ofNat n ((2 ^ (hi - lo + 1) - 1) <<< lo)) |||
    BitVec.ofNat n ((v % (2 ^ (hi - lo + 1) : Nat)).toNat <<< lo)

/-- `wrap64` of R7: the 64-bit pattern congruent to `n` modulo 2^64. -/
def wrap64 (n : Int) : Word := BitVec.ofInt 64 n

/-- `zext_N` of R7: the low `n` bits of `v`, zeros above. -/
def zext (n : Nat) (v : Nat) : Word := BitVec.ofNat 64 (v % 2 ^ n)

/-- `sext_N` of R7: the `n`-bit value `v` read as two's complement. -/
def sext (n : Nat) (v : Nat) : Word := BitVec.ofInt 64 (BitVec.ofNat n v).toInt

/-- Byte `k` of a word: bits `[8k+7 : 8k]` (R50: byte accessors multiply offsets by 8). -/
def byteOf {n : Nat} (v : BitVec n) (k : Nat) : Byte := BitVec.ofNat 8 (getRange v (8 * k) (8 * k + 7))

/-- The low `n` bytes of a word, byte 0 first (R33, R36). -/
def lowBytes (v : Word) (n : Nat) : List Byte := (List.range n).map (byteOf v)

/-- The unsigned value of bytes listed from the least significant one: the sum of R35. -/
def valueOfBytes : List Byte → Nat
  | [] => 0
  | b :: bs => b.toNat + 256 * valueOfBytes bs

end Sys2Proof
end

