-- ==== Sys2Proof/Machine/Alu.lean ====
section
/-! DEFINITION. The operations of the ALU (R90, R91, R94, R96): exact integers, narrowed at the end. -/

namespace Sys2Proof.Machine

/-- `add(a, b)` (R90, R91). -/
def aluAdd (a b : Word) : Word := wrap64 (a.toInt + b.toInt)
/-- `sub(a, b)` (R90, R91). -/
def aluSub (a b : Word) : Word := wrap64 (a.toInt - b.toInt)
/-- `mul(a, b)` (R90, R91). -/
def aluMul (a b : Word) : Word := wrap64 (a.toInt * b.toInt)
/-- `and(a, b)` (R90). -/
def aluAnd (a b : Word) : Word := a &&& b
/-- `orr(a, b)` (R90). -/
def aluOrr (a b : Word) : Word := a ||| b
/-- `eor(a, b)` (R90). -/
def aluEor (a b : Word) : Word := a ^^^ b
/-- `sdiv(a, b)` for a nonzero divisor: the quotient rounded toward zero, wrapped (R94; the spec's decision D15,
log 13). -/
def aluSdiv (a b : Word) : Word := wrap64 (Int.tdiv a.toInt b.toInt)
/-- `lsl(a, n)` (R90, R96). -/
def aluLsl (a : Word) (n : Nat) : Word := BitVec.ofNat 64 (a.toNat * 2 ^ n)
/-- `lsr(a, n)`, a logical shift (R90, R96; the spec's decision D14, log 13). -/
def aluLsr (a : Word) (n : Nat) : Word := BitVec.ofNat 64 (a.toNat / 2 ^ n)

end Sys2Proof.Machine
end

