-- ==== Sys2Proof/Config.lean ====
section
/-! DEFINITION. What the spec fixes for one machine: the formats and mnemonics of the opcode map (R52, R62),
the conditions of `B.cond` (R63), the parameters of R5 that are constants of the model, and the one choice that the
spec leaves open. The parameters that the spec takes as arguments (MEM_SIZE, MEM_INIT, PROG, OPTAB) are fields of
`State`. -/

namespace Sys2Proof

/-- The seven instruction formats (R52). -/
inductive Format where
  | R | I | IM | D | B | CB | Z
  deriving DecidableEq, Repr

/-- The mnemonics of the opcode map, in the order of its rows (R62). -/
inductive Mnemonic where
  | b | sturb | ldurb
  | bEQ | bNE | bHS | bLO | bMI | bPL | bHI | bLS | bGE | bLT | bGT | bLE
  | sturh | ldurh
  | and | add | addi | andi | bl | sdiv | udiv | mul | orr | adds | addis | orri
  | cbz | cbnz | sturw | ldursw | stxr | ldxr | eor | sub | subi | eori | movz
  | lsr | lsl | br | ands | subs | subis | andis | movk | stur | ldur
  | cmpi | cmp | mov | lda | prnl | prnt | dump | halt
  deriving DecidableEq, Repr

/-- The conditions of the twelve `B.cond` instructions (R63, R158). -/
inductive Cond where
  | eq | ne | hs | lo | mi | pl | hi | ls | ge | lt | gt | le
  deriving DecidableEq, Repr

/-- SAFE_MAX, the bound of the safe-integer range that `BR` clamps to (R5). PRESUMED, safe for every run that
ends normally: the spec takes the number from general knowledge (log 14). -/
def Config.safeMax : Int := 9007199254740991

/-- Which of several bindings of one label an operand gets. A free value, safe: the spec does not say (R76, R79,
log 15). -/
opaque Config.repeatedLabel : List Nat → Nat

end Sys2Proof
end

