-- ==== Sys2Proof/Syntax.lean ====
section
/-! DEFINITION. The instructions: one constructor per row of the opcode map (R62). An operand field that an
instruction does not use is no argument (R65). A register operand is a `Reg`; every immediate and target is a
natural number as the assembler gives it, and `WellFormed` says which fit their field (R60). -/

namespace Sys2Proof

inductive Instr where
  -- R format, `41_r_format.md`
  | add (rd rn rm : Reg)
  | sub (rd rn rm : Reg)
  | and (rd rn rm : Reg)
  | orr (rd rn rm : Reg)
  | eor (rd rn rm : Reg)
  | mul (rd rn rm : Reg)
  | sdiv (rd rn rm : Reg)
  | adds (rd rn rm : Reg)
  | subs (rd rn rm : Reg)
  | ands (rd rn rm : Reg)
  | lsl (rd rn : Reg) (shamt : Nat)
  | lsr (rd rn : Reg) (shamt : Nat)
  | br (rd : Reg)
  | cmp (rd rn : Reg)
  | mov (rd rn : Reg)
  | udiv (rd rn rm : Reg)
  -- I format, `42_i_format.md`
  | addi (rd rn : Reg) (imm12 : Nat)
  | subi (rd rn : Reg) (imm12 : Nat)
  | andi (rd rn : Reg) (imm12 : Nat)
  | orri (rd rn : Reg) (imm12 : Nat)
  | eori (rd rn : Reg) (imm12 : Nat)
  | addis (rd rn : Reg) (imm12 : Nat)
  | subis (rd rn : Reg) (imm12 : Nat)
  | andis (rd rn : Reg) (imm12 : Nat)
  | cmpi (rn : Reg) (imm12 : Nat)
  -- IM format, `43_im_format.md`
  | movz (rd : Reg) (imm16 : Nat)
  | movk (rd : Reg) (imm16 : Nat)
  -- D format, `44_d_format.md`
  | ldur (rt rn : Reg) (dt : Nat)
  | ldurb (rt rn : Reg) (dt : Nat)
  | ldurh (rt rn : Reg) (dt : Nat)
  | ldursw (rt rn : Reg) (dt : Nat)
  | stur (rt rn : Reg) (dt : Nat)
  | sturb (rt rn : Reg) (dt : Nat)
  | sturh (rt rn : Reg) (dt : Nat)
  | sturw (rt rn : Reg) (dt : Nat)
  | lda (rt rn : Reg) (dt : Nat)
  | ldxr (rt rn : Reg) (dt : Nat)
  | stxr (rt rn : Reg) (dt : Nat)
  -- B format, `45_b_format.md`
  | b (addr26 : Nat)
  | bl (addr26 : Nat)
  -- CB format, `46_cb_format.md`
  | cbz (rt : Reg) (addr19 : Nat)
  | cbnz (rt : Reg) (addr19 : Nat)
  | bEQ (addr19 : Nat)
  | bNE (addr19 : Nat)
  | bLT (addr19 : Nat)
  | bLO (addr19 : Nat)
  | bLE (addr19 : Nat)
  | bLS (addr19 : Nat)
  | bGT (addr19 : Nat)
  | bHI (addr19 : Nat)
  | bGE (addr19 : Nat)
  | bHS (addr19 : Nat)
  | bPL (addr19 : Nat)
  | bMI (addr19 : Nat)
  -- Z format, `47_z_format.md`
  | prnt
  | prnl
  | halt
  | dump
  deriving DecidableEq, Repr

end Sys2Proof
end

