-- ==== Sys2Proof/WellFormed.lean ====
section
/-! DEFINITION. Which instructions fit their encoding: every immediate, shift amount, offset and target is in the
range of its field (R60). Register operands fit by their type. -/

namespace Sys2Proof

/-- R60: `imm12` is 0 .. 4095. -/
def imm12Fits (v : Nat) : Bool := decide (v < 2 ^ 12)
/-- R60: `imm16` is 0 .. 65535. -/
def imm16Fits (v : Nat) : Bool := decide (v < 2 ^ 16)
/-- R60: `shamt` is 0 .. 63. -/
def shamtFits (v : Nat) : Bool := decide (v < 2 ^ 6)
/-- R60: `dt` is 0 .. 511. -/
def dtFits (v : Nat) : Bool := decide (v < 2 ^ 9)
/-- R60: `addr26` is 0 .. 67108863. -/
def addr26Fits (v : Nat) : Bool := decide (v < 2 ^ 26)
/-- R60: `addr19` is 0 .. 524287. -/
def addr19Fits (v : Nat) : Bool := decide (v < 2 ^ 19)

/-- Every operand value is within its field's range (R60, R69). -/
def Instr.wellFormed : Instr → Bool
  | .add _ _ _ | .sub _ _ _ | .and _ _ _ | .orr _ _ _ | .eor _ _ _ | .mul _ _ _ | .sdiv _ _ _ => true
  | .adds _ _ _ | .subs _ _ _ | .ands _ _ _ => true
  | .lsl _ _ sh | .lsr _ _ sh => shamtFits sh
  | .br _ | .cmp _ _ | .mov _ _ | .udiv _ _ _ => true
  | .addi _ _ v | .subi _ _ v | .andi _ _ v | .orri _ _ v | .eori _ _ v => imm12Fits v
  | .addis _ _ v | .subis _ _ v | .andis _ _ v | .cmpi _ v => imm12Fits v
  | .movz _ v | .movk _ v => imm16Fits v
  | .ldur _ _ dt | .ldurb _ _ dt | .ldurh _ _ dt | .ldursw _ _ dt => dtFits dt
  | .stur _ _ dt | .sturb _ _ dt | .sturh _ _ dt | .sturw _ _ dt => dtFits dt
  | .lda _ _ dt | .ldxr _ _ dt | .stxr _ _ dt => dtFits dt
  | .b a | .bl a => addr26Fits a
  | .cbz _ a | .cbnz _ a => addr19Fits a
  | .bEQ a | .bNE a | .bLT a | .bLO a | .bLE a | .bLS a => addr19Fits a
  | .bGT a | .bHI a | .bGE a | .bHS a | .bPL a | .bMI a => addr19Fits a
  | .prnt | .prnl | .halt | .dump => true

end Sys2Proof
end

