-- ==== Sys2Proof/Decode.lean ====
section
/-! DEFINITION. The opcode map, the decoder and the encoder of `30_encoding.md`. -/

namespace Sys2Proof

/-! ## The opcode map (R61, R62) -/

/-- The format of each mnemonic (R52, R62). -/
def Mnemonic.format : Mnemonic → Format
  | .add | .sub | .and | .orr | .eor | .mul | .sdiv | .adds | .subs | .ands => .R
  | .lsl | .lsr | .br | .cmp | .mov | .udiv => .R
  | .addi | .subi | .andi | .orri | .eori | .addis | .subis | .andis | .cmpi => .I
  | .movz | .movk => .IM
  | .ldur | .ldurb | .ldurh | .ldursw | .stur | .sturb | .sturh | .sturw => .D
  | .lda | .ldxr | .stxr => .D
  | .b | .bl => .B
  | .cbz | .cbnz | .bEQ | .bNE | .bLT | .bLO | .bLE | .bLS => .CB
  | .bGT | .bHI | .bGE | .bHS | .bPL | .bMI => .CB
  | .prnt | .prnl | .halt | .dump => .Z

/-- One row of the opcode map: the mnemonic, its range of `op11` values, and the match and mask that select its
words (R62). -/
structure OpRow where
  mn : Mnemonic
  op11Min : Nat
  op11Max : Nat
  mtch : InstrWord
  mask : InstrWord
  deriving DecidableEq, Repr

/-- The R rows of R62. -/
def optabR : List OpRow := [
  ⟨.and, 0x450, 0x450, 0x8A000000, 0xFFE00000⟩,
  ⟨.add, 0x458, 0x458, 0x8B000000, 0xFFE00000⟩,
  ⟨.sdiv, 0x4D6, 0x4D6, 0x9AC00800, 0xFFE0FC00⟩,
  ⟨.udiv, 0x4D6, 0x4D6, 0x9AC00C00, 0xFFE0FC00⟩,
  ⟨.mul, 0x4D8, 0x4D8, 0x9B000000, 0xFFE00000⟩,
  ⟨.orr, 0x550, 0x550, 0xAA000000, 0xFFE00000⟩,
  ⟨.adds, 0x558, 0x558, 0xAB000000, 0xFFE00000⟩,
  ⟨.eor, 0x650, 0x650, 0xCA000000, 0xFFE00000⟩,
  ⟨.sub, 0x658, 0x658, 0xCB000000, 0xFFE00000⟩,
  ⟨.lsr, 0x69A, 0x69A, 0xD3400000, 0xFFE00000⟩,
  ⟨.lsl, 0x69B, 0x69B, 0xD3600000, 0xFFE00000⟩,
  ⟨.br, 0x6B0, 0x6B0, 0xD6000000, 0xFFE00000⟩,
  ⟨.ands, 0x750, 0x750, 0xEA000000, 0xFFE00000⟩,
  ⟨.subs, 0x758, 0x758, 0xEB000000, 0xFFE00000⟩,
  ⟨.cmp, 0x7F2, 0x7F2, 0xFE400000, 0xFFE00000⟩,
  ⟨.mov, 0x7F3, 0x7F3, 0xFE600000, 0xFFE00000⟩]

/-- The I rows of R62. -/
def optabI : List OpRow := [
  ⟨.addi, 0x488, 0x489, 0x91000000, 0xFFC00000⟩,
  ⟨.andi, 0x490, 0x491, 0x92000000, 0xFFC00000⟩,
  ⟨.addis, 0x588, 0x589, 0xB1000000, 0xFFC00000⟩,
  ⟨.orri, 0x590, 0x591, 0xB2000000, 0xFFC00000⟩,
  ⟨.subi, 0x688, 0x689, 0xD1000000, 0xFFC00000⟩,
  ⟨.eori, 0x690, 0x691, 0xD2000000, 0xFFC00000⟩,
  ⟨.subis, 0x788, 0x789, 0xF1000000, 0xFFC00000⟩,
  ⟨.andis, 0x790, 0x791, 0xF2000000, 0xFFC00000⟩,
  ⟨.cmpi, 0x7F0, 0x7F1, 0xFE000000, 0xFFC00000⟩]

/-- The IM rows of R62. -/
def optabIM : List OpRow := [
  ⟨.movz, 0x694, 0x697, 0xD2800000, 0xFF800000⟩,
  ⟨.movk, 0x794, 0x797, 0xF2800000, 0xFF800000⟩]

/-- The D rows of R62. -/
def optabD : List OpRow := [
  ⟨.sturb, 0x1C0, 0x1C0, 0x38000000, 0xFFE00000⟩,
  ⟨.ldurb, 0x1C2, 0x1C2, 0x38400000, 0xFFE00000⟩,
  ⟨.sturh, 0x3C0, 0x3C0, 0x78000000, 0xFFE00000⟩,
  ⟨.ldurh, 0x3C2, 0x3C2, 0x78400000, 0xFFE00000⟩,
  ⟨.sturw, 0x5C0, 0x5C0, 0xB8000000, 0xFFE00000⟩,
  ⟨.ldursw, 0x5C4, 0x5C4, 0xB8800000, 0xFFE00000⟩,
  ⟨.stxr, 0x640, 0x640, 0xC8000000, 0xFFE00000⟩,
  ⟨.ldxr, 0x642, 0x642, 0xC8400000, 0xFFE00000⟩,
  ⟨.stur, 0x7C0, 0x7C0, 0xF8000000, 0xFFE00000⟩,
  ⟨.ldur, 0x7C2, 0x7C2, 0xF8400000, 0xFFE00000⟩,
  ⟨.lda, 0x7F4, 0x7F4, 0xFE800000, 0xFFE00000⟩]

/-- The B rows of R62. -/
def optabB : List OpRow := [
  ⟨.b, 0x0A0, 0x0BF, 0x14000000, 0xFC000000⟩,
  ⟨.bl, 0x4A0, 0x4BF, 0x94000000, 0xFC000000⟩]

/-- The CB rows of R62. -/
def optabCB : List OpRow := [
  ⟨.bEQ, 0x2A0, 0x2A7, 0x54000000, 0xFF00001F⟩,
  ⟨.bNE, 0x2A0, 0x2A7, 0x54000001, 0xFF00001F⟩,
  ⟨.bHS, 0x2A0, 0x2A7, 0x54000002, 0xFF00001F⟩,
  ⟨.bLO, 0x2A0, 0x2A7, 0x54000003, 0xFF00001F⟩,
  ⟨.bMI, 0x2A0, 0x2A7, 0x54000004, 0xFF00001F⟩,
  ⟨.bPL, 0x2A0, 0x2A7, 0x54000005, 0xFF00001F⟩,
  ⟨.bHI, 0x2A0, 0x2A7, 0x54000008, 0xFF00001F⟩,
  ⟨.bLS, 0x2A0, 0x2A7, 0x54000009, 0xFF00001F⟩,
  ⟨.bGE, 0x2A0, 0x2A7, 0x5400000A, 0xFF00001F⟩,
  ⟨.bLT, 0x2A0, 0x2A7, 0x5400000B, 0xFF00001F⟩,
  ⟨.bGT, 0x2A0, 0x2A7, 0x5400000C, 0xFF00001F⟩,
  ⟨.bLE, 0x2A0, 0x2A7, 0x5400000D, 0xFF00001F⟩,
  ⟨.cbz, 0x5A0, 0x5A7, 0xB4000000, 0xFF000000⟩,
  ⟨.cbnz, 0x5A8, 0x5AF, 0xB5000000, 0xFF000000⟩]

/-- The Z rows of R62. -/
def optabZ : List OpRow := [
  ⟨.prnl, 0x7FC, 0x7FC, 0xFF800000, 0xFFE00000⟩,
  ⟨.prnt, 0x7FD, 0x7FD, 0xFFA00000, 0xFFE00000⟩,
  ⟨.dump, 0x7FE, 0x7FE, 0xFFC00000, 0xFFE00000⟩,
  ⟨.halt, 0x7FF, 0x7FF, 0xFFE00000, 0xFFE00000⟩]

/-- The default OPTAB of R62, 58 rows. PRESUMED, unsafe for a claim about a numeric word: D0 gives no opcode; the
values are the spec's default (decisions D2 to D7, log 3). OPTAB is a parameter (R5): every function below takes it
as an argument with this default, and the machine decodes with the table that its state holds. -/
def optab : List OpRow := optabR ++ optabI ++ optabIM ++ optabD ++ optabB ++ optabCB ++ optabZ

/-- `w and mask = match` (R62). -/
def OpRow.admits (r : OpRow) (w : InstrWord) : Bool := (w &&& r.mask) == r.mtch

/-- How many low bits of `op11` the opcode field of a format leaves out: 11 less the field's width; the two low bits
of the IM opcode select nothing (R55, R61). -/
def Format.freeBits : Format → Nat
  | .R => 0
  | .I => 1
  | .IM => 2
  | .D => 0
  | .B => 5
  | .CB => 3
  | .Z => 0

/-- The field that an extra condition of a row may test: `shamt` for `SDIV` and `UDIV`, `Rt` for `B.cond` (R62). -/
def Mnemonic.extraField : Mnemonic → Option (Nat × Nat)
  | .sdiv | .udiv => some (10, 15)
  | .bEQ | .bNE | .bLT | .bLO | .bLE | .bLS | .bGT | .bHI | .bGE | .bHS | .bPL | .bMI => some (0, 4)
  | .add | .sub | .and | .orr | .eor | .mul | .adds | .subs | .ands | .lsl | .lsr | .br | .cmp | .mov => none
  | .addi | .subi | .andi | .orri | .eori | .addis | .subis | .andis | .cmpi | .movz | .movk => none
  | .ldur | .ldurb | .ldurh | .ldursw | .stur | .sturb | .sturh | .sturw | .lda | .ldxr | .stxr => none
  | .b | .bl | .cbz | .cbnz | .prnt | .prnl | .halt | .dump => none

/-- A row fits R61: its range is aligned and as long as its format asks for; its mask is the opcode field, with or
without the whole field of its extra condition, and its match holds nothing outside the mask. -/
def OpRow.fits (r : OpRow) : Bool :=
  let k := r.mn.format.freeBits
  let opcode : InstrWord := setRange 0 (21 + k) 31 ((r.op11Min >>> k : Nat) : Int)
  let field : InstrWord := setRange 0 (21 + k) 31 (-1)
  r.op11Min % 2 ^ k == 0 && r.op11Max + 1 == r.op11Min + 2 ^ k && decide (r.op11Max < 2 ^ 11) &&
    ((r.mtch == opcode && r.mask == field) ||
      match r.mn.extraField with
      | some (lo, hi) =>
        r.mtch == setRange opcode lo hi (getRange r.mtch lo hi : Int) && r.mask == setRange field lo hi (-1)
      | none => false)

/-- An assignment that OPTAB may be (R62): one row for each mnemonic, every row fits R61, and no word matches two
rows. -/
structure OptabOk (tab : List OpRow) : Prop where
  oneRowEach : ∀ m : Mnemonic, (tab.filter (fun r => r.mn == m)).length = 1
  rowsFit : ∀ r ∈ tab, r.fits = true
  disjoint : ∀ r ∈ tab, ∀ q ∈ tab, ∀ w, r.admits w = true → q.admits w = true → r = q

/-- The 11-bit view of a word: `op11(w) = w[31:21]` (R61). -/
def op11 (w : InstrWord) : Nat := getRange w 21 31

/-- `OP11(m)` of R68: the least `op11` value of the mnemonic's range. -/
def opcodeOf (m : Mnemonic) (tab : List OpRow := optab) : Nat :=
  match tab.find? (fun r => r.mn == m) with
  | some r => r.op11Min
  | none => 0

/-- The value that the row of a mnemonic asks for in a field, as its extra condition (R62): with the default table 2
and 3 in the `shamt` of `SDIV` and `UDIV`, and the condition code in the `Rt` of a `B.cond` (R63, R68). -/
def extraValue (m : Mnemonic) (lo hi : Nat) (tab : List OpRow := optab) : Nat :=
  match tab.find? (fun r => r.mn == m) with
  | some r => getRange r.mtch lo hi
  | none => 0

/-- The condition code that the `Rt` field of a `B.cond` word holds, by the default table (R63). -/
def condCode : Cond → Nat
  | .eq => 0
  | .ne => 1
  | .hs => 2
  | .lo => 3
  | .mi => 4
  | .pl => 5
  | .hi => 8
  | .ls => 9
  | .ge => 10
  | .lt => 11
  | .gt => 12
  | .le => 13

/-! ## The fields (R53 to R59) -/

/-- Bits `[4:0]`: `Rd` of R, I and IM, `Rt` of D and CB. -/
def fieldRd (w : InstrWord) : Reg := Fin.ofNat 32 (getRange w 0 4)
/-- Bits `[9:5]`: `Rn` of R, I and D. -/
def fieldRn (w : InstrWord) : Reg := Fin.ofNat 32 (getRange w 5 9)
/-- Bits `[20:16]`: `Rm` of R. -/
def fieldRm (w : InstrWord) : Reg := Fin.ofNat 32 (getRange w 16 20)
/-- Bits `[15:10]`: `shamt` of R. -/
def fieldShamt (w : InstrWord) : Nat := getRange w 10 15
/-- Bits `[21:10]`: `imm12` of I. -/
def fieldImm12 (w : InstrWord) : Nat := getRange w 10 21
/-- Bits `[20:5]`: `imm16` of IM. -/
def fieldImm16 (w : InstrWord) : Nat := getRange w 5 20
/-- Bits `[20:12]`: `dt` of D. -/
def fieldDt (w : InstrWord) : Nat := getRange w 12 20
/-- Bits `[25:0]`: `addr26` of B. -/
def fieldAddr26 (w : InstrWord) : Nat := getRange w 0 25
/-- Bits `[23:5]`: `addr19` of CB. -/
def fieldAddr19 (w : InstrWord) : Nat := getRange w 5 23

/-! ## The decoder (R64 to R66) -/

/-- What `decode` answers (R64). -/
inductive Decoded where
  /-- The word is this instruction. -/
  | instr (i : Instr)
  /-- No row of the opcode map selects the word (R66): executing it raises
  `ExecutionFailure(InvalidEncoding)`. -/
  | invalid
  deriving DecidableEq, Repr

/-- The row that selects a word: exactly one (R64). -/
def lookup (w : InstrWord) (tab : List OpRow := optab) : Option OpRow :=
  match tab.filter (fun r => r.admits w) with
  | [r] => some r
  | _ => none

/-- The instruction of a mnemonic with the operand fields of a word (R53 to R59, R64). Fields the instruction does
not use are not read (R65). -/
def extract (m : Mnemonic) (w : InstrWord) : Instr :=
  match m with
  | .add => .add (fieldRd w) (fieldRn w) (fieldRm w)
  | .sub => .sub (fieldRd w) (fieldRn w) (fieldRm w)
  | .and => .and (fieldRd w) (fieldRn w) (fieldRm w)
  | .orr => .orr (fieldRd w) (fieldRn w) (fieldRm w)
  | .eor => .eor (fieldRd w) (fieldRn w) (fieldRm w)
  | .mul => .mul (fieldRd w) (fieldRn w) (fieldRm w)
  | .sdiv => .sdiv (fieldRd w) (fieldRn w) (fieldRm w)
  | .adds => .adds (fieldRd w) (fieldRn w) (fieldRm w)
  | .subs => .subs (fieldRd w) (fieldRn w) (fieldRm w)
  | .ands => .ands (fieldRd w) (fieldRn w) (fieldRm w)
  | .lsl => .lsl (fieldRd w) (fieldRn w) (fieldShamt w)
  | .lsr => .lsr (fieldRd w) (fieldRn w) (fieldShamt w)
  | .br => .br (fieldRd w)
  | .cmp => .cmp (fieldRd w) (fieldRn w)
  | .mov => .mov (fieldRd w) (fieldRn w)
  | .udiv => .udiv (fieldRd w) (fieldRn w) (fieldRm w)
  | .addi => .addi (fieldRd w) (fieldRn w) (fieldImm12 w)
  | .subi => .subi (fieldRd w) (fieldRn w) (fieldImm12 w)
  | .andi => .andi (fieldRd w) (fieldRn w) (fieldImm12 w)
  | .orri => .orri (fieldRd w) (fieldRn w) (fieldImm12 w)
  | .eori => .eori (fieldRd w) (fieldRn w) (fieldImm12 w)
  | .addis => .addis (fieldRd w) (fieldRn w) (fieldImm12 w)
  | .subis => .subis (fieldRd w) (fieldRn w) (fieldImm12 w)
  | .andis => .andis (fieldRd w) (fieldRn w) (fieldImm12 w)
  | .cmpi => .cmpi (fieldRn w) (fieldImm12 w)
  | .movz => .movz (fieldRd w) (fieldImm16 w)
  | .movk => .movk (fieldRd w) (fieldImm16 w)
  | .ldur => .ldur (fieldRd w) (fieldRn w) (fieldDt w)
  | .ldurb => .ldurb (fieldRd w) (fieldRn w) (fieldDt w)
  | .ldurh => .ldurh (fieldRd w) (fieldRn w) (fieldDt w)
  | .ldursw => .ldursw (fieldRd w) (fieldRn w) (fieldDt w)
  | .stur => .stur (fieldRd w) (fieldRn w) (fieldDt w)
  | .sturb => .sturb (fieldRd w) (fieldRn w) (fieldDt w)
  | .sturh => .sturh (fieldRd w) (fieldRn w) (fieldDt w)
  | .sturw => .sturw (fieldRd w) (fieldRn w) (fieldDt w)
  | .lda => .lda (fieldRd w) (fieldRn w) (fieldDt w)
  | .ldxr => .ldxr (fieldRd w) (fieldRn w) (fieldDt w)
  | .stxr => .stxr (fieldRd w) (fieldRn w) (fieldDt w)
  | .b => .b (fieldAddr26 w)
  | .bl => .bl (fieldAddr26 w)
  | .cbz => .cbz (fieldRd w) (fieldAddr19 w)
  | .cbnz => .cbnz (fieldRd w) (fieldAddr19 w)
  | .bEQ => .bEQ (fieldAddr19 w)
  | .bNE => .bNE (fieldAddr19 w)
  | .bLT => .bLT (fieldAddr19 w)
  | .bLO => .bLO (fieldAddr19 w)
  | .bLE => .bLE (fieldAddr19 w)
  | .bLS => .bLS (fieldAddr19 w)
  | .bGT => .bGT (fieldAddr19 w)
  | .bHI => .bHI (fieldAddr19 w)
  | .bGE => .bGE (fieldAddr19 w)
  | .bHS => .bHS (fieldAddr19 w)
  | .bPL => .bPL (fieldAddr19 w)
  | .bMI => .bMI (fieldAddr19 w)
  | .prnt => .prnt
  | .prnl => .prnl
  | .halt => .halt
  | .dump => .dump

/-- `decode` of R64, total on 32-bit words. -/
def decode (w : InstrWord) (tab : List OpRow := optab) : Decoded :=
  match lookup w tab with
  | some r => .instr (extract r.mn w)
  | none => .invalid

/-- The instruction that the decoder reads, with the default table, from an instruction of `nbits` bits, given as a number with bit 0 the
least significant. The program store holds whole 32-bit words, so there is no byte order to lay out (R33). -/
def decodeTableWord (nbits w : Nat) : Option Instr :=
  match decode (BitVec.ofNat 32 (w % 2 ^ nbits)) with
  | .instr i => some i
  | .invalid => none

/-! ## The encoder (R68) -/

/-- A register number as an operand value. -/
def regValue (r : Reg) : Int := (r.val : Int)

/-- `encode_R` of R68, with `setRange` on a zero word. -/
def encodeR (m : Mnemonic) (rd rn rm shamt : Int) (tab : List OpRow := optab) : InstrWord :=
  setRange (setRange (setRange (setRange (setRange 0 21 31 (opcodeOf m tab)) 16 20 rm) 10 15 shamt) 5 9 rn) 0 4 rd

/-- `encode_I` of R68. -/
def encodeI (m : Mnemonic) (rd rn imm : Int) (tab : List OpRow := optab) : InstrWord :=
  setRange (setRange (setRange (setRange 0 22 31 (opcodeOf m tab >>> 1 : Nat)) 10 21 imm) 5 9 rn) 0 4 rd

/-- `encode_IM` of R68. -/
def encodeIM (m : Mnemonic) (rd imm : Int) (tab : List OpRow := optab) : InstrWord :=
  setRange (setRange (setRange 0 21 31 (opcodeOf m tab)) 5 20 imm) 0 4 rd

/-- `encode_D` of R68; the reserved bits `[11:10]` stay 0 (R56). -/
def encodeD (m : Mnemonic) (rt rn dt : Int) (tab : List OpRow := optab) : InstrWord :=
  setRange (setRange (setRange (setRange 0 21 31 (opcodeOf m tab)) 12 20 dt) 5 9 rn) 0 4 rt

/-- `encode_B` of R68. -/
def encodeB (m : Mnemonic) (addr : Int) (tab : List OpRow := optab) : InstrWord :=
  setRange (setRange 0 26 31 (opcodeOf m tab >>> 5 : Nat)) 0 25 addr

/-- `encode_CB` of R68. -/
def encodeCB (m : Mnemonic) (rt addr : Int) (tab : List OpRow := optab) : InstrWord :=
  setRange (setRange (setRange 0 24 31 (opcodeOf m tab >>> 3 : Nat)) 5 23 addr) 0 4 rt

/-- The `shamt` of an R instruction whose syntax supplies none: 0, but 2 for `SDIV` and 3 for `UDIV`, the values of
their rows (R62, R68). -/
def impliedShamt (m : Mnemonic) (tab : List OpRow := optab) : Int :=
  if m = .sdiv ∨ m = .udiv then (extraValue m 10 15 tab : Int) else 0

/-- `encode_CB` of a `B.cond`: `Rt` holds the condition code, the value of its row (R63, R68). -/
def encodeCond (m : Mnemonic) (addr : Int) (tab : List OpRow := optab) : InstrWord :=
  encodeCB m (extraValue m 0 4 tab : Int) addr tab

/-- `encode_Z` of R68. -/
def encodeZ (m : Mnemonic) (tab : List OpRow := optab) : InstrWord := setRange 0 21 31 (opcodeOf m tab)

/-- The word of an instruction (R68). Operands the syntax does not supply are 0, except those of `impliedShamt` and
`encodeCond`. -/
def encode (i : Instr) (tab : List OpRow := optab) : InstrWord :=
  match i with
  | .add rd rn rm => encodeR .add (regValue rd) (regValue rn) (regValue rm) 0 tab
  | .sub rd rn rm => encodeR .sub (regValue rd) (regValue rn) (regValue rm) 0 tab
  | .and rd rn rm => encodeR .and (regValue rd) (regValue rn) (regValue rm) 0 tab
  | .orr rd rn rm => encodeR .orr (regValue rd) (regValue rn) (regValue rm) 0 tab
  | .eor rd rn rm => encodeR .eor (regValue rd) (regValue rn) (regValue rm) 0 tab
  | .mul rd rn rm => encodeR .mul (regValue rd) (regValue rn) (regValue rm) 0 tab
  | .sdiv rd rn rm => encodeR .sdiv (regValue rd) (regValue rn) (regValue rm) (impliedShamt .sdiv tab) tab
  | .adds rd rn rm => encodeR .adds (regValue rd) (regValue rn) (regValue rm) 0 tab
  | .subs rd rn rm => encodeR .subs (regValue rd) (regValue rn) (regValue rm) 0 tab
  | .ands rd rn rm => encodeR .ands (regValue rd) (regValue rn) (regValue rm) 0 tab
  | .lsl rd rn sh => encodeR .lsl (regValue rd) (regValue rn) 0 sh tab
  | .lsr rd rn sh => encodeR .lsr (regValue rd) (regValue rn) 0 sh tab
  | .br rd => encodeR .br (regValue rd) 0 0 0 tab
  | .cmp rd rn => encodeR .cmp (regValue rd) (regValue rn) 0 0 tab
  | .mov rd rn => encodeR .mov (regValue rd) (regValue rn) 0 0 tab
  | .udiv rd rn rm => encodeR .udiv (regValue rd) (regValue rn) (regValue rm) (impliedShamt .udiv tab) tab
  | .addi rd rn v => encodeI .addi (regValue rd) (regValue rn) v tab
  | .subi rd rn v => encodeI .subi (regValue rd) (regValue rn) v tab
  | .andi rd rn v => encodeI .andi (regValue rd) (regValue rn) v tab
  | .orri rd rn v => encodeI .orri (regValue rd) (regValue rn) v tab
  | .eori rd rn v => encodeI .eori (regValue rd) (regValue rn) v tab
  | .addis rd rn v => encodeI .addis (regValue rd) (regValue rn) v tab
  | .subis rd rn v => encodeI .subis (regValue rd) (regValue rn) v tab
  | .andis rd rn v => encodeI .andis (regValue rd) (regValue rn) v tab
  | .cmpi rn v => encodeI .cmpi 0 (regValue rn) v tab
  | .movz rd v => encodeIM .movz (regValue rd) v tab
  | .movk rd v => encodeIM .movk (regValue rd) v tab
  | .ldur rt rn dt => encodeD .ldur (regValue rt) (regValue rn) dt tab
  | .ldurb rt rn dt => encodeD .ldurb (regValue rt) (regValue rn) dt tab
  | .ldurh rt rn dt => encodeD .ldurh (regValue rt) (regValue rn) dt tab
  | .ldursw rt rn dt => encodeD .ldursw (regValue rt) (regValue rn) dt tab
  | .stur rt rn dt => encodeD .stur (regValue rt) (regValue rn) dt tab
  | .sturb rt rn dt => encodeD .sturb (regValue rt) (regValue rn) dt tab
  | .sturh rt rn dt => encodeD .sturh (regValue rt) (regValue rn) dt tab
  | .sturw rt rn dt => encodeD .sturw (regValue rt) (regValue rn) dt tab
  | .lda rt rn dt => encodeD .lda (regValue rt) (regValue rn) dt tab
  | .ldxr rt rn dt => encodeD .ldxr (regValue rt) (regValue rn) dt tab
  | .stxr rt rn dt => encodeD .stxr (regValue rt) (regValue rn) dt tab
  | .b a => encodeB .b a tab
  | .bl a => encodeB .bl a tab
  | .cbz rt a => encodeCB .cbz (regValue rt) a tab
  | .cbnz rt a => encodeCB .cbnz (regValue rt) a tab
  | .bEQ a => encodeCond .bEQ a tab
  | .bNE a => encodeCond .bNE a tab
  | .bLT a => encodeCond .bLT a tab
  | .bLO a => encodeCond .bLO a tab
  | .bLE a => encodeCond .bLE a tab
  | .bLS a => encodeCond .bLS a tab
  | .bGT a => encodeCond .bGT a tab
  | .bHI a => encodeCond .bHI a tab
  | .bGE a => encodeCond .bGE a tab
  | .bHS a => encodeCond .bHS a tab
  | .bPL a => encodeCond .bPL a tab
  | .bMI a => encodeCond .bMI a tab
  | .prnt => encodeZ .prnt tab
  | .prnl => encodeZ .prnl tab
  | .halt => encodeZ .halt tab
  | .dump => encodeZ .dump tab

/-! ## What an encoding keeps of an instruction -/

/-- The mnemonic of an instruction (R62). -/
def Instr.mnemonic : Instr → Mnemonic
  | .add _ _ _ => .add
  | .sub _ _ _ => .sub
  | .and _ _ _ => .and
  | .orr _ _ _ => .orr
  | .eor _ _ _ => .eor
  | .mul _ _ _ => .mul
  | .sdiv _ _ _ => .sdiv
  | .adds _ _ _ => .adds
  | .subs _ _ _ => .subs
  | .ands _ _ _ => .ands
  | .lsl _ _ _ => .lsl
  | .lsr _ _ _ => .lsr
  | .br _ => .br
  | .cmp _ _ => .cmp
  | .mov _ _ => .mov
  | .udiv _ _ _ => .udiv
  | .addi _ _ _ => .addi
  | .subi _ _ _ => .subi
  | .andi _ _ _ => .andi
  | .orri _ _ _ => .orri
  | .eori _ _ _ => .eori
  | .addis _ _ _ => .addis
  | .subis _ _ _ => .subis
  | .andis _ _ _ => .andis
  | .cmpi _ _ => .cmpi
  | .movz _ _ => .movz
  | .movk _ _ => .movk
  | .ldur _ _ _ => .ldur
  | .ldurb _ _ _ => .ldurb
  | .ldurh _ _ _ => .ldurh
  | .ldursw _ _ _ => .ldursw
  | .stur _ _ _ => .stur
  | .sturb _ _ _ => .sturb
  | .sturh _ _ _ => .sturh
  | .sturw _ _ _ => .sturw
  | .lda _ _ _ => .lda
  | .ldxr _ _ _ => .ldxr
  | .stxr _ _ _ => .stxr
  | .b _ => .b
  | .bl _ => .bl
  | .cbz _ _ => .cbz
  | .cbnz _ _ => .cbnz
  | .bEQ _ => .bEQ
  | .bNE _ => .bNE
  | .bLT _ => .bLT
  | .bLO _ => .bLO
  | .bLE _ => .bLE
  | .bLS _ => .bLS
  | .bGT _ => .bGT
  | .bHI _ => .bHI
  | .bGE _ => .bGE
  | .bHS _ => .bHS
  | .bPL _ => .bPL
  | .bMI _ => .bMI
  | .prnt => .prnt
  | .prnl => .prnl
  | .halt => .halt
  | .dump => .dump

/-- The instruction with every operand truncated to its field, as the encoder truncates it (R50, R68). -/
def Instr.truncate : Instr → Instr
  | .add rd rn rm => .add rd rn rm
  | .sub rd rn rm => .sub rd rn rm
  | .and rd rn rm => .and rd rn rm
  | .orr rd rn rm => .orr rd rn rm
  | .eor rd rn rm => .eor rd rn rm
  | .mul rd rn rm => .mul rd rn rm
  | .sdiv rd rn rm => .sdiv rd rn rm
  | .adds rd rn rm => .adds rd rn rm
  | .subs rd rn rm => .subs rd rn rm
  | .ands rd rn rm => .ands rd rn rm
  | .lsl rd rn v => .lsl rd rn (v % 2 ^ 6)
  | .lsr rd rn v => .lsr rd rn (v % 2 ^ 6)
  | .br rd => .br rd
  | .cmp rd rn => .cmp rd rn
  | .mov rd rn => .mov rd rn
  | .udiv rd rn rm => .udiv rd rn rm
  | .addi rd rn v => .addi rd rn (v % 2 ^ 12)
  | .subi rd rn v => .subi rd rn (v % 2 ^ 12)
  | .andi rd rn v => .andi rd rn (v % 2 ^ 12)
  | .orri rd rn v => .orri rd rn (v % 2 ^ 12)
  | .eori rd rn v => .eori rd rn (v % 2 ^ 12)
  | .addis rd rn v => .addis rd rn (v % 2 ^ 12)
  | .subis rd rn v => .subis rd rn (v % 2 ^ 12)
  | .andis rd rn v => .andis rd rn (v % 2 ^ 12)
  | .cmpi rn v => .cmpi rn (v % 2 ^ 12)
  | .movz rd v => .movz rd (v % 2 ^ 16)
  | .movk rd v => .movk rd (v % 2 ^ 16)
  | .ldur rt rn v => .ldur rt rn (v % 2 ^ 9)
  | .ldurb rt rn v => .ldurb rt rn (v % 2 ^ 9)
  | .ldurh rt rn v => .ldurh rt rn (v % 2 ^ 9)
  | .ldursw rt rn v => .ldursw rt rn (v % 2 ^ 9)
  | .stur rt rn v => .stur rt rn (v % 2 ^ 9)
  | .sturb rt rn v => .sturb rt rn (v % 2 ^ 9)
  | .sturh rt rn v => .sturh rt rn (v % 2 ^ 9)
  | .sturw rt rn v => .sturw rt rn (v % 2 ^ 9)
  | .lda rt rn v => .lda rt rn (v % 2 ^ 9)
  | .ldxr rt rn v => .ldxr rt rn (v % 2 ^ 9)
  | .stxr rt rn v => .stxr rt rn (v % 2 ^ 9)
  | .b v => .b (v % 2 ^ 26)
  | .bl v => .bl (v % 2 ^ 26)
  | .cbz rt v => .cbz rt (v % 2 ^ 19)
  | .cbnz rt v => .cbnz rt (v % 2 ^ 19)
  | .bEQ v => .bEQ (v % 2 ^ 19)
  | .bNE v => .bNE (v % 2 ^ 19)
  | .bLT v => .bLT (v % 2 ^ 19)
  | .bLO v => .bLO (v % 2 ^ 19)
  | .bLE v => .bLE (v % 2 ^ 19)
  | .bLS v => .bLS (v % 2 ^ 19)
  | .bGT v => .bGT (v % 2 ^ 19)
  | .bHI v => .bHI (v % 2 ^ 19)
  | .bGE v => .bGE (v % 2 ^ 19)
  | .bHS v => .bHS (v % 2 ^ 19)
  | .bPL v => .bPL (v % 2 ^ 19)
  | .bMI v => .bMI (v % 2 ^ 19)
  | .prnt => .prnt
  | .prnl => .prnl
  | .halt => .halt
  | .dump => .dump

end Sys2Proof
end

