-- ==== Sys2Proof/Machine/ResetValues.lean ====
section
/-! DEFINITION. The values that `State.reset` is written with (R25, R215). -/

namespace Sys2Proof.Machine

/-- The MEM_SIZE of `State.reset`. DESIGN CHOICE, unsafe for a claim that rests on the number: the spec leaves
MEM_SIZE open and writes its programs for 4096 (log 1). -/
def resetMemSize : Nat := 4096

/-- The registers after reset: SP (28) and FP (29) hold MEM_SIZE, the others 0 (R25, R215; the zeros are the spec's
decision D18, log 4). -/
def resetRegs (memSize : Nat) : Vector Word 31 :=
  ((Vector.replicate 31 (0 : Word)).set 28 (BitVec.ofNat 64 memSize)).set 29 (BitVec.ofNat 64 memSize)

end Sys2Proof.Machine
end

