-- ==== Sys2Proof/Machine/State.lean ====
section
/-! DEFINITION. The state of the machine (R10), the events of its output sink (R21), its fault latch (R22), the
state after reset (R25, R215), and the reasons a step could stop. -/

namespace Sys2Proof.Machine

/-- Data memory as (address, byte) pairs, in the canonical form of `Memory.wf`: addresses strictly rising, no pair
that holds `Memory.unlisted`. -/
abbrev Memory := List Host.Cell

/-- What an address that memory does not list reads as: 0, the spec's default MEM_INIT (R5, R25, log 7). -/
def Memory.unlisted : Byte := 0

/-- The four condition flags (R16). -/
structure Flags where
  z : Bool
  n : Bool
  c : Bool
  v : Bool
  deriving DecidableEq, Repr

/-- The run-state latch (R17). -/
inductive RunState where
  /-- Reset done, not started. -/
  | idle
  /-- A step executes an instruction. -/
  | running
  /-- The run is over without failure, or the host abandoned it (R207). -/
  | ended
  /-- The run stopped on an ExecutionFailure. -/
  | failed
  deriving DecidableEq, Repr

/-- The causes of an ExecutionFailure (R197). -/
inductive Cause where
  | unimplemented
  | invalidEncoding
  | divideByZero
  | addressOutOfRange
  deriving DecidableEq, Repr

/-- What the fault latch keeps of a failure: its cause, the index of the failing instruction, and `info` (R196,
R197). -/
structure Failure where
  cause : Cause
  index : Int
  info : Int
  deriving DecidableEq, Repr

/-- The events of the output sink (R21). They are abstract: no text layout (D24). -/
inductive Event where
  /-- Emitted by `PRNT`. -/
  | print (text : Text)
  /-- Emitted by `PRNL`. -/
  | blankLine
  /-- Emitted by `HALT` and `DUMP`: the 32 register values and all MEM_SIZE bytes, the bytes held as canonical
  memory (log 7). -/
  | dump (regs : Vector Word 32) (memSize : Nat) (mem : Memory)
  /-- Emitted by every ExecutionFailure; `none` is the "Invalid" of R196 (log 5). -/
  | error (cause : Cause) (mnemonic : Option Mnemonic) (format : Option Format)
  deriving DecidableEq, Repr

/-- An entry of the program store (R18). -/
structure ProgEntry where
  word : InstrWord
  payload : Text
  line : Nat
  deriving DecidableEq, Repr

/-- The state of the core (R10), and after it the configuration that the spec takes as arguments (R5): no step
changes `prog`, `memSize`, `memInit` or `optab`. -/
structure State where
  /-- `X[0]` to `X[30]`; register 31 has no storage (R11, R215). -/
  regs : Vector Word 31
  /-- The index of the next instruction, an integer (R14). -/
  pc : Int
  /-- `Z`, `N`, `C`, `V` (R16). -/
  flags : Flags
  /-- The run-state latch (R17). -/
  run : RunState
  /-- Data memory (R30). -/
  mem : Memory
  /-- The indices executed, oldest first (R20). -/
  trace : List Int
  /-- The output sink, oldest event first (R21). -/
  out : List Event
  /-- The fault latch (R22). -/
  fault : Option Failure
  /-- PROG, the program store (R18). -/
  prog : List ProgEntry
  /-- MEM_SIZE, the size of data memory in bytes (R5). -/
  memSize : Nat
  /-- MEM_INIT, the contents of data memory at reset (R5, R25). -/
  memInit : Memory
  /-- OPTAB, the opcode assignment that the words of the program are decoded with (R5, R62). -/
  optab : List OpRow
  deriving DecidableEq, Repr

/-- The machine after reset, for any value of the parameters MEM_SIZE, MEM_INIT, PROG and OPTAB; OPTAB has the
default of R62 (R5, R25, R215). -/
def State.resetWith (memSize : Nat) (memInit : Memory) (prog : List ProgEntry) (tab : List OpRow := Sys2Proof.optab) :
    State where
  regs := resetRegs memSize
  pc := 0
  flags := ⟨false, false, false, false⟩
  run := .idle
  mem := memInit
  trace := []
  out := []
  fault := none
  prog := prog
  memSize := memSize
  memInit := memInit
  optab := tab

/-- The machine right after reset: no program loaded yet (log 2), MEM_INIT all zero, MEM_SIZE 4096 (log 1), the
default OPTAB (log 3). -/
def State.reset : State := State.resetWith resetMemSize [] []

/-- The reasons a step could stop with a fault: none, so the type has no constructor. The one exception of this
machine, the ExecutionFailure, is taken: it gives a next state with `run = failed` (R196, R198, log 5). Safe: no
behaviour is cut short. -/
inductive Fault where
  deriving DecidableEq, Repr

/-- The reasons a step could be refused. -/
inductive Refusal where
  /-- Raised only by an arm of `exec` for an instruction that has no meaning yet. Safe. No arm of this model does:
  every row of the opcode map has its meaning. -/
  | notModelled (mnemonic : String)
  deriving DecidableEq, Repr

end Sys2Proof.Machine
end

