-- ==== Sys2Proof/Machine/Ops.lean ====
section
/-! DEFINITION. The named operations over registers, memory, the program counter, the output sink and the run
latch that every meaning uses, and the one exception of the machine, taken (R8, R196). -/

namespace Sys2Proof.Machine

/-! ## Registers (R11) -/

/-- `x[r]`: register 31 reads 0 (R11). -/
def readReg (s : State) (r : Reg) : Word :=
  if h : r.val < 31 then s.regs[r.val] else 0

/-- `x[r] <- v`: a write to register 31 is discarded (R11). -/
def writeReg (s : State) (r : Reg) (v : Word) : State :=
  if h : r.val < 31 then { s with regs := s.regs.set r.val v } else s

/-- `s(x[r])`, the signed reading of a register (R7). -/
def readSigned (s : State) (r : Reg) : Int := (readReg s r).toInt

/-- The link register, X30 (R12, R13). -/
def linkReg : Reg := 30

/-! ## The other components of the state -/

/-- `pc <- t` (R8). -/
def setPc (s : State) (t : Int) : State := { s with pc := t }

/-- The four flags at once (R16). -/
def writeFlags (s : State) (f : Flags) : State := { s with flags := f }

/-- `run <- r` (R17). -/
def setRun (s : State) (r : RunState) : State := { s with run := r }

/-- `emit e`: the event goes to the end of the output sink (R21). -/
def emit (s : State) (e : Event) : State := { s with out := s.out ++ [e] }

/-- `trace <- trace ++ [i]` (R20, R186). -/
def pushTrace (s : State) (i : Int) : State := { s with trace := s.trace ++ [i] }

/-- Data memory replaced. -/
def setMem (s : State) (m : Memory) : State := { s with mem := m }

/-- The index of the instruction being executed: inside an instruction rule `pc` reads `i + 1` (R8, R186, log 6). -/
def currentIndex (s : State) : Int := s.pc - 1

/-! ## Data memory (R30 to R37) -/

/-- The canonical form: addresses strictly rising, and no pair equal to what an unlisted address reads as. -/
abbrev Memory.wf (m : Memory) : Prop :=
  List.Pairwise (fun c d : Host.Cell => c.1 < d.1) m ∧ ∀ c ∈ m, c.2 ≠ Memory.unlisted

/-- Every listed address is below `n`. -/
abbrev Memory.below (m : Memory) (n : Nat) : Prop := ∀ c ∈ m, c.1 < n

/-- The byte at an address. -/
def Memory.read : Memory → Nat → Byte
  | [], _ => Memory.unlisted
  | (k, b) :: m, a => if k = a then b else Memory.read m a

/-- The list that holds `b` at `a` in front of `m`, where every address of `m` is above `a`. -/
def Memory.put (a : Nat) (b : Byte) (m : Memory) : Memory :=
  if b = Memory.unlisted then m else (a, b) :: m

/-- The byte at an address replaced, in canonical form: writing what an unlisted address reads as removes the
pair. -/
def Memory.write : Memory → Nat → Byte → Memory
  | [], a, b => Memory.put a b []
  | (k, c) :: m, a, b =>
    if a < k then Memory.put a b ((k, c) :: m)
    else if a = k then Memory.put a b m
    else (k, c) :: Memory.write m a b

/-- The `n` bytes from `a` up, lowest address first. -/
def Memory.readBytes (m : Memory) (a : Nat) : Nat → List Byte
  | 0 => []
  | n + 1 => Memory.read m a :: Memory.readBytes m (a + 1) n

/-- Bytes stored from `a` up, the first at the lowest address. -/
def Memory.writeBytes (m : Memory) (a : Nat) : List Byte → Memory
  | [] => m
  | b :: bs => Memory.writeBytes (Memory.write m a b) (a + 1) bs

/-- The byte of data memory at an address, as a later read would see it. -/
def readByte (s : State) (a : Nat) : Byte := Memory.read s.mem a

/-- An access of `n` bytes at `ea` is admitted (R32). -/
abbrev admitted (s : State) (ea : Int) (n : Nat) : Prop := 0 ≤ ea ∧ ea + (n : Int) ≤ (s.memSize : Int)

/-- `MemRead(EA, n)` of R35: the unsigned value, little-endian (R33); `none` where it raises AddressOutOfRange. -/
def memRead (s : State) (ea : Int) (n : Nat) : Option Nat :=
  if admitted s ea n then some (valueOfBytes (Memory.readBytes s.mem ea.toNat n)) else none

/-- `MemWrite(EA, n, v)` of R36: the low `n` bytes of `v`, little-endian (R33); `none` where it raises
AddressOutOfRange, and then no byte is written. -/
def memWrite (s : State) (ea : Int) (n : Nat) (v : Word) : Option State :=
  if admitted s ea n then some (setMem s (Memory.writeBytes s.mem ea.toNat (lowBytes v n))) else none

/-! ## The exception (R195 to R201) -/

/-- `raise ExecutionFailure(cause, info)` inside the step at index `i` (R196), TAKEN: one Error event with the
mnemonic and format of the word (`none` for a word that decodes to Invalid), the fault latch set if it is empty,
`run` becomes Failed. Nothing else changes (R198). There is no handler, and no instruction returns from it (R201). -/
def raiseFailure (s : State) (cause : Cause) (info : Int) (mn : Option Mnemonic) : State :=
  { s with
    out := s.out ++ [.error cause mn (mn.map Mnemonic.format)]
    fault := match s.fault with
      | some f => some f
      | none => some ⟨cause, currentIndex s, info⟩
    run := .failed }

/-- A stub: `raise ExecutionFailure(Unimplemented, i)`, whatever the operands (R115, R144 to R146, R197). -/
def raiseUnimplemented (s : State) (mn : Mnemonic) : State :=
  raiseFailure s .unimplemented (currentIndex s) (some mn)

/-- An illegal word: `raise ExecutionFailure(InvalidEncoding, i)` (R66, R186). -/
def raiseInvalidEncoding (s : State) : State :=
  raiseFailure s .invalidEncoding (currentIndex s) none

/-! ## The program store (R18, R186, R187) -/

/-- `PROG[i]`, or nothing where the index is before 0 or at or after PROG_LEN (R187). -/
def progEntry (s : State) (i : Int) : Option ProgEntry :=
  if i < 0 then none else s.prog[i.toNat]?

/-- What a step does before it executes the instruction: the trace push and the default fall through (R186). -/
def beginStep (s : State) : State := setPc (pushTrace s s.pc) (s.pc + 1)

/-- The payload of the instruction being executed (R18, R178). Outside the program store it reads as empty; no step
gets there (log 6). -/
def currentPayload (s : State) : Text :=
  match progEntry s (currentIndex s) with
  | some e => e.payload
  | none => []

end Sys2Proof.Machine
end

