-- ==== Sys2Proof/Machine/Flags.lean ====
section
/-! DEFINITION. The condition-flag logic: `setFlags` (R92) and the predicates of `B.cond` (R158). -/

namespace Sys2Proof.Machine

/-- The `C` formula of R92. -/
def carryFlag (result left right : Int) : Bool :=
  (decide (left > 0) && decide (right > 0) && decide (result < left) && decide (result < right)) ||
    (decide (left < 0) && decide (right < 0) && decide (result > left) && decide (result > right))

/-- The `V` formula of R92. -/
def overflowFlag (result left right : Int) : Bool :=
  (decide (left > 0) && decide (right > 0) && decide (result < 0)) ||
    (decide (left < 0) && decide (right < 0) && decide (result > 0))

/-- `setFlags(result, left, right)` of R92, exactly as given. -/
def setFlags (result left right : Int) : Flags where
  z := decide (result = 0)
  n := decide (result < 0)
  c := carryFlag result left right
  v := overflowFlag result left right

/-- The flags of an ALU operation: the wrapped result and both operands as they were read, the right one not
negated for a subtraction (R92; the spec's decision D16, log 13). -/
def flagsOf (result left right : Word) : Flags := setFlags result.toInt left.toInt right.toInt

/-- The predicate of each condition (R158). The pairs of signed and unsigned conditions agree, and GE and HS have the
predicate of LE and LS: the table is normative as it stands. -/
def condHolds (c : Cond) (f : Flags) : Bool :=
  match c with
  | .eq => f.z
  | .ne => !f.z
  | .lt => !f.z && f.n
  | .lo => !f.z && f.n
  | .le => f.z || f.n
  | .ls => f.z || f.n
  | .gt => !f.z && !f.n
  | .hi => !f.z && !f.n
  | .ge => f.z || f.n
  | .hs => f.z || f.n
  | .pl => !f.n
  | .mi => f.n

end Sys2Proof.Machine
end

