-- ==== Sys2Proof/Machine/Operands.lean ====
section
/-! DEFINITION. The operand forms of the seven formats, and the shapes that several instructions share. An operand
value beyond its field is read as the field would hold it, truncated (R50, R68, log 9). -/

namespace Sys2Proof.Machine

/-- The outcome of a step. -/
abbrev StepOutcome := Host.Outcome State Fault Refusal

/-! ## Operands -/

/-- `zext_12(imm12)`, the second operand of every I-format instruction (R60). -/
def imm12Operand (imm : Nat) : Word := zext 12 imm

/-- `zext_16(imm16)` (R60). -/
def imm16Operand (imm : Nat) : Word := zext 16 imm

/-- The shift distance, 0 .. 63 (R60, R96). -/
def shiftDistance (shamt : Nat) : Nat := shamt % 2 ^ 6

/-- `EA = s(x[Rn]) + dt`, a mathematical integer that is not wrapped (R31, R135). -/
def effectiveAddress (s : State) (rn : Reg) (dt : Nat) : Int := readSigned s rn + ((dt % 2 ^ 9 : Nat) : Int)

/-- The absolute target index of a B-format instruction (R150). -/
def target26 (addr : Nat) : Int := ((addr % 2 ^ 26 : Nat) : Int)

/-- The absolute target index of a CB-format instruction (R155). -/
def target19 (addr : Nat) : Int := ((addr % 2 ^ 19 : Nat) : Int)

/-- The clamp of `BR` to the safe-integer range (R112). -/
def clampIndex (t : Int) : Int :=
  if t > Config.safeMax then Config.safeMax else if t < -Config.safeMax then -Config.safeMax else t

/-! ## Shared shapes -/

/-- `x[Rd] <- f(x[Rn], x[Rm])`: sources are read before the destination is written (R97). -/
def regRegOp (f : Word → Word → Word) (rd rn rm : Reg) (s : State) : State :=
  writeReg s rd (f (readReg s rn) (readReg s rm))

/-- `x[Rd] <- f(x[Rn], b)` for an immediate operand `b`. -/
def regImmOp (f : Word → Word → Word) (rd rn : Reg) (b : Word) (s : State) : State :=
  writeReg s rd (f (readReg s rn) b)

/-- `setFlags` from `f(a, b)`, its operands as read (R92, R97). -/
def compareOp (f : Word → Word → Word) (a b : Word) (s : State) : State :=
  writeFlags s (flagsOf (f a b) a b)

/-- The flag-setting register form: the flags come from the values read before `Rd` is written (R97). -/
def regRegFlagsOp (f : Word → Word → Word) (rd rn rm : Reg) (s : State) : State :=
  compareOp f (readReg s rn) (readReg s rm) (regRegOp f rd rn rm s)

/-- The flag-setting immediate form. -/
def regImmFlagsOp (f : Word → Word → Word) (rd rn : Reg) (b : Word) (s : State) : State :=
  compareOp f (readReg s rn) b (regImmOp f rd rn b s)

/-- A load of `n` bytes that `ext` extends to 64 bits (R35, R135); an address that is not admitted raises
AddressOutOfRange and `Rt` is unchanged (R32). -/
def loadOp (mn : Mnemonic) (n : Nat) (ext : Nat → Word) (rt rn : Reg) (dt : Nat) (s : State) : State :=
  match memRead s (effectiveAddress s rn dt) n with
  | some v => writeReg s rt (ext v)
  | none => raiseFailure s .addressOutOfRange (effectiveAddress s rn dt) (some mn)

/-- A store of the low `n` bytes of `Rt` (R36, R135); an address that is not admitted raises AddressOutOfRange and
no byte is written (R32). -/
def storeOp (mn : Mnemonic) (n : Nat) (rt rn : Reg) (dt : Nat) (s : State) : State :=
  match memWrite s (effectiveAddress s rn dt) n (readReg s rt) with
  | some s' => s'
  | none => raiseFailure s .addressOutOfRange (effectiveAddress s rn dt) (some mn)

/-- `if taken: pc <- t` (R15, R155). -/
def branchIf (taken : Bool) (t : Int) (s : State) : State := if taken then setPc s t else s

/-- `if cond(cc): pc <- addr19` (R158). -/
def branchCond (c : Cond) (addr19 : Nat) (s : State) : State :=
  branchIf (condHolds c s.flags) (target19 addr19) s

end Sys2Proof.Machine
end

