-- ==== Sys2Proof/Machine/BFormat.lean ====
section
/-! DEFINITION. The meanings of the B-format instructions (`45_b_format.md`). -/

namespace Sys2Proof.Machine

/-- `B`: `pc <- addr26`, an absolute index (R150, R151). -/
def execB (addr26 : Nat) (s : State) : StepOutcome :=
  .next (setPc s (target26 addr26))

/-- `BL`: the index after the `BL`, which `pc` already holds, goes to the link register, then `pc <- addr26` (R152). -/
def execBl (addr26 : Nat) (s : State) : StepOutcome :=
  .next (setPc (writeReg s linkReg (wrap64 s.pc)) (target26 addr26))

end Sys2Proof.Machine
end

