-- ==== Sys2Proof/Machine/CbFormat.lean ====
section
/-! DEFINITION. The meanings of the CB-format instructions (`46_cb_format.md`). -/

namespace Sys2Proof.Machine

/-- `CBZ`: branch when all 64 bits of `x[Rt]` are zero (R156). -/
def execCbz (rt : Reg) (addr19 : Nat) (s : State) : StepOutcome :=
  .next (branchIf (decide (readReg s rt = 0)) (target19 addr19) s)

/-- `CBNZ`: branch when `x[Rt]` is not zero (R157). -/
def execCbnz (rt : Reg) (addr19 : Nat) (s : State) : StepOutcome :=
  .next (branchIf (decide (readReg s rt ≠ 0)) (target19 addr19) s)

/-- `B.EQ` (R159, R158). -/
def execBEQ (addr19 : Nat) (s : State) : StepOutcome :=
  .next (branchCond .eq addr19 s)

/-- `B.NE` (R160, R158). -/
def execBNE (addr19 : Nat) (s : State) : StepOutcome :=
  .next (branchCond .ne addr19 s)

/-- `B.LT` (R161, R158). -/
def execBLT (addr19 : Nat) (s : State) : StepOutcome :=
  .next (branchCond .lt addr19 s)

/-- `B.LO` (R162, R158). -/
def execBLO (addr19 : Nat) (s : State) : StepOutcome :=
  .next (branchCond .lo addr19 s)

/-- `B.LE` (R163, R158). -/
def execBLE (addr19 : Nat) (s : State) : StepOutcome :=
  .next (branchCond .le addr19 s)

/-- `B.LS` (R164, R158). -/
def execBLS (addr19 : Nat) (s : State) : StepOutcome :=
  .next (branchCond .ls addr19 s)

/-- `B.GT` (R165, R158). -/
def execBGT (addr19 : Nat) (s : State) : StepOutcome :=
  .next (branchCond .gt addr19 s)

/-- `B.HI` (R166, R158). -/
def execBHI (addr19 : Nat) (s : State) : StepOutcome :=
  .next (branchCond .hi addr19 s)

/-- `B.GE` (R167, R158). -/
def execBGE (addr19 : Nat) (s : State) : StepOutcome :=
  .next (branchCond .ge addr19 s)

/-- `B.HS` (R168, R158). -/
def execBHS (addr19 : Nat) (s : State) : StepOutcome :=
  .next (branchCond .hs addr19 s)

/-- `B.PL` (R169, R158). -/
def execBPL (addr19 : Nat) (s : State) : StepOutcome :=
  .next (branchCond .pl addr19 s)

/-- `B.MI` (R170, R158). -/
def execBMI (addr19 : Nat) (s : State) : StepOutcome :=
  .next (branchCond .mi addr19 s)

end Sys2Proof.Machine
end

