-- ==== Sys2Proof/Machine/DFormat.lean ====
section
/-! DEFINITION. The meanings of the D-format instructions (`44_d_format.md`). -/

namespace Sys2Proof.Machine

/-- `LDUR`: load 8 bytes (R136, R135). -/
def execLdur (rt rn : Reg) (dt : Nat) (s : State) : StepOutcome :=
  .next (loadOp .ldur 8 (zext 64) rt rn dt s)

/-- `LDURB`: load 1 byte, zero-extended (R137, R135). -/
def execLdurb (rt rn : Reg) (dt : Nat) (s : State) : StepOutcome :=
  .next (loadOp .ldurb 1 (zext 8) rt rn dt s)

/-- `LDURH`: load 2 bytes, zero-extended (R138, R135). -/
def execLdurh (rt rn : Reg) (dt : Nat) (s : State) : StepOutcome :=
  .next (loadOp .ldurh 2 (zext 16) rt rn dt s)

/-- `LDURSW`: load 4 bytes, sign-extended (R139, R135). -/
def execLdursw (rt rn : Reg) (dt : Nat) (s : State) : StepOutcome :=
  .next (loadOp .ldursw 4 (sext 32) rt rn dt s)

/-- `STUR`: store 8 bytes of `x[Rt]` (R140, R135). -/
def execStur (rt rn : Reg) (dt : Nat) (s : State) : StepOutcome :=
  .next (storeOp .stur 8 rt rn dt s)

/-- `STURB`: store the low byte of `x[Rt]` (R141, R135). -/
def execSturb (rt rn : Reg) (dt : Nat) (s : State) : StepOutcome :=
  .next (storeOp .sturb 1 rt rn dt s)

/-- `STURH`: store the low 2 bytes of `x[Rt]` (R142, R135). -/
def execSturh (rt rn : Reg) (dt : Nat) (s : State) : StepOutcome :=
  .next (storeOp .sturh 2 rt rn dt s)

/-- `STURW`: store the low 4 bytes of `x[Rt]` (R143, R135). -/
def execSturw (rt rn : Reg) (dt : Nat) (s : State) : StepOutcome :=
  .next (storeOp .sturw 4 rt rn dt s)

/-- `LDA`: an unimplemented stub that always raises Unimplemented; nothing is read and no bounds are checked (R144, R199). -/
def execLda (_rt _rn : Reg) (_dt : Nat) (s : State) : StepOutcome :=
  .next (raiseUnimplemented s .lda)

/-- `LDXR`: an unimplemented stub that always raises Unimplemented; nothing is read and no bounds are checked (R145, R199). -/
def execLdxr (_rt _rn : Reg) (_dt : Nat) (s : State) : StepOutcome :=
  .next (raiseUnimplemented s .ldxr)

/-- `STXR`: an unimplemented stub that always raises Unimplemented; nothing is read and no bounds are checked (R146, R199). -/
def execStxr (_rt _rn : Reg) (_dt : Nat) (s : State) : StepOutcome :=
  .next (raiseUnimplemented s .stxr)

end Sys2Proof.Machine
end

