-- ==== Sys2Proof/Machine/IFormat.lean ====
section
/-! DEFINITION. The meanings of the I-format instructions (`42_i_format.md`). -/

namespace Sys2Proof.Machine

/-- `ADDI`: `x[Rd] <- add(x[Rn], zext_12(imm12))` (R120). -/
def execAddi (rd rn : Reg) (imm12 : Nat) (s : State) : StepOutcome :=
  .next (regImmOp aluAdd rd rn (imm12Operand imm12) s)

/-- `SUBI`: `x[Rd] <- sub(x[Rn], zext_12(imm12))` (R121). -/
def execSubi (rd rn : Reg) (imm12 : Nat) (s : State) : StepOutcome :=
  .next (regImmOp aluSub rd rn (imm12Operand imm12) s)

/-- `ANDI`: `x[Rd] <- and(x[Rn], zext_12(imm12))` (R122). -/
def execAndi (rd rn : Reg) (imm12 : Nat) (s : State) : StepOutcome :=
  .next (regImmOp aluAnd rd rn (imm12Operand imm12) s)

/-- `ORRI`: `x[Rd] <- orr(x[Rn], zext_12(imm12))` (R123). -/
def execOrri (rd rn : Reg) (imm12 : Nat) (s : State) : StepOutcome :=
  .next (regImmOp aluOrr rd rn (imm12Operand imm12) s)

/-- `EORI`: `x[Rd] <- eor(x[Rn], zext_12(imm12))` (R124). -/
def execEori (rd rn : Reg) (imm12 : Nat) (s : State) : StepOutcome :=
  .next (regImmOp aluEor rd rn (imm12Operand imm12) s)

/-- `ADDIS`: as `ADDI`, and all four flags from `setFlags` with the immediate itself as right operand (R125, R92). -/
def execAddis (rd rn : Reg) (imm12 : Nat) (s : State) : StepOutcome :=
  .next (regImmFlagsOp aluAdd rd rn (imm12Operand imm12) s)

/-- `SUBIS`: as `SUBI`, and all four flags from `setFlags` with the immediate itself as right operand (R126, R92). -/
def execSubis (rd rn : Reg) (imm12 : Nat) (s : State) : StepOutcome :=
  .next (regImmFlagsOp aluSub rd rn (imm12Operand imm12) s)

/-- `ANDIS`: as `ANDI`, and all four flags from `setFlags` with the immediate itself as right operand (R127, R92). -/
def execAndis (rd rn : Reg) (imm12 : Nat) (s : State) : StepOutcome :=
  .next (regImmFlagsOp aluAnd rd rn (imm12Operand imm12) s)

/-- `CMPI`: the flags of `x[Rn] - imm`; no register is written (R128). -/
def execCmpi (rn : Reg) (imm12 : Nat) (s : State) : StepOutcome :=
  .next (compareOp aluSub (readReg s rn) (imm12Operand imm12) s)

end Sys2Proof.Machine
end

