-- ==== Sys2Proof/Machine/ImFormat.lean ====
section
/-! DEFINITION. The meanings of the IM-format instructions (`43_im_format.md`). There is no shift (R130). -/

namespace Sys2Proof.Machine

/-- `MOVZ`: `x[Rd] <- zext_16(imm16)`; the old value is not read (R131). -/
def execMovz (rd : Reg) (imm16 : Nat) (s : State) : StepOutcome :=
  .next (writeReg s rd (imm16Operand imm16))

/-- `MOVK`: bits 15..0 of `x[Rd]` replaced, the rest kept: `(old and not 0xFFFF) or zext_16(imm16)` (R132). -/
def execMovk (rd : Reg) (imm16 : Nat) (s : State) : StepOutcome :=
  .next (writeReg s rd ((readReg s rd &&& ~~~ (0xFFFF : Word)) ||| imm16Operand imm16))

end Sys2Proof.Machine
end

