-- ==== Sys2Proof/Machine/RFormat.lean ====
section
/-! DEFINITION. The meanings of the R-format instructions (`41_r_format.md`). -/

namespace Sys2Proof.Machine

/-- `ADD`: `x[Rd] <- add(x[Rn], x[Rm])` (R100). -/
def execAdd (rd rn rm : Reg) (s : State) : StepOutcome :=
  .next (regRegOp aluAdd rd rn rm s)

/-- `SUB`: `x[Rd] <- sub(x[Rn], x[Rm])` (R101). -/
def execSub (rd rn rm : Reg) (s : State) : StepOutcome :=
  .next (regRegOp aluSub rd rn rm s)

/-- `AND`: `x[Rd] <- and(x[Rn], x[Rm])` (R102). -/
def execAnd (rd rn rm : Reg) (s : State) : StepOutcome :=
  .next (regRegOp aluAnd rd rn rm s)

/-- `ORR`: `x[Rd] <- orr(x[Rn], x[Rm])` (R103). -/
def execOrr (rd rn rm : Reg) (s : State) : StepOutcome :=
  .next (regRegOp aluOrr rd rn rm s)

/-- `EOR`: `x[Rd] <- eor(x[Rn], x[Rm])` (R104). -/
def execEor (rd rn rm : Reg) (s : State) : StepOutcome :=
  .next (regRegOp aluEor rd rn rm s)

/-- `MUL`: `x[Rd] <- mul(x[Rn], x[Rm])` (R105). -/
def execMul (rd rn rm : Reg) (s : State) : StepOutcome :=
  .next (regRegOp aluMul rd rn rm s)

/-- `SDIV`: a zero divisor raises DivideByZero before any write; otherwise the quotient rounded toward zero (R106, R94). -/
def execSdiv (rd rn rm : Reg) (s : State) : StepOutcome :=
  if readSigned s rm = 0 then .next (raiseFailure s .divideByZero (currentIndex s) (some .sdiv))
  else .next (regRegOp aluSdiv rd rn rm s)

/-- `ADDS`: as `ADD`, and all four flags from `setFlags` (R107, R92). -/
def execAdds (rd rn rm : Reg) (s : State) : StepOutcome :=
  .next (regRegFlagsOp aluAdd rd rn rm s)

/-- `SUBS`: as `SUB`, and all four flags from `setFlags` (R108, R92). -/
def execSubs (rd rn rm : Reg) (s : State) : StepOutcome :=
  .next (regRegFlagsOp aluSub rd rn rm s)

/-- `ANDS`: as `AND`, and all four flags from `setFlags` (R109, R92). -/
def execAnds (rd rn rm : Reg) (s : State) : StepOutcome :=
  .next (regRegFlagsOp aluAnd rd rn rm s)

/-- `LSL`: `x[Rd] <- lsl(x[Rn], shamt)` (R110). -/
def execLsl (rd rn : Reg) (shamt : Nat) (s : State) : StepOutcome :=
  .next (writeReg s rd (aluLsl (readReg s rn) (shiftDistance shamt)))

/-- `LSR`: `x[Rd] <- lsr(x[Rn], shamt)` (R111). -/
def execLsr (rd rn : Reg) (shamt : Nat) (s : State) : StepOutcome :=
  .next (writeReg s rd (aluLsr (readReg s rn) (shiftDistance shamt)))

/-- `BR`: jump to the index held in `x[Rd]`, clamped to the safe-integer range (R112). -/
def execBr (rd : Reg) (s : State) : StepOutcome :=
  .next (setPc s (clampIndex (readSigned s rd)))

/-- `CMP`: the flags of `x[Rd] - x[Rn]`; no register is written (R113). -/
def execCmp (rd rn : Reg) (s : State) : StepOutcome :=
  .next (compareOp aluSub (readReg s rd) (readReg s rn) s)

/-- `MOV`: `x[Rd] <- x[Rn]` (R114). -/
def execMov (rd rn : Reg) (s : State) : StepOutcome :=
  .next (writeReg s rd (readReg s rn))

/-- `UDIV`: an unimplemented stub that always raises Unimplemented; no operand is looked at (R115, R199). -/
def execUdiv (_rd _rn _rm : Reg) (s : State) : StepOutcome :=
  .next (raiseUnimplemented s .udiv)

end Sys2Proof.Machine
end

