-- ==== Sys2Proof/Machine/Text.lean ====
section
/-! DEFINITION. Text that the core and the assembler share: white space, decimal numbers (R177) and register
names (R12, R77, R176). -/

namespace Sys2Proof

/-- Space and tab are white space (R178, decision D23, log 8). -/
def isSpace (c : Char) : Bool := c == ' ' || c == '\t'

/-- Text without leading white space. -/
def trimLeft : Text → Text
  | [] => []
  | c :: cs => if isSpace c then trimLeft cs else c :: cs

/-- Text without leading and trailing white space. -/
def trim (t : Text) : Text := (trimLeft (trimLeft t).reverse).reverse

/-- An ASCII letter in upper case; every other character as it is. -/
def upperChar (c : Char) : Char :=
  if 'a'.toNat ≤ c.toNat ∧ c.toNat ≤ 'z'.toNat then Char.ofNat (c.toNat - 32) else c

/-- Text in upper case. -/
def upper (t : Text) : Text := t.map upperChar

/-- The value of a decimal digit. -/
def digitValue (c : Char) : Option Nat :=
  if '0'.toNat ≤ c.toNat ∧ c.toNat ≤ '9'.toNat then some (c.toNat - '0'.toNat) else none

/-- Decimal digits read from the left, onto the value of those before them. -/
def digitsValue (acc : Nat) : Text → Option Nat
  | [] => some acc
  | c :: cs =>
    match digitValue c with
    | some d => digitsValue (10 * acc + d) cs
    | none => none

/-- One or more decimal digits. -/
def parseNat : Text → Option Nat
  | [] => none
  | c :: cs => digitsValue 0 (c :: cs)

/-- A base-10 integer: an optional minus sign and one or more digits (R78; a plus sign is not accepted, log 18). -/
def parseInt : Text → Option Int
  | [] => none
  | c :: cs =>
    if c = '-' then
      match parseNat cs with
      | some n => some (-(n : Int))
      | none => none
    else
      match parseNat (c :: cs) with
      | some n => some (n : Int)
      | none => none

/-- The character of a digit 0 .. 9. -/
def digitChar (d : Nat) : Char := Char.ofNat ('0'.toNat + d)

/-- The decimal digits of `n`, in front of `acc`; `fuel` bounds their number. -/
def decDigits : Nat → Nat → Text → Text
  | 0, n, acc => digitChar (n % 10) :: acc
  | fuel + 1, n, acc =>
    if n < 10 then digitChar n :: acc else decDigits fuel (n / 10) (digitChar (n % 10) :: acc)

/-- `dec(n)` of a natural number: base 10, no leading zeros (R177). A number has at most as many digits as its
value and one more. -/
def decNat (n : Nat) : Text := decDigits n n []

/-- `dec(n)` of R177: a leading minus sign for a negative number. -/
def dec (n : Int) : Text := if n < 0 then '-' :: decNat n.natAbs else decNat n.natAbs

/-- `parseReg` of R176, the assembler's `parseRegister` (R77): the aliases, or `X` and a decimal index below 32,
in any letter case. -/
def parseReg (t : Text) : Option Reg :=
  let u := upper t
  if u = "XZR".toList then some 31
  else if u = "LR".toList then some 30
  else if u = "FP".toList then some 29
  else if u = "SP".toList then some 28
  else if u = "IP0".toList then some 16
  else if u = "IP1".toList then some 17
  else
    match u with
    | [] => none
    | c :: cs =>
      if c = 'X' then
        match parseNat cs with
        | some n => if h : n < 32 then some ⟨n, h⟩ else none
        | none => none
      else none

/-- The primary name of a register (R12). -/
def regName (r : Reg) : Text := 'X' :: decNat r.val

/-- The alias of a register, where it has one (R12). -/
def regAlias (r : Reg) : Option Text :=
  match r.val with
  | 16 => some "IP0".toList
  | 17 => some "IP1".toList
  | 28 => some "SP".toList
  | 29 => some "FP".toList
  | 30 => some "LR".toList
  | 31 => some "XZR".toList
  | _ => none

end Sys2Proof
end

