-- ==== Sys2Proof/Machine/ZFormat.lean ====
section
/-! DEFINITION. The meanings of the Z-format instructions (`47_z_format.md`). -/

namespace Sys2Proof.Machine

/-! ## The payload of `PRNT` (R178) -/

/-- The opening bracket of a register item. The character is given by its code: a brace in a literal is not
allowed in this text. -/
def openBrace : Char := Char.ofNat 123
/-- The closing bracket of a register item. -/
def closeBrace : Char := Char.ofNat 125
/-- The opening bracket of a memory item. -/
def openSquare : Char := '['
/-- The closing bracket of a memory item. -/
def closeSquare : Char := ']'

/-- The closing bracket that matches an opening one. -/
def closingOf (o : Char) : Char := if o = openBrace then closeBrace else closeSquare

/-- The pieces that the scan of R178 cuts a payload into. -/
inductive Piece where
  /-- A character outside every item, copied verbatim. -/
  | plain (c : Char)
  /-- An item: its opening bracket, the text after it up to the closing bracket or the end of the payload, and
  whether the closing bracket is there. -/
  | item (opening : Char) (body : Text) (closed : Bool)
  deriving DecidableEq, Repr

/-- The scan of R178. `inside` holds the opening bracket and the text read so far while the scan is in an item. -/
def scanPayload (inside : Option (Char × Text)) : Text → List Piece
  | [] =>
    match inside with
    | none => []
    | some (o, body) => [.item o body false]
  | c :: cs =>
    match inside with
    | none =>
      if c = openBrace ∨ c = openSquare then scanPayload (some (c, [])) cs
      else .plain c :: scanPayload none cs
    | some (o, body) =>
      if c = closingOf o then .item o body true :: scanPayload none cs
      else scanPayload (some (o, body ++ [c])) cs

/-- The text of a payload, or the address that is out of range. -/
inductive PrintText where
  | text (t : Text)
  | badAddress (ea : Int)
  deriving DecidableEq, Repr

/-- The text that one piece contributes (R178): a register's decimal value, the decimal value of the byte at the
address in a register, or the raw text where the name is no register. -/
def pieceText (s : State) : Piece → PrintText
  | .plain c => .text [c]
  | .item o body closed =>
    match parseReg (trim body) with
    | none => .text (o :: body ++ if closed then [closingOf o] else [])
    | some r =>
      if o = openBrace then .text (dec (readSigned s r))
      else
        match memRead s (readSigned s r) 1 with
        | some v => .text (dec v)
        | none => .badAddress (readSigned s r)

/-- The pieces left to right: the first address out of range decides (R199). -/
def piecesText (s : State) : List Piece → PrintText
  | [] => .text []
  | p :: ps =>
    match pieceText s p with
    | .badAddress ea => .badAddress ea
    | .text t =>
      match piecesText s ps with
      | .badAddress ea => .badAddress ea
      | .text u => .text (t ++ u)

/-- The text that a payload scans to (R178). -/
def scanText (s : State) (p : Text) : PrintText := piecesText s (scanPayload none p)

/-- The register that a payload names as a whole: it has no white space and is a register name (R178). -/
def wholeRegister (p : Text) : Option Reg := if p.any isSpace then none else parseReg p

/-- What `PRNT` prints for a payload (R178). -/
def printText (s : State) (p : Text) : PrintText :=
  match wholeRegister p with
  | some r => .text (dec (readSigned s r))
  | none => scanText s p

/-! ## The four instructions -/

/-- The `Dump` event: all 32 registers, register 31 shown as 0, and all of memory (R21, R181). -/
def dumpEvent (s : State) : Event := .dump (s.regs.push 0) s.memSize s.mem

/-- `PRNT`: one Print event for the payload; a memory item out of range raises AddressOutOfRange before anything is
emitted (R178). -/
def execPrnt (s : State) : StepOutcome :=
  match printText s (currentPayload s) with
  | .text t => .next (emit s (.print t))
  | .badAddress ea => .next (raiseFailure s .addressOutOfRange ea (some .prnt))

/-- `PRNL`: one BlankLine event (R180). -/
def execPrnl (s : State) : StepOutcome :=
  .next (emit s .blankLine)

/-- `HALT`: a Dump event, then the run is over (R181). -/
def execHalt (s : State) : StepOutcome :=
  .next (setRun (emit s (dumpEvent s)) .ended)

/-- `DUMP`: the same as `HALT` in every effect (R182). -/
def execDump (s : State) : StepOutcome :=
  .next (setRun (emit s (dumpEvent s)) .ended)

end Sys2Proof.Machine
end

