-- ==== Sys2Proof/Machine/Dispatch.lean ====
section
/-! DEFINITION. The dispatch (R64, R186): one arm per constructor of `Instr`. -/

namespace Sys2Proof.Machine

def exec (i : Instr) (s : State) : Host.Outcome State Fault Refusal :=
  match i with
  | .add rd rn rm => Sys2Proof.Machine.execAdd rd rn rm s
  | .sub rd rn rm => Sys2Proof.Machine.execSub rd rn rm s
  | .and rd rn rm => Sys2Proof.Machine.execAnd rd rn rm s
  | .orr rd rn rm => Sys2Proof.Machine.execOrr rd rn rm s
  | .eor rd rn rm => Sys2Proof.Machine.execEor rd rn rm s
  | .mul rd rn rm => Sys2Proof.Machine.execMul rd rn rm s
  | .sdiv rd rn rm => Sys2Proof.Machine.execSdiv rd rn rm s
  | .adds rd rn rm => Sys2Proof.Machine.execAdds rd rn rm s
  | .subs rd rn rm => Sys2Proof.Machine.execSubs rd rn rm s
  | .ands rd rn rm => Sys2Proof.Machine.execAnds rd rn rm s
  | .lsl rd rn shamt => Sys2Proof.Machine.execLsl rd rn shamt s
  | .lsr rd rn shamt => Sys2Proof.Machine.execLsr rd rn shamt s
  | .br rd => Sys2Proof.Machine.execBr rd s
  | .cmp rd rn => Sys2Proof.Machine.execCmp rd rn s
  | .mov rd rn => Sys2Proof.Machine.execMov rd rn s
  | .udiv rd rn rm => Sys2Proof.Machine.execUdiv rd rn rm s
  | .addi rd rn imm12 => Sys2Proof.Machine.execAddi rd rn imm12 s
  | .subi rd rn imm12 => Sys2Proof.Machine.execSubi rd rn imm12 s
  | .andi rd rn imm12 => Sys2Proof.Machine.execAndi rd rn imm12 s
  | .orri rd rn imm12 => Sys2Proof.Machine.execOrri rd rn imm12 s
  | .eori rd rn imm12 => Sys2Proof.Machine.execEori rd rn imm12 s
  | .addis rd rn imm12 => Sys2Proof.Machine.execAddis rd rn imm12 s
  | .subis rd rn imm12 => Sys2Proof.Machine.execSubis rd rn imm12 s
  | .andis rd rn imm12 => Sys2Proof.Machine.execAndis rd rn imm12 s
  | .cmpi rn imm12 => Sys2Proof.Machine.execCmpi rn imm12 s
  | .movz rd imm16 => Sys2Proof.Machine.execMovz rd imm16 s
  | .movk rd imm16 => Sys2Proof.Machine.execMovk rd imm16 s
  | .ldur rt rn dt => Sys2Proof.Machine.execLdur rt rn dt s
  | .ldurb rt rn dt => Sys2Proof.Machine.execLdurb rt rn dt s
  | .ldurh rt rn dt => Sys2Proof.Machine.execLdurh rt rn dt s
  | .ldursw rt rn dt => Sys2Proof.Machine.execLdursw rt rn dt s
  | .stur rt rn dt => Sys2Proof.Machine.execStur rt rn dt s
  | .sturb rt rn dt => Sys2Proof.Machine.execSturb rt rn dt s
  | .sturh rt rn dt => Sys2Proof.Machine.execSturh rt rn dt s
  | .sturw rt rn dt => Sys2Proof.Machine.execSturw rt rn dt s
  | .lda rt rn dt => Sys2Proof.Machine.execLda rt rn dt s
  | .ldxr rt rn dt => Sys2Proof.Machine.execLdxr rt rn dt s
  | .stxr rt rn dt => Sys2Proof.Machine.execStxr rt rn dt s
  | .b addr26 => Sys2Proof.Machine.execB addr26 s
  | .bl addr26 => Sys2Proof.Machine.execBl addr26 s
  | .cbz rt addr19 => Sys2Proof.Machine.execCbz rt addr19 s
  | .cbnz rt addr19 => Sys2Proof.Machine.execCbnz rt addr19 s
  | .bEQ addr19 => Sys2Proof.Machine.execBEQ addr19 s
  | .bNE addr19 => Sys2Proof.Machine.execBNE addr19 s
  | .bLT addr19 => Sys2Proof.Machine.execBLT addr19 s
  | .bLO addr19 => Sys2Proof.Machine.execBLO addr19 s
  | .bLE addr19 => Sys2Proof.Machine.execBLE addr19 s
  | .bLS addr19 => Sys2Proof.Machine.execBLS addr19 s
  | .bGT addr19 => Sys2Proof.Machine.execBGT addr19 s
  | .bHI addr19 => Sys2Proof.Machine.execBHI addr19 s
  | .bGE addr19 => Sys2Proof.Machine.execBGE addr19 s
  | .bHS addr19 => Sys2Proof.Machine.execBHS addr19 s
  | .bPL addr19 => Sys2Proof.Machine.execBPL addr19 s
  | .bMI addr19 => Sys2Proof.Machine.execBMI addr19 s
  | .prnt => Sys2Proof.Machine.execPrnt s
  | .prnl => Sys2Proof.Machine.execPrnl s
  | .halt => Sys2Proof.Machine.execHalt s
  | .dump => Sys2Proof.Machine.execDump s

end Sys2Proof.Machine
end

