-- ==== Sys2Proof/Machine/Step.lean ====
section
/-! DEFINITION. The fetch-execute step (R185 to R187), and an instruction placed where the step fetches. -/

namespace Sys2Proof.Machine

/-- One step. Not running: nothing (R185). `pc` out of range: the run ends and nothing else changes (R187). Otherwise
the trace push and the pc advance, then the instruction that the word decodes to with the machine's OPTAB, or the failure of an
illegal word (R64, R186). -/
def step (s : State) : Host.Outcome State Fault Refusal :=
  if s.run ≠ .running then .next s
  else
    match progEntry s s.pc with
    | none => .next (setRun s .ended)
    | some e =>
      match decode e.word s.optab with
      | .instr i => exec i (beginStep s)
      | .invalid => .next (raiseInvalidEncoding (beginStep s))

/-- A program with a word at index `k`: shorter programs are filled up, and the entry keeps the payload and line it
had. -/
def placeWord (prog : List ProgEntry) (k : Nat) (w : InstrWord) : List ProgEntry :=
  let old : ProgEntry := match prog[k]? with
    | some e => e
    | none => ⟨0, [], 0⟩
  prog.take k ++ List.replicate (k - prog.length) ⟨0, [], 0⟩ ++ [⟨w, old.payload, old.line⟩] ++ prog.drop (k + 1)

/-- The machine with an instruction stored where the next step fetches: the program store holds the word at `pc`
(at index 0, with `pc` there, where `pc` is negative) and the machine is Running. It stands for the host's load and
start (R207, log 2). -/
def State.withFetchWord (s : State) (nbits w : Nat) : State :=
  { s with
    prog := placeWord s.prog s.pc.toNat (BitVec.ofNat 32 (w % 2 ^ nbits))
    pc := (s.pc.toNat : Int)
    run := .running }

end Sys2Proof.Machine
end

