-- ==== Sys2Proof/Machine/Assembler.lean ====
section
/-! DEFINITION. The assembler that builds a program from source text (R75 to R84). It is outside the core; its
result is PROG. A program with an assembly error has no meaning in the spec and gives its errors here (R84). -/

namespace Sys2Proof.Machine

/-! ## The text form of each mnemonic (R80) -/

/-- The operand forms of R80. -/
inductive OperandForm where
  /-- `M Xd, Xn, Xm` -/
  | threeReg
  /-- `M Xd, Xn, #shamt` -/
  | shift
  /-- `BR Xd` -/
  | oneReg
  /-- `M Xd, Xn` -/
  | twoReg
  /-- `M Xd, Xn, #imm` -/
  | regImm
  /-- `CMPI Xn, #imm` -/
  | compareImm
  /-- `M Xd, #imm` -/
  | move
  /-- `M Xt, [Xn, #dt]` -/
  | memory
  /-- `M label` -/
  | jump
  /-- `M Xt, label` -/
  | regJump
  /-- `B.cc label` -/
  | condJump (c : Cond)
  /-- `M payload`, or nothing -/
  | payload
  deriving DecidableEq, Repr

/-- The form of each mnemonic (R80). -/
def formOf : Mnemonic → OperandForm
  | .add | .sub | .and | .orr | .eor | .mul | .sdiv | .udiv | .adds | .subs | .ands => .threeReg
  | .lsl | .lsr => .shift
  | .br => .oneReg
  | .cmp | .mov => .twoReg
  | .addi | .subi | .andi | .orri | .eori | .addis | .subis | .andis => .regImm
  | .cmpi => .compareImm
  | .movz | .movk => .move
  | .ldur | .ldurb | .ldurh | .ldursw | .stur | .sturb | .sturh | .sturw | .lda | .ldxr | .stxr => .memory
  | .b | .bl => .jump
  | .cbz | .cbnz => .regJump
  | .bEQ => .condJump .eq
  | .bNE => .condJump .ne
  | .bLT => .condJump .lt
  | .bLO => .condJump .lo
  | .bLE => .condJump .le
  | .bLS => .condJump .ls
  | .bGT => .condJump .gt
  | .bHI => .condJump .hi
  | .bGE => .condJump .ge
  | .bHS => .condJump .hs
  | .bPL => .condJump .pl
  | .bMI => .condJump .mi
  | .prnt | .prnl | .halt | .dump => .payload

/-- The spelling of each mnemonic (R62). -/
def spelling : Mnemonic → Text
  | .add => "ADD".toList
  | .sub => "SUB".toList
  | .and => "AND".toList
  | .orr => "ORR".toList
  | .eor => "EOR".toList
  | .mul => "MUL".toList
  | .sdiv => "SDIV".toList
  | .adds => "ADDS".toList
  | .subs => "SUBS".toList
  | .ands => "ANDS".toList
  | .lsl => "LSL".toList
  | .lsr => "LSR".toList
  | .br => "BR".toList
  | .cmp => "CMP".toList
  | .mov => "MOV".toList
  | .udiv => "UDIV".toList
  | .addi => "ADDI".toList
  | .subi => "SUBI".toList
  | .andi => "ANDI".toList
  | .orri => "ORRI".toList
  | .eori => "EORI".toList
  | .addis => "ADDIS".toList
  | .subis => "SUBIS".toList
  | .andis => "ANDIS".toList
  | .cmpi => "CMPI".toList
  | .movz => "MOVZ".toList
  | .movk => "MOVK".toList
  | .ldur => "LDUR".toList
  | .ldurb => "LDURB".toList
  | .ldurh => "LDURH".toList
  | .ldursw => "LDURSW".toList
  | .stur => "STUR".toList
  | .sturb => "STURB".toList
  | .sturh => "STURH".toList
  | .sturw => "STURW".toList
  | .lda => "LDA".toList
  | .ldxr => "LDXR".toList
  | .stxr => "STXR".toList
  | .b => "B".toList
  | .bl => "BL".toList
  | .cbz => "CBZ".toList
  | .cbnz => "CBNZ".toList
  | .bEQ => "B.EQ".toList
  | .bNE => "B.NE".toList
  | .bLT => "B.LT".toList
  | .bLO => "B.LO".toList
  | .bLE => "B.LE".toList
  | .bLS => "B.LS".toList
  | .bGT => "B.GT".toList
  | .bHI => "B.HI".toList
  | .bGE => "B.GE".toList
  | .bHS => "B.HS".toList
  | .bPL => "B.PL".toList
  | .bMI => "B.MI".toList
  | .prnt => "PRNT".toList
  | .prnl => "PRNL".toList
  | .halt => "HALT".toList
  | .dump => "DUMP".toList

/-- The mnemonic that a word of source text names, in any letter case: one of the opcode map (R62, R80). -/
def parseMnemonic (t : Text) (tab : List OpRow := optab) : Option Mnemonic :=
  (tab.map OpRow.mn).find? (fun m => spelling m == upper t)

/-! ## Operands (R77 to R81) -/

/-- The kinds of operand. -/
inductive OperandKind where
  | reg | imm | label
  deriving DecidableEq, Repr

/-- What a text form is made of: operands and literal separators (R81). -/
inductive FormPart where
  | operand (k : OperandKind)
  | sep (c : Char)
  deriving DecidableEq, Repr

/-- The parts of a form, left to right (R80). -/
def formParts : OperandForm → List FormPart
  | .threeReg => [.operand .reg, .sep ',', .operand .reg, .sep ',', .operand .reg]
  | .shift => [.operand .reg, .sep ',', .operand .reg, .sep ',', .operand .imm]
  | .oneReg => [.operand .reg]
  | .twoReg => [.operand .reg, .sep ',', .operand .reg]
  | .regImm => [.operand .reg, .sep ',', .operand .reg, .sep ',', .operand .imm]
  | .compareImm => [.operand .reg, .sep ',', .operand .imm]
  | .move => [.operand .reg, .sep ',', .operand .imm]
  | .memory => [.operand .reg, .sep ',', .sep '[', .operand .reg, .sep ',', .operand .imm, .sep ']']
  | .jump => [.operand .label]
  | .regJump => [.operand .reg, .sep ',', .operand .label]
  | .condJump _ => [.operand .label]
  | .payload => []

/-- Text cut at the first occurrence of a character, which is dropped. -/
def splitAt (c : Char) : Text → Option (Text × Text)
  | [] => none
  | d :: ds => if d = c then some ([], ds) else (splitAt c ds).map (fun p => (d :: p.1, p.2))

/-- The operand texts of a line, cut at the separators left to right, each trimmed (R81). A separator that does not
follow an operand stands after white space only, and only white space stands after the last part (log 16). -/
def operandTexts : List FormPart → Text → Option (List (OperandKind × Text))
  | [], rest => if trim rest = [] then some [] else none
  | .operand k :: ps, rest =>
    match ps with
    | [] => some [(k, trim rest)]
    | .sep c :: ps' =>
      match splitAt c rest with
      | some (t, rest') => (operandTexts ps' rest').map (fun ts => (k, trim t) :: ts)
      | none => none
    | .operand _ :: _ => none
  | .sep c :: ps, rest =>
    match trimLeft rest with
    | d :: rest' => if d = c then operandTexts ps rest' else none
    | [] => none

/-- `parseImmediate`: an optional `#`, then a base-10 integer (R78). -/
def parseImmediate : Text → Option Int
  | [] => none
  | c :: cs => if c = '#' then parseInt cs else parseInt (c :: cs)

/-- Text without a trailing label marker `:` (R79). -/
def dropMarker (t : Text) : Text := if t.getLast? = some ':' then t.dropLast else t

/-- The indices that a label is bound to, in the order of the text (R76). -/
def labelBindings (labels : List (Text × Nat)) (name : Text) : List Nat :=
  (labels.filter (fun p => p.1 == name)).map Prod.snd

/-- The index that an operand gets from a label (R79). Of a label that is bound more than once the spec does not say
which index: it is a free one of them (log 15). -/
def labelIndex (labels : List (Text × Nat)) (name : Text) : Option Nat :=
  match labelBindings labels name with
  | [] => none
  | [k] => some k
  | k :: l :: ks => (k :: l :: ks)[Config.repeatedLabel (k :: l :: ks) % (ks.length + 2)]?

/-- The three kinds of assembly error (R82). -/
inductive AsmErrorKind where
  | unrecognizedMnemonic
  | malformedOperands
  | unresolvedLabel
  deriving DecidableEq, Repr

/-- An error report: line number, kind, offending text (R82, R211; which text, log 24). -/
structure AsmError where
  line : Nat
  kind : AsmErrorKind
  text : Text
  deriving DecidableEq, Repr

/-- An operand's value, or why it does not parse (R77 to R79). -/
def parseOperand (labels : List (Text × Nat)) (k : OperandKind) (t : Text) : Except AsmErrorKind Int :=
  match k with
  | .reg =>
    match parseReg t with
    | some r => .ok (regValue r)
    | none => .error .malformedOperands
  | .imm =>
    match parseImmediate t with
    | some v => .ok v
    | none => .error .malformedOperands
  | .label =>
    match labelIndex labels (dropMarker t) with
    | some k => .ok (k : Int)
    | none => .error .unresolvedLabel

/-- The operand values of a line, left to right. -/
def parseOperands (labels : List (Text × Nat)) : List (OperandKind × Text) → Except AsmErrorKind (List Int)
  | [] => .ok []
  | (k, t) :: ts =>
    match parseOperand labels k t with
    | .error e => .error e
    | .ok v =>
      match parseOperands labels ts with
      | .error e => .error e
      | .ok vs => .ok (v :: vs)

/-- The word of a mnemonic and its operand values in text order (R68, R80). -/
def assembleWord (m : Mnemonic) (vals : List Int) (tab : List OpRow := optab) : Option InstrWord :=
  match formOf m, vals with
  | .threeReg, [d, n, k] => some (encodeR m d n k (impliedShamt m tab) tab)
  | .shift, [d, n, sh] => some (encodeR m d n 0 sh tab)
  | .oneReg, [d] => some (encodeR m d 0 0 0 tab)
  | .twoReg, [d, n] => some (encodeR m d n 0 0 tab)
  | .regImm, [d, n, v] => some (encodeI m d n v tab)
  | .compareImm, [n, v] => some (encodeI m 0 n v tab)
  | .move, [d, v] => some (encodeIM m d v tab)
  | .memory, [t, n, dt] => some (encodeD m t n dt tab)
  | .jump, [a] => some (encodeB m a tab)
  | .regJump, [t, a] => some (encodeCB m t a tab)
  | .condJump _, [a] => some (encodeCond m a tab)
  | .payload, [] => some (encodeZ m tab)
  | _, _ => none

/-! ## Lines (R75, R76) -/

/-- Text without the part from the first comment marker `//` on (R75). -/
def stripComment : Text → Text
  | [] => []
  | [c] => [c]
  | c :: d :: cs => if c = '/' ∧ d = '/' then [] else c :: stripComment (d :: cs)

/-- Source text cut at line feeds; a carriage return is dropped (log 17). -/
def sourceLines (cur : Text) : Text → List Text
  | [] => [cur]
  | c :: cs =>
    if c = '\n' then cur :: sourceLines [] cs
    else if c = '\r' then sourceLines cur cs
    else sourceLines (cur ++ [c]) cs

/-- The first white-space-delimited token of a line and the raw rest (R75). -/
def firstToken : Text → Text × Text
  | [] => ([], [])
  | c :: cs => if isSpace c then ([], c :: cs) else (c :: (firstToken cs).1, (firstToken cs).2)

/-- A line that pass 1 takes as an instruction: its number, its first token and its argument string. -/
structure Candidate where
  line : Nat
  token : Text
  args : Text
  deriving DecidableEq, Repr

/-- What pass 1 gathers: the bindings of labels and the candidate lines. -/
structure PassOne where
  labels : List (Text × Nat)
  candidates : List Candidate
  deriving DecidableEq, Repr

/-- One source line of pass 1. A line whose first token ends in `:` binds a label to the count of instructions so far
and gives no instruction (R76); a line that is empty without its comment gives nothing (R75). -/
def passOneLine (n : Nat) (raw : Text) (p : PassOne) : PassOne :=
  let t := firstToken (trim (stripComment raw))
  if t.1 = [] then p
  else if t.1.getLast? = some ':' then
    { p with labels := p.labels ++ [(dropMarker t.1, p.candidates.length)] }
  else { p with candidates := p.candidates ++ [⟨n, t.1, t.2⟩] }

/-- Pass 1 over numbered lines (R76). -/
def passOne (n : Nat) : List Text → PassOne → PassOne
  | [], p => p
  | raw :: ls, p => passOne (n + 1) ls (passOneLine n raw p)

/-- One candidate of pass 2 (R80 to R82). The raw argument string of a Z-format line, trimmed, is its payload.
DESIGN CHOICE, safe: R211 does not say what the offending text of an error is; the model reports the first token for an
unrecognized mnemonic and the raw argument string for the other two kinds, and one error for a line (log 24). -/
def assembleLine (labels : List (Text × Nat)) (c : Candidate) (tab : List OpRow := optab) :
    Except AsmError ProgEntry :=
  match parseMnemonic c.token tab with
  | none => .error ⟨c.line, .unrecognizedMnemonic, c.token⟩
  | some m =>
    if formOf m = .payload then .ok ⟨encodeZ m tab, trim c.args, c.line⟩
    else
      match operandTexts (formParts (formOf m)) c.args with
      | none => .error ⟨c.line, .malformedOperands, c.args⟩
      | some ts =>
        match parseOperands labels ts with
        | .error k => .error ⟨c.line, k, c.args⟩
        | .ok vs =>
          match assembleWord m vs tab with
          | none => .error ⟨c.line, .malformedOperands, c.args⟩
          | some w => .ok ⟨w, [], c.line⟩

/-- Pass 2: the entries of the lines that assemble and the errors of those that do not (R82). -/
def passTwo (labels : List (Text × Nat)) (tab : List OpRow) : List Candidate → List ProgEntry × List AsmError
  | [] => ([], [])
  | c :: cs =>
    match assembleLine labels c tab with
    | .ok e => (e :: (passTwo labels tab cs).1, (passTwo labels tab cs).2)
    | .error r => ((passTwo labels tab cs).1, r :: (passTwo labels tab cs).2)

/-- A program: its entries and the bindings of its labels; the line map is in the entries (R9). -/
structure Program where
  entries : List ProgEntry
  labels : List (Text × Nat)
  deriving DecidableEq, Repr

/-- What the assembler gives: a program, or the errors of a text that does not assemble (R82, R84). -/
inductive AsmResult where
  | program (p : Program)
  | errors (es : List AsmError)
  deriving DecidableEq, Repr

/-- The assembler, for an opcode map. Lines are numbered from 1 (log 17). -/
def assemble (src : Text) (tab : List OpRow := optab) : AsmResult :=
  let p := passOne 1 (sourceLines [] src) ⟨[], []⟩
  let q := passTwo p.labels tab p.candidates
  match q.2 with
  | [] => .program ⟨q.1, p.labels⟩
  | e :: es => .errors (e :: es)

/-- The line map: the index of the instruction of a source line, or -1 for a line with none (R210). -/
def lineIndex (entries : List ProgEntry) (line : Nat) : Int :=
  match entries.findIdx? (fun e => e.line == line) with
  | some k => (k : Int)
  | none => -1

end Sys2Proof.Machine
end

