-- ==== Sys2Proof/Machine/Formatter.lean ====
section
/-! DEFINITION. The operand formatter: the text of a word (R85, R86). -/

namespace Sys2Proof.Machine

/-- A hexadecimal digit, upper case (log 19). -/
def hexChar (d : Nat) : Char := if d < 10 then Char.ofNat ('0'.toNat + d) else Char.ofNat ('A'.toNat + (d - 10))

/-- `n` as `k` hexadecimal digits. -/
def hexDigits (n : Nat) : Nat → Text
  | 0 => []
  | k + 1 => hexDigits (n / 16) k ++ [hexChar (n % 16)]

/-- A register operand: `X` and the number in decimal (R86). -/
def showReg (r : Reg) : Text := regName r

/-- An immediate operand: `#` and the value in decimal (R86). -/
def showImm (v : Nat) : Text := '#' :: decNat v

/-- What stands between two operands of a form. -/
def commaSpace : Text := [',', ' ']

/-- The operands of a form, rendered from the fields of the word (R80, R86). -/
def showOperands (form : OperandForm) (w : InstrWord) : Text :=
  match form with
  | .threeReg =>
    showReg (fieldRd w) ++ commaSpace ++ showReg (fieldRn w) ++ commaSpace ++ showReg (fieldRm w)
  | .shift => showReg (fieldRd w) ++ commaSpace ++ showReg (fieldRn w) ++ commaSpace ++ showImm (fieldShamt w)
  | .oneReg => showReg (fieldRd w)
  | .twoReg => showReg (fieldRd w) ++ commaSpace ++ showReg (fieldRn w)
  | .regImm => showReg (fieldRd w) ++ commaSpace ++ showReg (fieldRn w) ++ commaSpace ++ showImm (fieldImm12 w)
  | .compareImm => showReg (fieldRn w) ++ commaSpace ++ showImm (fieldImm12 w)
  | .move => showReg (fieldRd w) ++ commaSpace ++ showImm (fieldImm16 w)
  | .memory =>
    showReg (fieldRd w) ++ commaSpace ++ ['['] ++ showReg (fieldRn w) ++ commaSpace ++ showImm (fieldDt w) ++ [']']
  | .jump => decNat (fieldAddr26 w)
  | .regJump => showReg (fieldRd w) ++ commaSpace ++ decNat (fieldAddr19 w)
  | .condJump _ => decNat (fieldAddr19 w)
  | .payload => []

/-- The text of a word, with the payload of its entry for `PRNT` (R86). A word that decodes to Invalid is
`.word 0x` and eight hexadecimal digits. -/
def render (w : InstrWord) (payload : Text) (tab : List OpRow := optab) : Text :=
  match lookup w tab with
  | none => ".word 0x".toList ++ hexDigits w.toNat 8
  | some r =>
    match formOf r.mn with
    | .payload => if r.mn = .prnt then spelling r.mn ++ ' ' :: payload else spelling r.mn
    | form => spelling r.mn ++ ' ' :: showOperands form w

end Sys2Proof.Machine
end

