-- ==== Sys2Proof/Machine/DebugHost.lean ====
section
/-! DEFINITION. What the debug host may do to the core between steps, and what it may see (R206 to R209). The host's
own state (breakpoints, return-index stack) is out of scope (R4, R210). -/

namespace Sys2Proof.Machine

/-! ## Control (R207) -/

/-- What a load answers. -/
inductive LoadResult where
  | loaded (s : State)
  | rejected (es : List AsmError)
  deriving DecidableEq, Repr

/-- `load`: the assembler builds PROG, or its errors are reported and the machine is untouched (R207, R211). The
program of a running machine is not replaced (R209, log 11). -/
def hostLoad (src : Text) (s : State) : LoadResult :=
  match assemble src s.optab with
  | .errors es => .rejected es
  | .program p => if s.run = .running then .loaded s else .loaded { s with prog := p.entries }

/-- `start`: nothing on a running machine; otherwise reset, then Running (R207, R216). -/
def hostStart (s : State) : State :=
  if s.run = .running then s else setRun (State.resetWith s.memSize s.memInit s.prog s.optab) .running

/-- `stop` and `quit`: the run is abandoned and `run` becomes Ended, with no condition (R207, D28, log 10). -/
def hostStop (s : State) : State := setRun s .ended

/-- `pause`: the core state is unchanged (R207). -/
def hostPause (s : State) : State := s

/-- `continue`, `step`, `stepIn`, `stepOut`: `k` core steps, one after another (R207). -/
def hostSteps (k : Nat) (s : State) : Host.Outcome State Fault Refusal :=
  match k with
  | 0 => .next s
  | k + 1 =>
    match step s with
    | .next s' => hostSteps k s'
    | .fault r => .fault r
    | .refused r => .refused r

/-! ## Introspection (R208) -/

/-- A line of the register list: the name by index, the alias where there is one, the value. -/
structure RegisterView where
  name : Text
  aliasName : Option Text
  value : Word
  deriving DecidableEq, Repr

/-- The register list: 32 entries; register 31 reads 0 (R208). -/
def hostRegisters (s : State) : List RegisterView :=
  (List.finRange 32).map (fun r => ⟨regName r, regAlias r, readReg s r⟩)

/-- A byte of memory (R208). DESIGN CHOICE, safe: neither R45 nor R208 says what the host gets for an address
outside `0 .. MEM_SIZE-1`; the model answers nothing there, `none` (log 22). -/
def hostByte (s : State) (a : Int) : Option Byte :=
  if admitted s a 1 then some (readByte s a.toNat) else none

/-- The current execution index: the last element of the trace (R20); nothing before the first instruction
(log 23). -/
def hostCurrentIndex (s : State) : Option Int := s.trace.getLast?

/-- The host's current line (R208). DESIGN CHOICE, safe: R208 does not say whether that is the line of the last
instruction executed or of the next one; the model takes the line of `PROG[pc]`, which the next step executes, and
nothing where `pc` is outside the program (log 23). -/
def hostCurrentLine (s : State) : Option Nat := (progEntry s s.pc).map ProgEntry.line

/-- An entry of a disassembly. -/
inductive Listing where
  /-- An instruction, with its rendering and its source line. -/
  | line (text : Text) (source : Nat)
  /-- The filler entry outside the program (R87). -/
  | filler
  deriving DecidableEq, Repr

/-- The disassembly of `n` instructions from an index on (R85, R87, R208). -/
def hostDisassembly (s : State) (start : Int) (n : Nat) : List Listing :=
  (List.range n).map (fun k =>
    match progEntry s (start + (k : Int)) with
    | some e => .line (render e.word e.payload s.optab) e.line
    | none => .filler)

end Sys2Proof.Machine
end

