-- ==== Sys2Proof/Safety.lean ====
section
/-! DEFINITION. The terms that statements about the machine use: what an instruction leaves alone, what a taken
failure is, the invariant of the machine, and which instructions may do what. -/

namespace Sys2Proof

/-! ## Which instructions may do what -/

/-- The register an instruction may write (R13): its `Rd` or `Rt` where it has a result, the link register for
`BL`. -/
def Instr.destination : Instr → Option Reg
  | .add d _ _ | .sub d _ _ | .and d _ _ | .orr d _ _ | .eor d _ _ | .mul d _ _ | .sdiv d _ _ => some d
  | .adds d _ _ | .subs d _ _ | .ands d _ _ | .lsl d _ _ | .lsr d _ _ | .mov d _ => some d
  | .addi d _ _ | .subi d _ _ | .andi d _ _ | .orri d _ _ | .eori d _ _ => some d
  | .addis d _ _ | .subis d _ _ | .andis d _ _ | .movz d _ | .movk d _ => some d
  | .ldur t _ _ | .ldurb t _ _ | .ldurh t _ _ | .ldursw t _ _ => some t
  | .bl _ => some Machine.linkReg
  | .br _ | .cmp _ _ | .udiv _ _ _ | .cmpi _ _ => none
  | .stur _ _ _ | .sturb _ _ _ | .sturh _ _ _ | .sturw _ _ _ | .lda _ _ _ | .ldxr _ _ _ | .stxr _ _ _ => none
  | .b _ | .cbz _ _ | .cbnz _ _ | .bEQ _ | .bNE _ | .bLT _ | .bLO _ | .bLE _ | .bLS _ => none
  | .bGT _ | .bHI _ | .bGE _ | .bHS _ | .bPL _ | .bMI _ | .prnt | .prnl | .halt | .dump => none

/-- The eight flag writers (R16). -/
def flagWriters : List Mnemonic := [.adds, .subs, .ands, .cmp, .addis, .subis, .andis, .cmpi]

/-- The instructions that may overwrite `pc` (R15). -/
def branches : List Mnemonic :=
  [.b, .bl, .br, .cbz, .cbnz, .bEQ, .bNE, .bLT, .bLO, .bLE, .bLS, .bGT, .bHI, .bGE, .bHS, .bPL, .bMI]

/-- The four stores (R37). -/
def storeMnemonics : List Mnemonic := [.stur, .sturb, .sturh, .sturw]

/-- The instructions that can raise an ExecutionFailure (R197). -/
def failingMnemonics : List Mnemonic :=
  [.udiv, .lda, .ldxr, .stxr, .sdiv, .ldur, .ldurb, .ldurh, .ldursw, .stur, .sturb, .sturh, .sturw, .prnt]

/-- The bit ranges `(lo, hi)` of a word that its instruction ignores (R65). -/
def ignoredRanges : Mnemonic → List (Nat × Nat)
  | .lsl | .lsr => [(16, 20)]
  | .br => [(16, 20), (10, 15), (5, 9)]
  | .cmp | .mov => [(16, 20), (10, 15)]
  | .add | .sub | .and | .orr | .eor | .mul | .adds | .subs | .ands => [(10, 15)]
  | .sdiv | .udiv => []
  | .cmpi => [(0, 4)]
  | .addi | .subi | .andi | .orri | .eori | .addis | .subis | .andis => []
  | .movz | .movk => [(21, 22)]
  | .ldur | .ldurb | .ldurh | .ldursw | .stur | .sturb | .sturh | .sturw | .lda | .ldxr | .stxr => [(10, 11)]
  | .b | .bl | .cbz | .cbnz => []
  | .bEQ | .bNE | .bLT | .bLO | .bLE | .bLS | .bGT | .bHI | .bGE | .bHS | .bPL | .bMI => []
  | .prnt | .prnl | .halt | .dump => [(0, 20)]

end Sys2Proof

namespace Sys2Proof.Machine

/-! ## What a step leaves alone -/

/-- Every register reads as before. -/
def SameRegs (s t : State) : Prop := ∀ r, readReg t r = readReg s r

/-- Every register but `rd` reads as before. -/
def SameRegsBut (rd : Reg) (s t : State) : Prop := ∀ r, r ≠ rd → readReg t r = readReg s r

/-- Every byte of memory reads as before. -/
def SameMemory (s t : State) : Prop := ∀ a, readByte t a = readByte s a

/-- The configuration is as before (R10, R19). -/
def SameConfig (s t : State) : Prop :=
  t.prog = s.prog ∧ t.memSize = s.memSize ∧ t.memInit = s.memInit ∧ t.optab = s.optab

/-- Run latch, trace, output sink, fault latch and configuration are as before. -/
def SameControl (s t : State) : Prop :=
  t.run = s.run ∧ t.trace = s.trace ∧ t.out = s.out ∧ t.fault = s.fault ∧ SameConfig s t

/-- `x[rd] <- v` and nothing else: register 31 discards it (R11). -/
def WritesOnly (rd : Reg) (v : Word) (s t : State) : Prop :=
  readReg t rd = (if rd = 31 then 0 else v) ∧ SameRegsBut rd s t ∧ t.flags = s.flags ∧ t.pc = s.pc ∧
    SameMemory s t ∧ SameControl s t

/-- `x[rd] <- v` and the four flags, and nothing else. -/
def WritesOnlyWithFlags (rd : Reg) (v : Word) (f : Flags) (s t : State) : Prop :=
  readReg t rd = (if rd = 31 then 0 else v) ∧ SameRegsBut rd s t ∧ t.flags = f ∧ t.pc = s.pc ∧
    SameMemory s t ∧ SameControl s t

/-- The four flags and nothing else. -/
def WritesOnlyFlags (f : Flags) (s t : State) : Prop :=
  SameRegs s t ∧ t.flags = f ∧ t.pc = s.pc ∧ SameMemory s t ∧ SameControl s t

/-- The program counter and nothing else. -/
def WritesOnlyPc (target : Int) (s t : State) : Prop :=
  SameRegs s t ∧ t.flags = s.flags ∧ t.pc = target ∧ SameMemory s t ∧ SameControl s t

/-- One event at the end of the output sink and nothing else. -/
def EmitsOnly (e : Event) (s t : State) : Prop :=
  SameRegs s t ∧ t.flags = s.flags ∧ t.pc = s.pc ∧ SameMemory s t ∧ t.run = s.run ∧ t.trace = s.trace ∧
    t.out = s.out ++ [e] ∧ t.fault = s.fault ∧ SameConfig s t

/-- The bytes of `v` at `a` up, `n` of them, little-endian, and nothing else (R36). -/
def StoresOnly (a : Int) (n : Nat) (v : Word) (s t : State) : Prop :=
  (∀ k, k < n → readByte t (a.toNat + k) = byteOf v k) ∧
    (∀ x : Nat, ¬ (a ≤ (x : Int) ∧ (x : Int) < a + (n : Int)) → readByte t x = readByte s x) ∧
    SameRegs s t ∧ t.flags = s.flags ∧ t.pc = s.pc ∧ SameControl s t

/-- An ExecutionFailure taken by the instruction that executes in `s`, where `pc` is one past its index (R196,
R198). -/
def TookFailure (cause : Cause) (info : Int) (mn : Option Mnemonic) (s t : State) : Prop :=
  t.run = .failed ∧
    (s.fault = none → t.fault = some ⟨cause, s.pc - 1, info⟩) ∧ (s.fault ≠ none → t.fault = s.fault) ∧
    t.out = s.out ++ [.error cause mn (mn.map Mnemonic.format)] ∧
    SameRegs s t ∧ t.flags = s.flags ∧ t.pc = s.pc ∧ SameMemory s t ∧ t.trace = s.trace ∧ SameConfig s t

/-! ## What an instruction can fail on, and what `PRNT` prints -/

/-- The failing conditions of R197, instruction by instruction, in the state that the instruction executes in. -/
def FailsIn : Instr → State → Prop
  | .udiv _ _ _, _ | .lda _ _ _, _ | .ldxr _ _ _, _ | .stxr _ _ _, _ => True
  | .sdiv _ _ rm, s => readReg s rm = 0
  | .ldur _ rn dt, s | .stur _ rn dt, s => ¬ admitted s (effectiveAddress s rn dt) 8
  | .ldursw _ rn dt, s | .sturw _ rn dt, s => ¬ admitted s (effectiveAddress s rn dt) 4
  | .ldurh _ rn dt, s | .sturh _ rn dt, s => ¬ admitted s (effectiveAddress s rn dt) 2
  | .ldurb _ rn dt, s | .sturb _ rn dt, s => ¬ admitted s (effectiveAddress s rn dt) 1
  | .prnt, s => ∃ ea, printText s (currentPayload s) = .badAddress ea
  | .add _ _ _, _ | .sub _ _ _, _ | .and _ _ _, _ | .orr _ _ _, _ | .eor _ _ _, _ | .mul _ _ _, _ => False
  | .adds _ _ _, _ | .subs _ _ _, _ | .ands _ _ _, _ | .lsl _ _ _, _ | .lsr _ _ _, _ => False
  | .br _, _ | .cmp _ _, _ | .mov _ _, _ | .movz _ _, _ | .movk _ _, _ | .cmpi _ _, _ => False
  | .addi _ _ _, _ | .subi _ _ _, _ | .andi _ _ _, _ | .orri _ _ _, _ | .eori _ _ _, _ => False
  | .addis _ _ _, _ | .subis _ _ _, _ | .andis _ _ _, _ => False
  | .b _, _ | .bl _, _ | .cbz _ _, _ | .cbnz _ _, _ => False
  | .bEQ _, _ | .bNE _, _ | .bLT _, _ | .bLO _, _ | .bLE _, _ | .bLS _, _ => False
  | .bGT _, _ | .bHI _, _ | .bGE _, _ | .bHS _, _ | .bPL _, _ | .bMI _, _ => False
  | .prnl, _ | .halt, _ | .dump, _ => False

/-- Text in front of the text that a payload scans to; an address out of range stays what decides (R199). -/
def PrintText.after (pre : Text) : PrintText → PrintText
  | .text t => .text (pre ++ t)
  | .badAddress ea => .badAddress ea

/-- The scan of R178 reads `pre` whole, is outside every item after it, and has the text `u` of it: whatever follows
is scanned from there. -/
def ScansTo (s : State) (pre u : Text) : Prop := ∀ rest, scanText s (pre ++ rest) = (scanText s rest).after u

/-- What `PRNT` does with what its payload scans to: one Print event, or the failure before any event (R178). -/
def Prints (r : PrintText) (s t : State) : Prop :=
  match r with
  | .text u => EmitsOnly (.print u) s t
  | .badAddress ea => TookFailure .addressOutOfRange ea (some .prnt) s t

/-! ## The invariant of the machine -/

/-- An `Error` event. -/
def Event.isError : Event → Bool
  | .error _ _ _ => true
  | _ => false

/-- A `Dump` event. -/
def Event.isDump : Event → Bool
  | .dump _ _ _ => true
  | _ => false

/-- What holds of the parameters of R5, and of a program short enough for its indices to be safe integers (R14). -/
structure ConfigOk (s : State) : Prop where
  memSizePos : 0 < s.memSize
  memSizeFits : s.memSize < 2 ^ 63
  initWf : Memory.wf s.memInit
  initBelow : Memory.below s.memInit s.memSize
  progFits : (s.prog.length : Int) ≤ Config.safeMax
  optabOk : OptabOk s.optab

/-- The fault latch is set exactly when the run failed (R198). The host's `stop` alone ends this, on a failed machine:
the run becomes Ended and the latch stays (R207). -/
def LatchIffFailed (s : State) : Prop := s.run = .failed ↔ s.fault ≠ none

/-- The invariant that every step, and the host's `start` and `stop`, keep. -/
structure Inv (s : State) : Prop where
  config : ConfigOk s
  /-- Memory is canonical (R30). -/
  memWf : Memory.wf s.mem
  /-- No byte is listed at or above MEM_SIZE (R30, R38). -/
  memBelow : Memory.below s.mem s.memSize
  /-- `pc` is a safe integer (R14). -/
  pcLow : -Config.safeMax ≤ s.pc
  pcHigh : s.pc ≤ Config.safeMax
  /-- `Z` and `N` are never both set (R158). -/
  flagsExclusive : ¬ (s.flags.z = true ∧ s.flags.n = true)
  /-- Only indices of the program are executed (R20, R187). -/
  traceInProg : ∀ i ∈ s.trace, 0 ≤ i ∧ i < (s.prog.length : Int)
  /-- A failed run has the fault latch set (R198). -/
  failedHasFault : s.run = .failed → s.fault ≠ none
  /-- A set fault latch stands in a failed run, or in one that the host stopped after it failed (R198, R207). -/
  faultStopped : s.fault ≠ none → s.run = .failed ∨ s.run = .ended
  /-- The failure is precise: its index is the last one executed and `pc` is one past it (R198). -/
  faultAtEnd : ∀ f, s.fault = some f → s.trace.getLast? = some f.index ∧ s.pc = f.index + 1
  /-- With the fault latch set there is exactly one Error event, otherwise none (R198, R201). -/
  oneError : (s.out.filter Event.isError).length = if s.fault = none then 0 else 1
  /-- A Dump event stands only in an ended run (R181, R182). -/
  dumpEnds : ∀ e ∈ s.out, e.isDump = true → s.run = .ended
  /-- A machine that was not started has executed and emitted nothing (R17, R215). -/
  idleFresh : s.run = .idle → s.trace = [] ∧ s.out = []

end Sys2Proof.Machine
end

