-- ==== Sys2Proof/Certificates/Slice0/Obligations.lean ====
section
/-! DEFINITION. The statements for the provers. Each docstring names the rules of spec/ that the statement is about.
"Decision D<n>" is a choice that the spec marks as its own (`92_eei_decisions.md`), not D0's; "log <n>" is
notes/assumptions/<n>.md. -/

open Sys2Proof Sys2Proof.Machine

/-! ## R format -/

/-- R91: the ALU's addition, subtraction and multiplication give the exact result modulo 2^64 read back as a signed
integer, and the same pattern for the unsigned reading. `ADD`, `SUB` and `MUL` (R100, R101, R105) complete in every
state with that result; register 31 discards it; nothing else changes. -/
def Obligations.AddSubMulWrapModulo : Prop :=
  (∀ a b : Word,
    (aluAdd a b).toInt = (a.toInt + b.toInt).bmod (2 ^ 64) ∧ (aluAdd a b).toNat = (a.toNat + b.toNat) % 2 ^ 64 ∧
    (aluSub a b).toInt = (a.toInt - b.toInt).bmod (2 ^ 64) ∧
    ((aluSub a b).toNat : Int) = ((a.toNat : Int) - (b.toNat : Int)) % 2 ^ 64 ∧
    (aluMul a b).toInt = (a.toInt * b.toInt).bmod (2 ^ 64) ∧ (aluMul a b).toNat = (a.toNat * b.toNat) % 2 ^ 64) ∧
  ∀ (rd rn rm : Reg) (s : State),
    (∃ t, exec (.add rd rn rm) s = .next t ∧ WritesOnly rd (aluAdd (readReg s rn) (readReg s rm)) s t) ∧
    (∃ t, exec (.sub rd rn rm) s = .next t ∧ WritesOnly rd (aluSub (readReg s rn) (readReg s rm)) s t) ∧
    (∃ t, exec (.mul rd rn rm) s = .next t ∧ WritesOnly rd (aluMul (readReg s rn) (readReg s rm)) s t)

/-- R102 to R104 with R90: `AND`, `ORR` and `EOR` complete in every state and act on all 64 bits. -/
def Obligations.BitwiseRegisterForms : Prop :=
  ∀ (rd rn rm : Reg) (s : State),
    (∃ t v, exec (.and rd rn rm) s = .next t ∧ WritesOnly rd v s t ∧
      ∀ k, v.getLsbD k = ((readReg s rn).getLsbD k && (readReg s rm).getLsbD k)) ∧
    (∃ t v, exec (.orr rd rn rm) s = .next t ∧ WritesOnly rd v s t ∧
      ∀ k, v.getLsbD k = ((readReg s rn).getLsbD k || (readReg s rm).getLsbD k)) ∧
    (∃ t v, exec (.eor rd rn rm) s = .next t ∧ WritesOnly rd v s t ∧
      ∀ k, v.getLsbD k = ((readReg s rn).getLsbD k ^^ (readReg s rm).getLsbD k))

/-- R94, R106 (decision D15): with a nonzero divisor `SDIV` completes; the quotient is the one rounded toward zero,
and the one quotient that does not fit wraps to -2^63. -/
def Obligations.SdivRoundsTowardZero : Prop :=
  ∀ (rd rn rm : Reg) (s : State), readReg s rm ≠ 0 →
    ∃ t q, exec (.sdiv rd rn rm) s = .next t ∧ WritesOnly rd q s t ∧
      ((readReg s rn).toInt = -2 ^ 63 ∧ (readReg s rm).toInt = -1 → q.toInt = -2 ^ 63) ∧
      (¬ ((readReg s rn).toInt = -2 ^ 63 ∧ (readReg s rm).toInt = -1) →
        ∃ r : Int, (readReg s rn).toInt = q.toInt * (readReg s rm).toInt + r ∧
          r.natAbs < (readReg s rm).toInt.natAbs ∧
          (r ≠ 0 → (0 < r ↔ 0 < (readReg s rn).toInt)))

/-- R94, R106 (decision D15): a zero divisor, register 31 among them, raises DivideByZero before any write. -/
def Obligations.SdivByZeroFails : Prop :=
  ∀ (rd rn rm : Reg) (s : State), readReg s rm = 0 →
    ∃ t, exec (.sdiv rd rn rm) s = .next t ∧
      TookFailure .divideByZero (s.pc - 1) (some .sdiv) s t

/-- R107 to R109 with R92 and R97 (decisions D16, D17): `ADDS`, `SUBS` and `ANDS` complete in every state, write the
result, and write all four flags from the wrapped result and the operands as read before the write. -/
def Obligations.FlagSettingRegisterForms : Prop :=
  ∀ (rd rn rm : Reg) (s : State),
    (∃ t v, exec (.adds rd rn rm) s = .next t ∧ v = readReg s rn + readReg s rm ∧
      WritesOnlyWithFlags rd v (setFlags v.toInt (readReg s rn).toInt (readReg s rm).toInt) s t) ∧
    (∃ t v, exec (.subs rd rn rm) s = .next t ∧ v = readReg s rn - readReg s rm ∧
      WritesOnlyWithFlags rd v (setFlags v.toInt (readReg s rn).toInt (readReg s rm).toInt) s t) ∧
    (∃ t v, exec (.ands rd rn rm) s = .next t ∧ v = readReg s rn &&& readReg s rm ∧
      WritesOnlyWithFlags rd v (setFlags v.toInt (readReg s rn).toInt (readReg s rm).toInt) s t)

/-- R92: the four formulas of `setFlags`, as propositions over the three signed arguments. -/
def Obligations.SetFlagsFormulas : Prop :=
  ∀ res l r : Int,
    ((setFlags res l r).z = true ↔ res = 0) ∧ ((setFlags res l r).n = true ↔ res < 0) ∧
    ((setFlags res l r).c = true ↔
      (l > 0 ∧ r > 0 ∧ res < l ∧ res < r) ∨ (l < 0 ∧ r < 0 ∧ res > l ∧ res > r)) ∧
    ((setFlags res l r).v = true ↔ (l > 0 ∧ r > 0 ∧ res < 0) ∨ (l < 0 ∧ r < 0 ∧ res > 0))

/-- R93, which the spec derives from R92: what the formulas give for additions, subtractions and ANDs, row by row. `f`
is the carry and the overflow flag of the operation on `a` and `b`. -/
def Obligations.CarryOverflowTable : Prop :=
  ∀ a b : Word,
    (a = 0 ∨ b = 0 ∨ (a.toInt < 0 ∧ b.toInt > 0) ∨ (a.toInt > 0 ∧ b.toInt < 0) →
      ∀ res : Word, (flagsOf res a b).c = false ∧ (flagsOf res a b).v = false) ∧
    (a.toInt > 0 → b.toInt > 0 →
      (a.toInt + b.toInt < 2 ^ 63 → (flagsOf (a + b) a b).c = false ∧ (flagsOf (a + b) a b).v = false) ∧
      (a.toInt + b.toInt ≥ 2 ^ 63 → (flagsOf (a + b) a b).c = true ∧ (flagsOf (a + b) a b).v = true) ∧
      (a.toInt > b.toInt → ((flagsOf (a - b) a b).c = true ↔ a.toInt - b.toInt < b.toInt) ∧
        (flagsOf (a - b) a b).v = false) ∧
      (a.toInt < b.toInt → (flagsOf (a - b) a b).c = true ∧ (flagsOf (a - b) a b).v = true) ∧
      (a = b → (flagsOf (a - b) a b).c = true ∧ (flagsOf (a - b) a b).v = false) ∧
      ((flagsOf (a &&& b) a b).c = true ↔ (a &&& b).toInt < a.toInt ∧ (a &&& b).toInt < b.toInt) ∧
      (flagsOf (a &&& b) a b).v = false) ∧
    (a.toInt < 0 → b.toInt < 0 →
      (a.toInt + b.toInt ≥ -2 ^ 63 → (flagsOf (a + b) a b).c = false ∧ (flagsOf (a + b) a b).v = false) ∧
      (a.toInt + b.toInt < -2 ^ 63 → (flagsOf (a + b) a b).c = true ∧
        ((flagsOf (a + b) a b).v = true ↔ ¬ (a.toInt = -2 ^ 63 ∧ b.toInt = -2 ^ 63))) ∧
      (a.toInt > b.toInt → (flagsOf (a - b) a b).c = true ∧ (flagsOf (a - b) a b).v = true) ∧
      (a.toInt < b.toInt → ((flagsOf (a - b) a b).c = true ↔ a.toInt - b.toInt > b.toInt) ∧
        (flagsOf (a - b) a b).v = false) ∧
      (a = b → (flagsOf (a - b) a b).c = true ∧ (flagsOf (a - b) a b).v = false) ∧
      (flagsOf (a &&& b) a b).c = false ∧ (flagsOf (a &&& b) a b).v = false)

/-- R96, R110, R111 (the logical right shift is decision D14): `LSL` and `LSR` complete in every state, for every
distance of the field, and fill with zeros. -/
def Obligations.ShiftForms : Prop :=
  ∀ (rd rn : Reg) (n : Nat) (s : State), n < 64 →
    (∃ t v, exec (.lsl rd rn n) s = .next t ∧ WritesOnly rd v s t ∧
      ∀ k, k < 64 → v.getLsbD k = (decide (n ≤ k) && (readReg s rn).getLsbD (k - n))) ∧
    (∃ t v, exec (.lsr rd rn n) s = .next t ∧ WritesOnly rd v s t ∧
      ∀ k, k < 64 → v.getLsbD k = (decide (k + n < 64) && (readReg s rn).getLsbD (k + n)))

/-- R112 (the bound 2^53 - 1 is general knowledge, log 14): `BR` completes in every state; `pc` takes the signed value
of the register, clamped to the safe-integer range; nothing else changes. -/
def Obligations.BranchRegisterClamps : Prop :=
  ∀ (rd : Reg) (s : State),
    ∃ t, exec (.br rd) s = .next t ∧
      WritesOnlyPc (max (-(2 ^ 53 - 1)) (min (2 ^ 53 - 1) (readReg s rd).toInt)) s t

/-- R113, R128 with R92 (decision D16): `CMP` and `CMPI` complete in every state, write the flags of a subtraction and
no register, whatever the `Rd` field holds. -/
def Obligations.CompareForms : Prop :=
  ∀ (rd rn : Reg) (imm : Nat) (s : State), imm < 4096 →
    (∃ t, exec (.cmp rd rn) s = .next t ∧
      WritesOnlyFlags (setFlags (readReg s rd - readReg s rn).toInt (readReg s rd).toInt (readReg s rn).toInt) s t) ∧
    (∃ t, exec (.cmpi rn imm) s = .next t ∧
      WritesOnlyFlags (setFlags (readReg s rn - BitVec.ofNat 64 imm).toInt (readReg s rn).toInt (imm : Int)) s t)

/-- R114, R131, R132, R130: `MOV`, `MOVZ` and `MOVK` complete in every state; `MOVZ` clears bits 63..16, `MOVK` keeps
them. -/
def Obligations.MoveForms : Prop :=
  ∀ (rd rn : Reg) (imm : Nat) (s : State), imm < 65536 →
    (∃ t, exec (.mov rd rn) s = .next t ∧ WritesOnly rd (readReg s rn) s t) ∧
    (∃ t v, exec (.movz rd imm) s = .next t ∧ WritesOnly rd v s t ∧ v.toNat = imm) ∧
    (∃ t v, exec (.movk rd imm) s = .next t ∧ WritesOnly rd v s t ∧
      ∀ k, k < 64 → v.getLsbD k = if k < 16 then imm.testBit k else (readReg s rd).getLsbD k)

/-- R115, R144 to R146, R199 (the mnemonics `LDXR` and `STXR` are general knowledge; the record of the failure is
decision D19): the four stubs take the failure Unimplemented in every state, whatever the operands. -/
def Obligations.StubsAlwaysFail : Prop :=
  ∀ (a b c : Reg) (dt : Nat) (s : State),
    (∃ t, exec (.udiv a b c) s = .next t ∧ TookFailure .unimplemented (s.pc - 1) (some .udiv) s t) ∧
    (∃ t, exec (.lda a b dt) s = .next t ∧ TookFailure .unimplemented (s.pc - 1) (some .lda) s t) ∧
    (∃ t, exec (.ldxr a b dt) s = .next t ∧ TookFailure .unimplemented (s.pc - 1) (some .ldxr) s t) ∧
    (∃ t, exec (.stxr a b dt) s = .next t ∧ TookFailure .unimplemented (s.pc - 1) (some .stxr) s t)

/-! ## I format -/

/-- R120, R121: `ADDI` and `SUBI` complete in every state with the unsigned 12-bit immediate, and wrap. -/
def Obligations.ImmediateArithmeticForms : Prop :=
  ∀ (rd rn : Reg) (imm : Nat) (s : State), imm < 4096 →
    (∃ t v, exec (.addi rd rn imm) s = .next t ∧ WritesOnly rd v s t ∧
      v.toInt = ((readReg s rn).toInt + (imm : Int)).bmod (2 ^ 64)) ∧
    (∃ t v, exec (.subi rd rn imm) s = .next t ∧ WritesOnly rd v s t ∧
      v.toInt = ((readReg s rn).toInt - (imm : Int)).bmod (2 ^ 64))

/-- R122 to R124: `ANDI`, `ORRI` and `EORI` complete in every state with the zero-extended immediate. -/
def Obligations.ImmediateLogicForms : Prop :=
  ∀ (rd rn : Reg) (imm : Nat) (s : State), imm < 4096 →
    (∃ t v, exec (.andi rd rn imm) s = .next t ∧ WritesOnly rd v s t ∧
      ∀ k, k < 64 → v.getLsbD k = ((readReg s rn).getLsbD k && imm.testBit k)) ∧
    (∃ t v, exec (.orri rd rn imm) s = .next t ∧ WritesOnly rd v s t ∧
      ∀ k, k < 64 → v.getLsbD k = ((readReg s rn).getLsbD k || imm.testBit k)) ∧
    (∃ t v, exec (.eori rd rn imm) s = .next t ∧ WritesOnly rd v s t ∧
      ∀ k, k < 64 → v.getLsbD k = ((readReg s rn).getLsbD k ^^ imm.testBit k))

/-- R125 to R127 with R92 (decision D16): `ADDIS`, `SUBIS` and `ANDIS` complete in every state and write all four flags
with the immediate itself as right operand. -/
def Obligations.FlagSettingImmediateForms : Prop :=
  ∀ (rd rn : Reg) (imm : Nat) (s : State), imm < 4096 →
    (∃ t v, exec (.addis rd rn imm) s = .next t ∧ v = readReg s rn + BitVec.ofNat 64 imm ∧
      WritesOnlyWithFlags rd v (setFlags v.toInt (readReg s rn).toInt (imm : Int)) s t) ∧
    (∃ t v, exec (.subis rd rn imm) s = .next t ∧ v = readReg s rn - BitVec.ofNat 64 imm ∧
      WritesOnlyWithFlags rd v (setFlags v.toInt (readReg s rn).toInt (imm : Int)) s t) ∧
    (∃ t v, exec (.andis rd rn imm) s = .next t ∧ v = readReg s rn &&& BitVec.ofNat 64 imm ∧
      WritesOnlyWithFlags rd v (setFlags v.toInt (readReg s rn).toInt (imm : Int)) s t)

/-! ## D format and data memory -/

/-- R31: the effective address is the exact sum of the signed base and the unsigned offset. A base of 2^63 - 1 with an
offset of 1 or more gives an address that no memory admits, not a negative one. -/
def Obligations.EffectiveAddressIsNotWrapped : Prop :=
  ∀ (s : State) (rn : Reg) (dt : Nat), dt < 512 →
    effectiveAddress s rn dt = (readReg s rn).toInt + (dt : Int) ∧
    ((readReg s rn).toInt = 2 ^ 63 - 1 → 0 < dt → s.memSize < 2 ^ 63 →
      2 ^ 63 ≤ effectiveAddress s rn dt ∧ ∀ n, ¬ admitted s (effectiveAddress s rn dt) n)

/-- R136 to R139 with R33 and R135 (byte order is decision D9, the extension of narrow loads D13): an admitted load
completes; every bit of the register is the bit of its byte, or the extension; nothing else changes. -/
def Obligations.AdmittedLoadsReadBytes : Prop :=
  ∀ (rt rn : Reg) (dt : Nat) (s : State) (ea : Int), dt < 512 → ea = (readReg s rn).toInt + (dt : Int) → 0 ≤ ea →
    (ea + 8 ≤ s.memSize → ∃ t v, exec (.ldur rt rn dt) s = .next t ∧ WritesOnly rt v s t ∧
      ∀ k, k < 64 → v.getLsbD k = (readByte s (ea.toNat + k / 8)).getLsbD (k % 8)) ∧
    (ea + 1 ≤ s.memSize → ∃ t v, exec (.ldurb rt rn dt) s = .next t ∧ WritesOnly rt v s t ∧
      ∀ k, k < 64 → v.getLsbD k = (decide (k < 8) && (readByte s ea.toNat).getLsbD k)) ∧
    (ea + 2 ≤ s.memSize → ∃ t v, exec (.ldurh rt rn dt) s = .next t ∧ WritesOnly rt v s t ∧
      ∀ k, k < 64 → v.getLsbD k = (decide (k < 16) && (readByte s (ea.toNat + k / 8)).getLsbD (k % 8))) ∧
    (ea + 4 ≤ s.memSize → ∃ t v, exec (.ldursw rt rn dt) s = .next t ∧ WritesOnly rt v s t ∧
      ∀ k, k < 64 → v.getLsbD k =
        if k < 32 then (readByte s (ea.toNat + k / 8)).getLsbD (k % 8) else (readByte s (ea.toNat + 3)).getLsbD 7)

/-- R140 to R143 with R33 and R36 (byte order is decision D9): an admitted store completes; the bytes at the effective
address are the low bytes of the register; every other byte, every register and every flag is unchanged. The premise
on memory is the canonical form, which every step keeps (`StepKeepsInvariant`). -/
def Obligations.AdmittedStoresWriteBytes : Prop :=
  ∀ (rt rn : Reg) (dt : Nat) (s : State), dt < 512 → Memory.wf s.mem → 0 ≤ effectiveAddress s rn dt →
    (effectiveAddress s rn dt + 8 ≤ s.memSize → ∃ t, exec (.stur rt rn dt) s = .next t ∧
      StoresOnly (effectiveAddress s rn dt) 8 (readReg s rt) s t) ∧
    (effectiveAddress s rn dt + 1 ≤ s.memSize → ∃ t, exec (.sturb rt rn dt) s = .next t ∧
      StoresOnly (effectiveAddress s rn dt) 1 (readReg s rt) s t) ∧
    (effectiveAddress s rn dt + 2 ≤ s.memSize → ∃ t, exec (.sturh rt rn dt) s = .next t ∧
      StoresOnly (effectiveAddress s rn dt) 2 (readReg s rt) s t) ∧
    (effectiveAddress s rn dt + 4 ≤ s.memSize → ∃ t, exec (.sturw rt rn dt) s = .next t ∧
      StoresOnly (effectiveAddress s rn dt) 4 (readReg s rt) s t)

/-- R32, R35, R36 (decision D11): an access any byte of which is outside memory takes AddressOutOfRange with the
effective address as info, and changes no register, flag or byte. -/
def Obligations.AccessOutsideMemoryFails : Prop :=
  ∀ (rt rn : Reg) (dt : Nat) (s : State) (ea : Int), dt < 512 → ea = (readReg s rn).toInt + (dt : Int) →
    (ea < 0 ∨ ea + 8 > s.memSize →
      (∃ t, exec (.ldur rt rn dt) s = .next t ∧ TookFailure .addressOutOfRange ea (some .ldur) s t) ∧
      (∃ t, exec (.stur rt rn dt) s = .next t ∧ TookFailure .addressOutOfRange ea (some .stur) s t)) ∧
    (ea < 0 ∨ ea + 1 > s.memSize →
      (∃ t, exec (.ldurb rt rn dt) s = .next t ∧ TookFailure .addressOutOfRange ea (some .ldurb) s t) ∧
      (∃ t, exec (.sturb rt rn dt) s = .next t ∧ TookFailure .addressOutOfRange ea (some .sturb) s t)) ∧
    (ea < 0 ∨ ea + 2 > s.memSize →
      (∃ t, exec (.ldurh rt rn dt) s = .next t ∧ TookFailure .addressOutOfRange ea (some .ldurh) s t) ∧
      (∃ t, exec (.sturh rt rn dt) s = .next t ∧ TookFailure .addressOutOfRange ea (some .sturh) s t)) ∧
    (ea < 0 ∨ ea + 4 > s.memSize →
      (∃ t, exec (.ldursw rt rn dt) s = .next t ∧ TookFailure .addressOutOfRange ea (some .ldursw) s t) ∧
      (∃ t, exec (.sturw rt rn dt) s = .next t ∧ TookFailure .addressOutOfRange ea (some .sturw) s t))

/-- R147, which the spec derives from R35, R36 and R136 to R143; the extension of the narrow loads is decision D13
(log 13): a store and then a load of the same width at the same address give the value back at 8 bytes, and at the
narrow widths its low bytes, zero-extended for 1 and 2 bytes and sign-extended for 4. A load into register 31 discards
the value (`AdmittedLoadsReadBytes`). -/
def Obligations.StoreThenLoadGivesValue : Prop :=
  ∀ (rt ru rn : Reg) (dt : Nat) (s : State), ru ≠ 31 → Memory.wf s.mem → 0 ≤ effectiveAddress s rn dt →
    (effectiveAddress s rn dt + 8 ≤ s.memSize →
      ∃ t u, exec (.stur rt rn dt) s = .next t ∧ exec (.ldur ru rn dt) t = .next u ∧
        readReg u ru = readReg s rt) ∧
    (effectiveAddress s rn dt + 1 ≤ s.memSize →
      ∃ t u, exec (.sturb rt rn dt) s = .next t ∧ exec (.ldurb ru rn dt) t = .next u ∧
        readReg u ru = ((readReg s rt).setWidth 8).setWidth 64) ∧
    (effectiveAddress s rn dt + 2 ≤ s.memSize →
      ∃ t u, exec (.sturh rt rn dt) s = .next t ∧ exec (.ldurh ru rn dt) t = .next u ∧
        readReg u ru = ((readReg s rt).setWidth 16).setWidth 64) ∧
    (effectiveAddress s rn dt + 4 ≤ s.memSize →
      ∃ t u, exec (.sturw rt rn dt) s = .next t ∧ exec (.ldursw ru rn dt) t = .next u ∧
        readReg u ru = ((readReg s rt).setWidth 32).signExtend 64)

/-- R33 (byte order is decision D9, log 12) with R135 and R137 (the zero extension of `LDURB` is decision D13, log 13):
after `STUR` of a value, `LDURB` at its `k`-th byte reads bits `[8k+7 : 8k]` of the value into the low byte of the
register and 0 into the upper 56 bits. -/
def Obligations.ByteLoadSeesByteOfStore : Prop :=
  ∀ (rt ru rn : Reg) (dt k : Nat) (s : State), ru ≠ 31 → Memory.wf s.mem → dt + k < 512 → k < 8 →
    0 ≤ effectiveAddress s rn dt → effectiveAddress s rn dt + 8 ≤ s.memSize →
    ∃ t u, exec (.stur rt rn dt) s = .next t ∧ exec (.ldurb ru rn (dt + k)) t = .next u ∧
      readReg u ru = ((readReg s rt >>> (8 * k)).setWidth 8).setWidth 64

/-! ## Branches -/

/-- R150 to R152: `B` and `BL` complete in every state with the absolute target; `BL` writes the value that `pc` holds,
the index after the `BL`, to the link register, and nothing else changes. -/
def Obligations.JumpAndCallForms : Prop :=
  ∀ (a : Nat) (s : State), a < 2 ^ 26 →
    (∃ t, exec (.b a) s = .next t ∧ WritesOnlyPc (a : Int) s t) ∧
    (∃ t, exec (.bl a) s = .next t ∧ readReg t 30 = BitVec.ofInt 64 s.pc ∧ SameRegsBut 30 s t ∧
      t.flags = s.flags ∧ t.pc = (a : Int) ∧ SameMemory s t ∧ SameControl s t)

/-- R152 with R112 and R186: a `BL` at index `i` to a `BR LR` comes back to `i + 1` in two steps. -/
def Obligations.CallThenReturn : Prop :=
  ∀ (s : State) (e e' : ProgEntry) (a : Nat), s.run = .running → a < 2 ^ 26 →
    progEntry s s.pc = some e → decode e.word s.optab = .instr (.bl a) →
    progEntry s (a : Int) = some e' → decode e'.word s.optab = .instr (.br 30) → s.pc < 2 ^ 53 - 1 →
    ∃ t u, step s = .next t ∧ t.pc = (a : Int) ∧ step t = .next u ∧ u.pc = s.pc + 1 ∧ u.run = .running

/-- R155 to R157: `CBZ` and `CBNZ` complete in every state and test all 64 bits; a branch that is not taken leaves `pc`
as it is. -/
def Obligations.CompareAndBranchForms : Prop :=
  ∀ (rt : Reg) (a : Nat) (s : State), a < 2 ^ 19 →
    (∃ t, exec (.cbz rt a) s = .next t ∧ WritesOnlyPc (if readReg s rt = 0 then (a : Int) else s.pc) s t) ∧
    (∃ t, exec (.cbnz rt a) s = .next t ∧ WritesOnlyPc (if readReg s rt = 0 then s.pc else (a : Int)) s t)

/-- R158 to R170: the twelve conditional branches complete in every state, with the predicates of the table. -/
def Obligations.ConditionalBranchTable : Prop :=
  ∀ (a : Nat) (s : State), a < 2 ^ 19 →
    (∃ t, exec (.bEQ a) s = .next t ∧ WritesOnlyPc (if s.flags.z = true then (a : Int) else s.pc) s t) ∧
    (∃ t, exec (.bNE a) s = .next t ∧ WritesOnlyPc (if s.flags.z = true then s.pc else (a : Int)) s t) ∧
    (∃ t, exec (.bLT a) s = .next t ∧
      WritesOnlyPc (if s.flags.z = false ∧ s.flags.n = true then (a : Int) else s.pc) s t) ∧
    (∃ t, exec (.bLO a) s = .next t ∧
      WritesOnlyPc (if s.flags.z = false ∧ s.flags.n = true then (a : Int) else s.pc) s t) ∧
    (∃ t, exec (.bLE a) s = .next t ∧
      WritesOnlyPc (if s.flags.z = true ∨ s.flags.n = true then (a : Int) else s.pc) s t) ∧
    (∃ t, exec (.bLS a) s = .next t ∧
      WritesOnlyPc (if s.flags.z = true ∨ s.flags.n = true then (a : Int) else s.pc) s t) ∧
    (∃ t, exec (.bGT a) s = .next t ∧
      WritesOnlyPc (if s.flags.z = false ∧ s.flags.n = false then (a : Int) else s.pc) s t) ∧
    (∃ t, exec (.bHI a) s = .next t ∧
      WritesOnlyPc (if s.flags.z = false ∧ s.flags.n = false then (a : Int) else s.pc) s t) ∧
    (∃ t, exec (.bGE a) s = .next t ∧
      WritesOnlyPc (if s.flags.z = true ∨ s.flags.n = true then (a : Int) else s.pc) s t) ∧
    (∃ t, exec (.bHS a) s = .next t ∧
      WritesOnlyPc (if s.flags.z = true ∨ s.flags.n = true then (a : Int) else s.pc) s t) ∧
    (∃ t, exec (.bPL a) s = .next t ∧ WritesOnlyPc (if s.flags.n = true then s.pc else (a : Int)) s t) ∧
    (∃ t, exec (.bMI a) s = .next t ∧ WritesOnlyPc (if s.flags.n = true then (a : Int) else s.pc) s t)

/-- R16, R158: no instruction reads `C` or `V`. Two states that differ only there go on alike: they answer next states
that agree on everything but the flags, and on `Z` and `N`. -/
def Obligations.NoInstructionReadsCarryOrOverflow : Prop :=
  ∀ (i : Instr) (s t : State) (c v : Bool), exec i s = .next t →
    ∃ t', exec i (writeFlags s ⟨s.flags.z, s.flags.n, c, v⟩) = .next t' ∧
      writeFlags t' t.flags = t ∧ t'.flags.z = t.flags.z ∧ t'.flags.n = t.flags.n

/-! ## Z format -/

/-- R180: `PRNL` completes in every state, emits one BlankLine event and changes nothing else. -/
def Obligations.PrintLineEmitsBlankLine : Prop :=
  ∀ s : State, ∃ t, exec .prnl s = .next t ∧ EmitsOnly .blankLine s t

/-- R181, R182 (the run state Ended is decision D28): `HALT` and `DUMP` complete in every state with the same next
state. It has one Dump event more, whose registers are the 32 registers as they read and whose memory reads byte by
byte as memory does; the run is over; all else is unchanged. -/
def Obligations.HaltAndDumpStopAlike : Prop :=
  ∀ s : State, ∃ t regs mem, exec .halt s = .next t ∧ exec .dump s = .next t ∧ t.run = .ended ∧
    t.out = s.out ++ [.dump regs s.memSize mem] ∧ (∀ r : Reg, regs.get r = readReg s r) ∧
    (∀ a, Memory.read mem a = readByte s a) ∧ SameRegs s t ∧ t.flags = s.flags ∧ t.pc = s.pc ∧ SameMemory s t ∧
    t.trace = s.trace ∧ t.fault = s.fault ∧ SameConfig s t

/-- R178: `PRNT` of a payload that is a register name prints its signed decimal value. -/
def Obligations.PrintRegisterPayload : Prop :=
  ∀ (s : State) (r : Reg), (∀ c ∈ currentPayload s, c ≠ ' ' ∧ c ≠ '\t') → parseReg (currentPayload s) = some r →
    ∃ t, exec .prnt s = .next t ∧ EmitsOnly (.print (dec (readReg s r).toInt)) s t

/-- R178: `PRNT` of a payload without an opening bracket prints it verbatim, except a payload that is a register name,
which prints the register (`PrintRegisterPayload`). That a closing bracket outside an item is ordinary text, and that
there is exactly one Print event, is decision D23 (log 13). -/
def Obligations.PrintPlainPayload : Prop :=
  ∀ s : State, (∀ c ∈ currentPayload s, c ≠ openBrace ∧ c ≠ openSquare) →
    ((∃ c ∈ currentPayload s, c = ' ' ∨ c = '\t') ∨ parseReg (currentPayload s) = none) →
    ∃ t, exec .prnt s = .next t ∧ EmitsOnly (.print (currentPayload s)) s t

/-- R178, R179 (that the scan goes on to the end of the payload and the other open details are decision D23, log 13):
what `PRNT` prints for a payload with any number of items, piece by piece. Whatever follows, a payload's start scans
to a text: nothing to nothing; text without an opening bracket to itself; a closed register item to the signed decimal
value; a closed memory item with an admitted address to the unsigned decimal value of the byte; a closed item whose
trimmed name is no register to itself, brackets included. An item that is not closed takes the rest as its name.
`PRNT` of a payload with an opening bracket completes with what the payload scans to. The memory item with an address
outside memory is `PrintBadAddressFails`. -/
def Obligations.PrintItemPayload : Prop :=
  ∀ s : State, ScansTo s [] [] ∧
    (∀ pre u : Text, ScansTo s pre u → scanText s pre = .text u ∧
      (∀ plain : Text, (∀ c ∈ plain, c ≠ openBrace ∧ c ≠ openSquare) → ScansTo s (pre ++ plain) (u ++ plain)) ∧
      (∀ name : Text, closeBrace ∉ name →
        (∀ r, parseReg (trim name) = some r →
          ScansTo s (pre ++ openBrace :: name ++ [closeBrace]) (u ++ dec (readReg s r).toInt) ∧
          scanText s (pre ++ openBrace :: name) = .text (u ++ dec (readReg s r).toInt)) ∧
        (parseReg (trim name) = none →
          ScansTo s (pre ++ openBrace :: name ++ [closeBrace]) (u ++ openBrace :: name ++ [closeBrace]) ∧
          scanText s (pre ++ openBrace :: name) = .text (u ++ openBrace :: name))) ∧
      (∀ name : Text, closeSquare ∉ name →
        (∀ r, parseReg (trim name) = some r → 0 ≤ (readReg s r).toInt → (readReg s r).toInt < s.memSize →
          ScansTo s (pre ++ openSquare :: name ++ [closeSquare])
            (u ++ dec ((readByte s (readReg s r).toInt.toNat).toNat : Int)) ∧
          scanText s (pre ++ openSquare :: name) =
            .text (u ++ dec ((readByte s (readReg s r).toInt.toNat).toNat : Int))) ∧
        (parseReg (trim name) = none →
          ScansTo s (pre ++ openSquare :: name ++ [closeSquare]) (u ++ openSquare :: name ++ [closeSquare]) ∧
          scanText s (pre ++ openSquare :: name) = .text (u ++ openSquare :: name)))) ∧
    ((∃ c ∈ currentPayload s, c = openBrace ∨ c = openSquare) →
      ∃ t, exec .prnt s = .next t ∧ Prints (scanText s (currentPayload s)) s t)

/-- R178, R199 (decisions D11, D23, log 13): a memory item, closed or not, whose address is outside memory makes
`PRNT` take AddressOutOfRange with that address, and nothing is printed. It is the first such item, left to right:
what stands before it scans to a text, with as many items as there are; what follows a closed item is arbitrary. -/
def Obligations.PrintBadAddressFails : Prop :=
  ∀ (s : State) (pre u name post : Text) (r : Reg), ScansTo s pre u → closeSquare ∉ name →
    (post = [] ∨ post.head? = some closeSquare) → parseReg (trim name) = some r →
    ((readReg s r).toInt < 0 ∨ (readReg s r).toInt ≥ s.memSize) →
    currentPayload s = pre ++ openSquare :: name ++ post →
    ∃ t, exec .prnt s = .next t ∧ TookFailure .addressOutOfRange (readReg s r).toInt (some .prnt) s t

/-- R178, R197 (exactly one Print event, and what malformed items give, is decision D23, log 13): only a memory item
that names a register whose value is no address in memory can make `PRNT` fail. Where every memory item that the scan
meets and that names a register has an admitted address, `PRNT` completes with exactly one Print event: so without an
opening square bracket, with one inside a register item, and with one whose name is no register. -/
def Obligations.PrintWithoutMemoryItemCompletes : Prop :=
  ∀ s : State,
    (∀ (pre u name post : Text) (r : Reg), ScansTo s pre u → currentPayload s = pre ++ openSquare :: name ++ post →
      closeSquare ∉ name → (post = [] ∨ post.head? = some closeSquare) → parseReg (trim name) = some r →
      0 ≤ (readReg s r).toInt ∧ (readReg s r).toInt < s.memSize) →
    ∃ t text, exec .prnt s = .next t ∧ EmitsOnly (.print text) s t

/-- R177: `dec` writes every integer so that reading it back gives the integer, with a minus sign exactly for a
negative one, and with no leading zero, at the start or after the minus sign, but in `0` itself. -/
def Obligations.DecimalReadsBack : Prop :=
  ∀ n : Int, parseInt (dec n) = some n ∧ ((dec n).head? = some '-' ↔ n < 0) ∧
    (0 < n → (dec n).head? ≠ some '0') ∧ (n < 0 → (dec n).tail.head? ≠ some '0') ∧ dec 0 = ['0']

/-! ## Bit fields, decoder, encoder -/

/-- R50: `getRange` reads the bits `hi` to `lo` as a number; after `setRange` it gives the value truncated to the range,
a negative value as the low bits of its two's-complement pattern; bits outside the range are unchanged; setting the
same range again with the same value changes nothing. -/
def Obligations.SetRangeThenGetRange : Prop :=
  ∀ (n lo hi : Nat) (w : BitVec n) (v : Int), lo ≤ hi → hi < n →
    getRange w lo hi = w.toNat / 2 ^ lo % 2 ^ (hi - lo + 1) ∧
    (getRange (setRange w lo hi v) lo hi : Int) = v % 2 ^ (hi - lo + 1) ∧
    (∀ k, k < lo ∨ hi < k → (setRange w lo hi v).getLsbD k = w.getLsbD k) ∧
    setRange (setRange w lo hi v) lo hi v = setRange w lo hi v

/-- R69 (R50, R68; OPTAB is an argument, R5, R62): for the default opcode map, and every other assignment that R62
admits, decoding the encoding of an instruction gives the same mnemonic, with it the format, and the operands truncated
to their fields; an instruction whose operands are all within their fields comes back whole. An operand that no
instruction of the syntax can hold, a negative one, is encoded as its truncation. -/
def Obligations.DecodeOfEncode : Prop :=
  OptabOk optab ∧
  (∀ tab, OptabOk tab → ∀ i : Instr,
    decode (encode i tab) tab = .instr i.truncate ∧ i.truncate.mnemonic = i.mnemonic ∧
      (i.wellFormed = true → decode (encode i tab) tab = .instr i)) ∧
  ∀ (m : Mnemonic) (d n k v : Int) (tab : List OpRow),
    encodeR m d n k v tab = encodeR m d n k (v % 2 ^ 6) tab ∧ encodeI m d n v tab = encodeI m d n (v % 2 ^ 12) tab ∧
    encodeIM m d v tab = encodeIM m d (v % 2 ^ 16) tab ∧ encodeD m d n v tab = encodeD m d n (v % 2 ^ 9) tab ∧
    encodeB m v tab = encodeB m (v % 2 ^ 26) tab ∧ encodeCB m d v tab = encodeCB m d (v % 2 ^ 19) tab

/-- R62, R64 (recovering the instruction from the word is decision D1): whatever the opcode map, a word that decodes is
selected by exactly one row, the row of its mnemonic, and the instruction fits its fields. R5, R62: another opcode map
gives the same machine up to the numeric value of instruction words. Two machines that differ only in the opcode map
and the words of the program, and whose words decode alike, take the same steps. -/
def Obligations.DecodedWordHasOneRow : Prop :=
  (∀ (tab : List OpRow) (w : InstrWord) (i : Instr), decode w tab = .instr i →
    i.wellFormed = true ∧ ∃ r ∈ tab, r.mn = i.mnemonic ∧ w &&& r.mask = r.mtch ∧
      ∀ r' ∈ tab, w &&& r'.mask = r'.mtch → r' = r) ∧
  (∀ (s t : State) (prog : List ProgEntry) (tab : List OpRow), prog.length = s.prog.length →
    (∀ (k : Nat) (e e' : ProgEntry), s.prog[k]? = some e → prog[k]? = some e' →
      e'.payload = e.payload ∧ decode e'.word tab = decode e.word s.optab) →
    step s = .next t → step { s with prog := prog, optab := tab } = .next { t with prog := prog, optab := tab })

/-- R61 to R63 (decisions D4, D5, D7, log 3): the mask and match of a row of the default opcode map select the words
whose `op11` is in the row's range and whose discriminating field holds its value: `shamt` 2 for `SDIV`, 3 for `UDIV`,
the condition code in `Rt` for a `B.cond`. -/
def Obligations.RowsSelectByOp11 : Prop :=
  ∀ (w : InstrWord), ∀ r ∈ optab,
    (w &&& r.mask = r.mtch ↔
      r.op11Min ≤ op11 w ∧ op11 w ≤ r.op11Max ∧ (r.mn = .sdiv → fieldShamt w = 2) ∧
        (r.mn = .udiv → fieldShamt w = 3) ∧ ∀ c, formOf r.mn = .condJump c → (fieldRd w).val = condCode c)

/-- R66, R63, R171 (decisions D4, D5, D8, log 3): a word decodes to Invalid exactly when its `op11` is in no row's
range, or it is 0x4D6 with `shamt` other than 2 or 3, or it is in 0x2A0..0x2A7 with `Rt` 6, 7 or 14 to 31. -/
def Obligations.IllegalWords : Prop :=
  ∀ w : InstrWord, decode w = .invalid ↔
    (∀ r ∈ optab, ¬ (r.op11Min ≤ op11 w ∧ op11 w ≤ r.op11Max)) ∨
    (op11 w = 0x4D6 ∧ fieldShamt w ≠ 2 ∧ fieldShamt w ≠ 3) ∨
    (0x2A0 ≤ op11 w ∧ op11 w ≤ 0x2A7 ∧ ((fieldRd w).val = 6 ∨ (fieldRd w).val = 7 ∨ 14 ≤ (fieldRd w).val))

/-- R65 (decision D31): whatever the opcode map, the bits that an instruction ignores may hold anything; the word
decodes to the same instruction with the same operands. -/
def Obligations.IgnoredBitsDoNotMatter : Prop :=
  ∀ tab, OptabOk tab → ∀ (w : InstrWord) (i : Instr), decode w tab = .instr i →
    ∀ p ∈ ignoredRanges i.mnemonic, ∀ v : Int, decode (setRange w p.1 p.2 v) tab = .instr i

/-- R62, R63 (decisions D2 to D6, log 3): one word per format, as the examples of the instruction rules write it, and
two illegal words. -/
def Obligations.ExampleWordsDecode : Prop :=
  decode 0x8B030041 = .instr (.add 1 2 3) ∧ decode 0x91001401 = .instr (.addi 1 0 5) ∧
  decode 0xD297DDE3 = .instr (.movz 3 48879) ∧ decode 0xB89FF022 = .instr (.ldursw 2 1 511) ∧
  decode 0x94000007 = .instr (.bl 7) ∧ decode 0xB4000121 = .instr (.cbz 1 9) ∧
  decode 0x54000084 = .instr (.bMI 4) ∧ decode 0xFFE00000 = .instr .halt ∧
  decode 0x00000000 = .invalid ∧ decode 0x54000006 = .invalid

/-! ## The step -/

/-- R185: a step of a machine that is not running changes nothing. -/
def Obligations.StepNotRunningDoesNothing : Prop :=
  ∀ s : State, s.run = .idle ∨ s.run = .ended ∨ s.run = .failed → step s = .next s

/-- R187 (that the test is made at the start of the next step is decision D20): `pc` before 0 or at or after PROG_LEN
ends the run, and nothing else changes. -/
def Obligations.PcOutOfRangeEndsRun : Prop :=
  ∀ s : State, s.run = .running → (s.pc < 0 ∨ s.pc ≥ s.prog.length) →
    ∃ t, step s = .next t ∧ t.run = .ended ∧ SameRegs s t ∧ t.flags = s.flags ∧ t.pc = s.pc ∧ SameMemory s t ∧
      t.trace = s.trace ∧ t.out = s.out ∧ t.fault = s.fault ∧ SameConfig s t

/-- R186: a step of a running machine with `pc` in the program runs the decoded instruction, in the state where the
index is on the trace and `pc` is one further; nothing else differs there. -/
def Obligations.StepRunsDecodedInstruction : Prop :=
  ∀ (s : State) (i : Instr), s.run = .running → 0 ≤ s.pc →
    (∃ e, s.prog[s.pc.toNat]? = some e ∧ decode e.word s.optab = .instr i) →
    ∃ u, step s = exec i u ∧ u.trace = s.trace ++ [s.pc] ∧ WritesOnlyPc (s.pc + 1) { s with trace := u.trace } u

/-- R186, R66, R198 (decisions D8, D19): a word that decodes to Invalid takes InvalidEncoding; the trace push and the
`pc` advance stay done. -/
def Obligations.StepOnIllegalWordFails : Prop :=
  ∀ s : State, s.run = .running → 0 ≤ s.pc →
    (∃ e, s.prog[s.pc.toNat]? = some e ∧ decode e.word s.optab = .invalid) →
    ∃ t, step s = .next t ∧ TookFailure .invalidEncoding s.pc none (beginStep s) t ∧
      t.pc = s.pc + 1 ∧ t.trace = s.trace ++ [s.pc]

/-- R15: only a branch overwrites `pc`: after a step of any other instruction it is the next index; and the index after
the last instruction is not index 0: there the run ends. -/
def Obligations.OnlyBranchesOverwritePc : Prop :=
  (∀ (s t : State) (i : Instr) (e : ProgEntry), s.run = .running → progEntry s s.pc = some e →
    decode e.word s.optab = .instr i → step s = .next t → i.mnemonic ∉ branches → t.pc = s.pc + 1) ∧
  (∀ s : State, s.run = .running → s.pc = s.prog.length → step s = .next (setRun s .ended))

/-- R16, R92 (decision D17 for the R-format three): an instruction that is none of the eight flag writers leaves all
four flags. -/
def Obligations.OnlyFlagWritersWriteFlags : Prop :=
  ∀ (i : Instr) (s t : State), exec i s = .next t → i.mnemonic ∉ flagWriters → t.flags = s.flags

/-- R11, R13: an instruction writes no register but its destination (the link register for `BL`), and register 31 as
destination discards the write: every register then reads as before. -/
def Obligations.OnlyDestinationIsWritten : Prop :=
  ∀ (i : Instr) (s t : State), exec i s = .next t →
    (∀ r, i.destination ≠ some r → readReg t r = readReg s r) ∧
    (i.destination = some 31 → ∀ r, readReg t r = readReg s r) ∧ readReg t 31 = 0

/-- R30, R37: only the four stores write data memory. -/
def Obligations.OnlyStoresWriteMemory : Prop :=
  ∀ (i : Instr) (s t : State), exec i s = .next t → i.mnemonic ∉ storeMnemonics → SameMemory s t

/-- R43 (R19): a fetch at an index returns the entry as it was when the run began, after any number of steps;
MEM_SIZE, MEM_INIT and OPTAB stay as well. -/
def Obligations.ProgramStoreNeverChanges : Prop :=
  ∀ (k : Nat) (s t : State), hostSteps k s = .next t →
    (∀ i, progEntry t i = progEntry s i) ∧ t.memSize = s.memSize ∧ t.memInit = s.memInit ∧ t.optab = s.optab

/-- R20, R21, R186: a step appends to the trace its own index or nothing, and to the output sink at most one event. -/
def Obligations.TraceAndOutputOnlyGrow : Prop :=
  ∀ s t : State, step s = .next t →
    (t.trace = s.trace ∨ t.trace = s.trace ++ [s.pc]) ∧ (t.out = s.out ∨ ∃ e, t.out = s.out ++ [e])

/-- R196 to R198 (the record of the failure is decision D19): an instruction that ends a running run as Failed is one of
the fourteen that can fail, and it has changed nothing but what the failure writes. -/
def Obligations.FailuresArePrecise : Prop :=
  ∀ (i : Instr) (s t : State), exec i s = .next t → s.run = .running → t.run = .failed →
    i.mnemonic ∈ failingMnemonics ∧ ∃ cause info, TookFailure cause info (some i.mnemonic) s t

/-- R188 (the run states are decision D28; that an out-of-range `pc` is tested at the start of a step is D20; what a
failure leaves is D19, log 5, and that an illegal word fails is D8): a step ends a run exactly where `pc` is out of
range, the instruction is `HALT` or `DUMP`, the word is illegal, or the instruction meets its failing condition of
R197. The first three leave the run Ended, the other two take the failure. A `B` to its own index never ends. -/
def Obligations.RunEndsInFourWays : Prop :=
  (∀ s t : State, s.run = .running → step s = .next t →
    (t.run ≠ .running ↔
      (s.pc < 0 ∨ s.pc ≥ s.prog.length) ∨
      ∃ e, progEntry s s.pc = some e ∧
        (decode e.word s.optab = .invalid ∨ ∃ i, decode e.word s.optab = .instr i ∧
          (i = .halt ∨ i = .dump ∨ FailsIn i (beginStep s)))) ∧
    (s.pc < 0 ∨ s.pc ≥ s.prog.length → t.run = .ended) ∧
    (∀ e, progEntry s s.pc = some e →
      (decode e.word s.optab = .instr .halt ∨ decode e.word s.optab = .instr .dump → t.run = .ended) ∧
      (decode e.word s.optab = .invalid → TookFailure .invalidEncoding s.pc none (beginStep s) t) ∧
      (∀ i, decode e.word s.optab = .instr i → FailsIn i (beginStep s) →
        ∃ cause info, TookFailure cause info (some i.mnemonic) (beginStep s) t))) ∧
  (∀ (s : State) (e : ProgEntry) (a k : Nat), s.run = .running → progEntry s s.pc = some e →
    decode e.word s.optab = .instr (.b a) → a < 2 ^ 26 → s.pc = (a : Int) →
    ∃ t, hostSteps k s = .next t ∧ t.run = .running ∧ t.pc = s.pc)

/-! ## Reset, invariant, host -/

/-- R215, R25 (the values but those of SP and FP are decision D18): what reset leaves, for every value of the
parameters. -/
def Obligations.ResetValues : Prop :=
  ∀ (n : Nat) (m : Memory) (p : List ProgEntry) (tab : List OpRow) (s : State), n < 2 ^ 63 →
    s = State.resetWith n m p tab →
    (readReg s 28).toInt = n ∧ (readReg s 29).toInt = n ∧ (∀ r : Reg, r ≠ 28 → r ≠ 29 → readReg s r = 0) ∧
    s.pc = 0 ∧ s.flags = ⟨false, false, false, false⟩ ∧ s.run = .idle ∧ (∀ a, readByte s a = Memory.read m a) ∧
    s.trace = [] ∧ s.out = [] ∧ s.fault = none ∧
    s.prog = p ∧ s.memSize = n ∧ s.memInit = m ∧ s.optab = tab

/-- The invariant holds after reset, for parameters as R5, R62 and R218 ask for and a program whose indices are safe
integers; and so at `State.reset` (logs 1, 2, 3). The fault latch then agrees with the run latch. -/
def Obligations.InvariantAtReset : Prop :=
  (∀ (n : Nat) (m : Memory) (p : List ProgEntry) (tab : List OpRow), ConfigOk (State.resetWith n m p tab) →
    Inv (State.resetWith n m p tab) ∧ LatchIffFailed (State.resetWith n m p tab)) ∧
  Inv State.reset ∧ LatchIffFailed State.reset

/-- Every step keeps the invariant: memory canonical and inside MEM_SIZE (R30), `pc` a safe integer (R14), `Z` and `N`
never both set (R158), only indices of the program on the trace (R187), the fault latch set in a failed run, clear in an
idle or running one, and exact about its index (R198), one Error event with the latch set and none without it (R198,
R201), a Dump event only in an ended run (R181). Where the latch is set exactly in a failed run, which only the host's
`stop` of a failed machine ends (R207), every step keeps that too. -/
def Obligations.StepKeepsInvariant : Prop :=
  ∀ s t : State, Inv s → step s = .next t → Inv t ∧ (LatchIffFailed s → LatchIffFailed t)

/-- R207, R216 (decision D28): `start` does nothing on a running machine and otherwise resets it and sets Running.
`stop` sets Ended on every machine, running, idle, ended or failed, and changes nothing else (log 10). -/
def Obligations.HostStartAndStop : Prop :=
  ∀ s : State,
    (s.run = .running → hostStart s = s) ∧
    (s.run ≠ .running →
      hostStart s = setRun (State.resetWith s.memSize s.memInit s.prog s.optab) .running) ∧
    hostStop s = setRun s .ended ∧ (hostStart s).run = .running ∧
    (Inv s → Inv (hostStart s) ∧ LatchIffFailed (hostStart s)) ∧ (Inv s → Inv (hostStop s))

/-! ## Assembler and formatter -/

/-- R12, R77, R176 (that `IP0` is 16 and `IP1` 17 is decision D27): the names of a register, in any letter case, parse
to the register. -/
def Obligations.RegisterNamesParse : Prop :=
  ∀ r : Reg, parseReg (regName r) = some r ∧ parseReg ((regName r).map Char.toLower) = some r ∧
    ∀ a, regAlias r = some a → parseReg a = some r ∧ parseReg (a.map Char.toLower) = some r

/-- R69, R86 (the text forms are decisions D25, D29): assembling the rendering of an instruction without a label gives
its word again, for every opcode map that R62 admits. -/
def Obligations.AssemblingARenderingGivesTheWord : Prop :=
  ∀ tab, OptabOk tab → ∀ (i : Instr) (labels : List (Text × Nat)) (line : Nat), i.wellFormed = true →
    (i.mnemonic ∉ branches ∨ i.mnemonic = .br) → i.mnemonic.format ≠ .Z →
    assembleLine labels ⟨line, spelling i.mnemonic, ' ' :: showOperands (formOf i.mnemonic) (encode i tab)⟩ tab =
      .ok ⟨encode i tab, [], line⟩

/-- R84 (decision D34): a program that assembles without error has one entry per instruction line, in order, so the
indices of pass 1 are exact; every label is bound to an index up to PROG_LEN, and an operand gets an index that its
label is bound to (which of several is free, log 15). -/
def Obligations.AssembledProgramDropsNoLine : Prop :=
  ∀ (src : Text) (tab : List OpRow) (p : Program), assemble src tab = .program p →
    p.entries.map ProgEntry.line =
      (passOne 1 (sourceLines [] src) ⟨[], []⟩).candidates.map Candidate.line ∧
    (∀ l ∈ p.labels, l.2 ≤ p.entries.length) ∧
    ∀ name k, (labelIndex p.labels name = some k → (name, k) ∈ p.labels) ∧
      (labelBindings p.labels name = [k] → labelIndex p.labels name = some k)
end

