-- ==== Sys2Proof/Laws/Alu.lean ====
section
/-! SUPPORT. The operations of the ALU and the readings of a value, in the terms of the word library. -/

namespace Sys2Proof.Machine

theorem wrap64_toInt (n : Int) : (wrap64 n).toInt = n.bmod (2 ^ 64) := by simp [wrap64]

theorem aluAdd_eq (a b : Word) : aluAdd a b = a + b := by
  apply BitVec.eq_of_toInt_eq
  simp [aluAdd, wrap64]

theorem aluSub_eq (a b : Word) : aluSub a b = a - b := by
  apply BitVec.eq_of_toInt_eq
  simp [aluSub, wrap64]

theorem aluMul_eq (a b : Word) : aluMul a b = a * b := by
  apply BitVec.eq_of_toInt_eq
  simp [aluMul, wrap64]

/-- An immediate that fits its field is its own value (R60). -/
theorem imm12Operand_eq {imm : Nat} (h : imm < 4096) : imm12Operand imm = BitVec.ofNat 64 imm := by
  simp [imm12Operand, zext, Nat.mod_eq_of_lt h]

/-- An immediate is never negative (R60). -/
theorem imm12Operand_toInt {imm : Nat} (h : imm < 4096) : (imm12Operand imm).toInt = imm := by
  rw [imm12Operand_eq h, BitVec.toInt_eq_toNat_cond, BitVec.toNat_ofNat]
  split <;> omega

theorem imm16Operand_eq {imm : Nat} (h : imm < 65536) : imm16Operand imm = BitVec.ofNat 64 imm := by
  simp [imm16Operand, zext, Nat.mod_eq_of_lt h]

theorem shiftDistance_eq {n : Nat} (h : n < 64) : shiftDistance n = n := Nat.mod_eq_of_lt h

theorem effectiveAddress_eq (s : State) (rn : Reg) {dt : Nat} (h : dt < 512) :
    effectiveAddress s rn dt = (readReg s rn).toInt + (dt : Int) := by
  unfold effectiveAddress readSigned
  omega

theorem target26_eq {a : Nat} (h : a < 2 ^ 26) : target26 a = a := by
  unfold target26
  omega

theorem target19_eq {a : Nat} (h : a < 2 ^ 19) : target19 a = a := by
  unfold target19
  omega

end Sys2Proof.Machine
end

