-- ==== Sys2Proof/Laws/State.lean ====
section
/-! SUPPORT. One lemma per field per update of the state, true by `rfl`, so that no later proof unfolds a record
update. -/

namespace Sys2Proof.Machine

variable (s : State)

@[simp] theorem setPc_regs (t : Int) : (setPc s t).regs = s.regs := rfl
@[simp] theorem setPc_pc (t : Int) : (setPc s t).pc = t := rfl
@[simp] theorem setPc_flags (t : Int) : (setPc s t).flags = s.flags := rfl
@[simp] theorem setPc_run (t : Int) : (setPc s t).run = s.run := rfl
@[simp] theorem setPc_mem (t : Int) : (setPc s t).mem = s.mem := rfl
@[simp] theorem setPc_trace (t : Int) : (setPc s t).trace = s.trace := rfl
@[simp] theorem setPc_out (t : Int) : (setPc s t).out = s.out := rfl
@[simp] theorem setPc_fault (t : Int) : (setPc s t).fault = s.fault := rfl
@[simp] theorem setPc_prog (t : Int) : (setPc s t).prog = s.prog := rfl
@[simp] theorem setPc_memSize (t : Int) : (setPc s t).memSize = s.memSize := rfl
@[simp] theorem setPc_memInit (t : Int) : (setPc s t).memInit = s.memInit := rfl
@[simp] theorem setPc_optab (t : Int) : (setPc s t).optab = s.optab := rfl

@[simp] theorem writeFlags_regs (f : Flags) : (writeFlags s f).regs = s.regs := rfl
@[simp] theorem writeFlags_pc (f : Flags) : (writeFlags s f).pc = s.pc := rfl
@[simp] theorem writeFlags_flags (f : Flags) : (writeFlags s f).flags = f := rfl
@[simp] theorem writeFlags_run (f : Flags) : (writeFlags s f).run = s.run := rfl
@[simp] theorem writeFlags_mem (f : Flags) : (writeFlags s f).mem = s.mem := rfl
@[simp] theorem writeFlags_trace (f : Flags) : (writeFlags s f).trace = s.trace := rfl
@[simp] theorem writeFlags_out (f : Flags) : (writeFlags s f).out = s.out := rfl
@[simp] theorem writeFlags_fault (f : Flags) : (writeFlags s f).fault = s.fault := rfl
@[simp] theorem writeFlags_prog (f : Flags) : (writeFlags s f).prog = s.prog := rfl
@[simp] theorem writeFlags_memSize (f : Flags) : (writeFlags s f).memSize = s.memSize := rfl
@[simp] theorem writeFlags_memInit (f : Flags) : (writeFlags s f).memInit = s.memInit := rfl
@[simp] theorem writeFlags_optab (f : Flags) : (writeFlags s f).optab = s.optab := rfl

@[simp] theorem setRun_regs (r : RunState) : (setRun s r).regs = s.regs := rfl
@[simp] theorem setRun_pc (r : RunState) : (setRun s r).pc = s.pc := rfl
@[simp] theorem setRun_flags (r : RunState) : (setRun s r).flags = s.flags := rfl
@[simp] theorem setRun_run (r : RunState) : (setRun s r).run = r := rfl
@[simp] theorem setRun_mem (r : RunState) : (setRun s r).mem = s.mem := rfl
@[simp] theorem setRun_trace (r : RunState) : (setRun s r).trace = s.trace := rfl
@[simp] theorem setRun_out (r : RunState) : (setRun s r).out = s.out := rfl
@[simp] theorem setRun_fault (r : RunState) : (setRun s r).fault = s.fault := rfl
@[simp] theorem setRun_prog (r : RunState) : (setRun s r).prog = s.prog := rfl
@[simp] theorem setRun_memSize (r : RunState) : (setRun s r).memSize = s.memSize := rfl
@[simp] theorem setRun_memInit (r : RunState) : (setRun s r).memInit = s.memInit := rfl
@[simp] theorem setRun_optab (r : RunState) : (setRun s r).optab = s.optab := rfl

@[simp] theorem emit_regs (e : Event) : (emit s e).regs = s.regs := rfl
@[simp] theorem emit_pc (e : Event) : (emit s e).pc = s.pc := rfl
@[simp] theorem emit_flags (e : Event) : (emit s e).flags = s.flags := rfl
@[simp] theorem emit_run (e : Event) : (emit s e).run = s.run := rfl
@[simp] theorem emit_mem (e : Event) : (emit s e).mem = s.mem := rfl
@[simp] theorem emit_trace (e : Event) : (emit s e).trace = s.trace := rfl
@[simp] theorem emit_out (e : Event) : (emit s e).out = s.out ++ [e] := rfl
@[simp] theorem emit_fault (e : Event) : (emit s e).fault = s.fault := rfl
@[simp] theorem emit_prog (e : Event) : (emit s e).prog = s.prog := rfl
@[simp] theorem emit_memSize (e : Event) : (emit s e).memSize = s.memSize := rfl
@[simp] theorem emit_memInit (e : Event) : (emit s e).memInit = s.memInit := rfl
@[simp] theorem emit_optab (e : Event) : (emit s e).optab = s.optab := rfl

@[simp] theorem pushTrace_regs (i : Int) : (pushTrace s i).regs = s.regs := rfl
@[simp] theorem pushTrace_pc (i : Int) : (pushTrace s i).pc = s.pc := rfl
@[simp] theorem pushTrace_flags (i : Int) : (pushTrace s i).flags = s.flags := rfl
@[simp] theorem pushTrace_run (i : Int) : (pushTrace s i).run = s.run := rfl
@[simp] theorem pushTrace_mem (i : Int) : (pushTrace s i).mem = s.mem := rfl
@[simp] theorem pushTrace_trace (i : Int) : (pushTrace s i).trace = s.trace ++ [i] := rfl
@[simp] theorem pushTrace_out (i : Int) : (pushTrace s i).out = s.out := rfl
@[simp] theorem pushTrace_fault (i : Int) : (pushTrace s i).fault = s.fault := rfl
@[simp] theorem pushTrace_prog (i : Int) : (pushTrace s i).prog = s.prog := rfl
@[simp] theorem pushTrace_memSize (i : Int) : (pushTrace s i).memSize = s.memSize := rfl
@[simp] theorem pushTrace_memInit (i : Int) : (pushTrace s i).memInit = s.memInit := rfl
@[simp] theorem pushTrace_optab (i : Int) : (pushTrace s i).optab = s.optab := rfl

@[simp] theorem setMem_regs (m : Memory) : (setMem s m).regs = s.regs := rfl
@[simp] theorem setMem_pc (m : Memory) : (setMem s m).pc = s.pc := rfl
@[simp] theorem setMem_flags (m : Memory) : (setMem s m).flags = s.flags := rfl
@[simp] theorem setMem_run (m : Memory) : (setMem s m).run = s.run := rfl
@[simp] theorem setMem_mem (m : Memory) : (setMem s m).mem = m := rfl
@[simp] theorem setMem_trace (m : Memory) : (setMem s m).trace = s.trace := rfl
@[simp] theorem setMem_out (m : Memory) : (setMem s m).out = s.out := rfl
@[simp] theorem setMem_fault (m : Memory) : (setMem s m).fault = s.fault := rfl
@[simp] theorem setMem_prog (m : Memory) : (setMem s m).prog = s.prog := rfl
@[simp] theorem setMem_memSize (m : Memory) : (setMem s m).memSize = s.memSize := rfl
@[simp] theorem setMem_memInit (m : Memory) : (setMem s m).memInit = s.memInit := rfl
@[simp] theorem setMem_optab (m : Memory) : (setMem s m).optab = s.optab := rfl

@[simp] theorem beginStep_regs : (beginStep s).regs = s.regs := rfl
@[simp] theorem beginStep_pc : (beginStep s).pc = s.pc + 1 := rfl
@[simp] theorem beginStep_flags : (beginStep s).flags = s.flags := rfl
@[simp] theorem beginStep_run : (beginStep s).run = s.run := rfl
@[simp] theorem beginStep_mem : (beginStep s).mem = s.mem := rfl
@[simp] theorem beginStep_trace : (beginStep s).trace = s.trace ++ [s.pc] := rfl
@[simp] theorem beginStep_out : (beginStep s).out = s.out := rfl
@[simp] theorem beginStep_fault : (beginStep s).fault = s.fault := rfl
@[simp] theorem beginStep_prog : (beginStep s).prog = s.prog := rfl
@[simp] theorem beginStep_memSize : (beginStep s).memSize = s.memSize := rfl
@[simp] theorem beginStep_memInit : (beginStep s).memInit = s.memInit := rfl
@[simp] theorem beginStep_optab : (beginStep s).optab = s.optab := rfl

@[simp] theorem raiseFailure_regs (c : Cause) (info : Int) (mn : Option Mnemonic) :
    (raiseFailure s c info mn).regs = s.regs := rfl
@[simp] theorem raiseFailure_pc (c : Cause) (info : Int) (mn : Option Mnemonic) :
    (raiseFailure s c info mn).pc = s.pc := rfl
@[simp] theorem raiseFailure_flags (c : Cause) (info : Int) (mn : Option Mnemonic) :
    (raiseFailure s c info mn).flags = s.flags := rfl
@[simp] theorem raiseFailure_run (c : Cause) (info : Int) (mn : Option Mnemonic) :
    (raiseFailure s c info mn).run = .failed := rfl
@[simp] theorem raiseFailure_mem (c : Cause) (info : Int) (mn : Option Mnemonic) :
    (raiseFailure s c info mn).mem = s.mem := rfl
@[simp] theorem raiseFailure_trace (c : Cause) (info : Int) (mn : Option Mnemonic) :
    (raiseFailure s c info mn).trace = s.trace := rfl
@[simp] theorem raiseFailure_out (c : Cause) (info : Int) (mn : Option Mnemonic) :
    (raiseFailure s c info mn).out = s.out ++ [.error c mn (mn.map Mnemonic.format)] := rfl
@[simp] theorem raiseFailure_prog (c : Cause) (info : Int) (mn : Option Mnemonic) :
    (raiseFailure s c info mn).prog = s.prog := rfl
@[simp] theorem raiseFailure_memSize (c : Cause) (info : Int) (mn : Option Mnemonic) :
    (raiseFailure s c info mn).memSize = s.memSize := rfl
@[simp] theorem raiseFailure_memInit (c : Cause) (info : Int) (mn : Option Mnemonic) :
    (raiseFailure s c info mn).memInit = s.memInit := rfl
@[simp] theorem raiseFailure_optab (c : Cause) (info : Int) (mn : Option Mnemonic) :
    (raiseFailure s c info mn).optab = s.optab := rfl

/-- The fault latch after a failure: the first failure is kept (R196). -/
theorem raiseFailure_fault (c : Cause) (info : Int) (mn : Option Mnemonic) :
    (raiseFailure s c info mn).fault = (match s.fault with
      | some f => some f
      | none => some ⟨c, currentIndex s, info⟩) := rfl

@[simp] theorem raiseFailure_fault_empty (h : s.fault = none) (c : Cause) (info : Int) (mn : Option Mnemonic) :
    (raiseFailure s c info mn).fault = some ⟨c, s.pc - 1, info⟩ := by
  rw [raiseFailure_fault, h]; rfl

@[simp] theorem writeReg_pc (r : Reg) (v : Word) : (writeReg s r v).pc = s.pc := by
  unfold writeReg; split <;> rfl
@[simp] theorem writeReg_flags (r : Reg) (v : Word) : (writeReg s r v).flags = s.flags := by
  unfold writeReg; split <;> rfl
@[simp] theorem writeReg_run (r : Reg) (v : Word) : (writeReg s r v).run = s.run := by
  unfold writeReg; split <;> rfl
@[simp] theorem writeReg_mem (r : Reg) (v : Word) : (writeReg s r v).mem = s.mem := by
  unfold writeReg; split <;> rfl
@[simp] theorem writeReg_trace (r : Reg) (v : Word) : (writeReg s r v).trace = s.trace := by
  unfold writeReg; split <;> rfl
@[simp] theorem writeReg_out (r : Reg) (v : Word) : (writeReg s r v).out = s.out := by
  unfold writeReg; split <;> rfl
@[simp] theorem writeReg_fault (r : Reg) (v : Word) : (writeReg s r v).fault = s.fault := by
  unfold writeReg; split <;> rfl
@[simp] theorem writeReg_prog (r : Reg) (v : Word) : (writeReg s r v).prog = s.prog := by
  unfold writeReg; split <;> rfl
@[simp] theorem writeReg_memSize (r : Reg) (v : Word) : (writeReg s r v).memSize = s.memSize := by
  unfold writeReg; split <;> rfl
@[simp] theorem writeReg_memInit (r : Reg) (v : Word) : (writeReg s r v).memInit = s.memInit := by
  unfold writeReg; split <;> rfl
@[simp] theorem writeReg_optab (r : Reg) (v : Word) : (writeReg s r v).optab = s.optab := by
  unfold writeReg; split <;> rfl

section reset
variable (n : Nat) (m : Memory) (p : List ProgEntry) (tab : List OpRow)

@[simp] theorem resetWith_regs : (State.resetWith n m p tab).regs = resetRegs n := rfl
@[simp] theorem resetWith_pc : (State.resetWith n m p tab).pc = 0 := rfl
@[simp] theorem resetWith_flags : (State.resetWith n m p tab).flags = ⟨false, false, false, false⟩ := rfl
@[simp] theorem resetWith_run : (State.resetWith n m p tab).run = .idle := rfl
@[simp] theorem resetWith_mem : (State.resetWith n m p tab).mem = m := rfl
@[simp] theorem resetWith_trace : (State.resetWith n m p tab).trace = [] := rfl
@[simp] theorem resetWith_out : (State.resetWith n m p tab).out = [] := rfl
@[simp] theorem resetWith_fault : (State.resetWith n m p tab).fault = none := rfl
@[simp] theorem resetWith_prog : (State.resetWith n m p tab).prog = p := rfl
@[simp] theorem resetWith_memSize : (State.resetWith n m p tab).memSize = n := rfl
@[simp] theorem resetWith_memInit : (State.resetWith n m p tab).memInit = m := rfl
@[simp] theorem resetWith_optab : (State.resetWith n m p tab).optab = tab := rfl

end reset

end Sys2Proof.Machine
end

