-- ==== Sys2Proof/Laws/Memory.lean ====
section
/-! SUPPORT. Data memory: a read after a write, the canonical form kept by every operation, and equal reads giving
equal memories. -/

namespace Sys2Proof.Machine

/-! ## Reads -/

theorem Memory.read_of_above {m : Memory} {a : Nat} (h : ∀ c ∈ m, a < c.1) : Memory.read m a = Memory.unlisted := by
  induction m with
  | nil => rfl
  | cons c m ih =>
    obtain ⟨k, b⟩ := c
    have hk : a < k := h (k, b) (by simp)
    have hne : k ≠ a := by omega
    simp only [Memory.read, hne, if_false]
    exact ih (fun c hc => h c (by simp [hc]))

theorem Memory.read_put (a : Nat) (b : Byte) (m : Memory) (hm : ∀ c ∈ m, a < c.1) (x : Nat) :
    Memory.read (Memory.put a b m) x = if x = a then b else Memory.read m x := by
  unfold Memory.put
  split
  · next hb =>
    by_cases hx : x = a
    · subst hx; simp [hb, Memory.read_of_above hm]
    · simp [hx]
  · by_cases hx : x = a
    · simp [Memory.read, hx]
    · have : a ≠ x := fun e => hx e.symm
      simp [Memory.read, hx, this]

/-- A read after a write: the written address gives the byte written, every other address what it gave. -/
theorem Memory.read_write {m : Memory} (hm : Memory.wf m) (a : Nat) (b : Byte) (x : Nat) :
    Memory.read (Memory.write m a b) x = if x = a then b else Memory.read m x := by
  induction m with
  | nil =>
    simp only [Memory.write]
    rw [Memory.read_put _ _ _ (by simp)]
  | cons c m ih =>
    obtain ⟨k, d⟩ := c
    obtain ⟨hp, hz⟩ := hm
    obtain ⟨hk, hp⟩ := List.pairwise_cons.mp hp
    have hwf : Memory.wf m := ⟨hp, fun c hc => hz c (by simp [hc])⟩
    simp only [Memory.write]
    split
    · next hlt =>
      apply Memory.read_put
      intro c hc
      rcases List.mem_cons.mp hc with rfl | hc
      · exact hlt
      · exact lt_trans hlt (hk c hc)
    · split
      · next heq =>
        subst heq
        rw [Memory.read_put _ _ _ (fun c hc => hk c hc)]
        by_cases hx : x = a
        · simp [hx]
        · have : a ≠ x := fun e => hx e.symm
          simp [Memory.read, hx, this]
      · next hnlt hne =>
        simp only [Memory.read]
        by_cases hkx : k = x
        · subst hkx
          have : k ≠ a := fun e => hne e.symm
          simp [this]
        · simp [hkx, ih hwf]

/-! ## The canonical form -/

theorem Memory.put_mem {a : Nat} {b : Byte} {m : Memory} {c : Host.Cell} (h : c ∈ Memory.put a b m) :
    (c = (a, b) ∧ b ≠ Memory.unlisted) ∨ c ∈ m := by
  unfold Memory.put at h
  split at h
  · exact .inr h
  · next hb =>
    rcases List.mem_cons.mp h with h | h
    · exact .inl ⟨h, hb⟩
    · exact .inr h

theorem Memory.wf_put {a : Nat} {b : Byte} {m : Memory} (hm : Memory.wf m) (ha : ∀ c ∈ m, a < c.1) :
    Memory.wf (Memory.put a b m) := by
  refine ⟨?_, ?_⟩
  · unfold Memory.put
    split
    · exact hm.1
    · exact List.pairwise_cons.mpr ⟨ha, hm.1⟩
  · intro c hc
    rcases Memory.put_mem hc with ⟨rfl, hb⟩ | hc
    · exact hb
    · exact hm.2 c hc

/-- A write lists no address but those listed before and the one written. -/
theorem Memory.write_mem {m : Memory} {a : Nat} {b : Byte} {c : Host.Cell} (h : c ∈ Memory.write m a b) :
    c.1 = a ∨ c ∈ m := by
  induction m with
  | nil =>
    rcases Memory.put_mem h with ⟨rfl, _⟩ | h
    · exact .inl rfl
    · exact .inr h
  | cons d m ih =>
    obtain ⟨k, e⟩ := d
    simp only [Memory.write] at h
    split at h
    · rcases Memory.put_mem h with ⟨rfl, _⟩ | h
      · exact .inl rfl
      · exact .inr h
    · split at h
      · rcases Memory.put_mem h with ⟨rfl, _⟩ | h
        · exact .inl rfl
        · exact .inr (by simp [h])
      · rcases List.mem_cons.mp h with rfl | h
        · exact .inr (by simp)
        · rcases ih h with h | h
          · exact .inl h
          · exact .inr (by simp [h])

/-- A write keeps the canonical form. -/
theorem Memory.wf_write {m : Memory} (hm : Memory.wf m) (a : Nat) (b : Byte) : Memory.wf (Memory.write m a b) := by
  induction m with
  | nil => exact Memory.wf_put hm (by simp)
  | cons c m ih =>
    obtain ⟨k, d⟩ := c
    have hfull := hm
    obtain ⟨hp, hz⟩ := hm
    obtain ⟨hk, hp⟩ := List.pairwise_cons.mp hp
    have hwf : Memory.wf m := ⟨hp, fun c hc => hz c (by simp [hc])⟩
    simp only [Memory.write]
    split
    · next hlt =>
      apply Memory.wf_put hfull
      intro c hc
      rcases List.mem_cons.mp hc with rfl | hc
      · exact hlt
      · exact lt_trans hlt (hk c hc)
    · split
      · next heq =>
        subst heq
        exact Memory.wf_put hwf (fun c hc => hk c hc)
      · next hnlt hne =>
        refine ⟨List.pairwise_cons.mpr ⟨?_, (ih hwf).1⟩, ?_⟩
        · intro c hc
          rcases Memory.write_mem hc with h | h
          · show k < c.1
            omega
          · exact hk c h
        · intro c hc
          rcases List.mem_cons.mp hc with rfl | hc
          · exact hz _ (by simp)
          · exact (ih hwf).2 c hc

theorem Memory.below_write {m : Memory} {a n : Nat} (hm : Memory.below m n) (ha : a < n) (b : Byte) :
    Memory.below (Memory.write m a b) n := by
  intro c hc
  rcases Memory.write_mem hc with h | h
  · omega
  · exact hm c h

/-- Storing bytes keeps the canonical form. -/
theorem Memory.wf_writeBytes {m : Memory} (hm : Memory.wf m) (a : Nat) (bs : List Byte) :
    Memory.wf (Memory.writeBytes m a bs) := by
  induction bs generalizing m a with
  | nil => exact hm
  | cons b bs ih => exact ih (Memory.wf_write hm a b) (a + 1)

theorem Memory.below_writeBytes {m : Memory} {n : Nat} (hm : Memory.below m n) (a : Nat) (bs : List Byte)
    (ha : a + bs.length ≤ n) : Memory.below (Memory.writeBytes m a bs) n := by
  induction bs generalizing m a with
  | nil => exact hm
  | cons b bs ih =>
    simp only [List.length_cons] at ha
    exact ih (Memory.below_write hm (by omega) b) (a + 1) (by omega)

/-- A read after bytes were stored: inside the stored range the byte stored there, outside what it was. -/
theorem Memory.read_writeBytes {m : Memory} (hm : Memory.wf m) (a : Nat) (bs : List Byte) (x : Nat) :
    Memory.read (Memory.writeBytes m a bs) x =
      if a ≤ x ∧ x < a + bs.length then bs.getD (x - a) 0 else Memory.read m x := by
  induction bs generalizing m a with
  | nil =>
    simp [Memory.writeBytes]
  | cons b bs ih =>
    simp only [Memory.writeBytes, ih (Memory.wf_write hm a b) (a + 1), Memory.read_write hm, List.length_cons]
    rcases Nat.lt_trichotomy x a with h | h | h
    · rw [if_neg (by omega), if_neg (by omega), if_neg (by omega)]
    · subst h
      rw [if_neg (by omega), if_pos rfl, if_pos (by omega)]
      simp
    · by_cases hx : x < a + 1 + bs.length
      · rw [if_pos (by omega), if_pos (by omega)]
        obtain ⟨d, rfl⟩ := Nat.exists_eq_add_of_lt h
        have h1 : a + d + 1 - (a + 1) = d := by omega
        have h2 : a + d + 1 - a = d + 1 := by omega
        simp [h1, h2]
      · rw [if_neg (by omega), if_neg (by omega), if_neg (by omega)]

/-- Equal memories are equal data: two canonical memories that read alike are the same list. -/
theorem Memory.ext_read {m m' : Memory} (hm : Memory.wf m) (hm' : Memory.wf m')
    (h : ∀ a, Memory.read m a = Memory.read m' a) : m = m' := by
  induction m generalizing m' with
  | nil =>
    cases m' with
    | nil => rfl
    | cons c m' =>
      obtain ⟨k, b⟩ := c
      have hb := hm'.2 (k, b) (by simp)
      have := h k
      simp [Memory.read] at this
      exact absurd this.symm hb
  | cons c m ih =>
    obtain ⟨k, b⟩ := c
    have hb : b ≠ Memory.unlisted := hm.2 (k, b) (by simp)
    obtain ⟨hk, hp⟩ := List.pairwise_cons.mp hm.1
    have hwf : Memory.wf m := ⟨hp, fun c hc => hm.2 c (by simp [hc])⟩
    cases m' with
    | nil =>
      have := h k
      simp [Memory.read] at this
      exact absurd this hb
    | cons c' m' =>
      obtain ⟨k', b'⟩ := c'
      have hb' : b' ≠ Memory.unlisted := hm'.2 (k', b') (by simp)
      obtain ⟨hk', hp'⟩ := List.pairwise_cons.mp hm'.1
      have hwf' : Memory.wf m' := ⟨hp', fun c hc => hm'.2 c (by simp [hc])⟩
      have hkk : k = k' := by
        rcases Nat.lt_trichotomy k k' with hlt | heq | hgt
        · have h1 : Memory.read ((k', b') :: m') k = Memory.unlisted := by
            apply Memory.read_of_above
            intro c hc
            rcases List.mem_cons.mp hc with rfl | hc
            · exact hlt
            · exact lt_trans hlt (hk' c hc)
          have h2 := h k
          rw [h1] at h2
          simp [Memory.read] at h2
          exact absurd h2 hb
        · exact heq
        · have h1 : Memory.read ((k, b) :: m) k' = Memory.unlisted := by
            apply Memory.read_of_above
            intro c hc
            rcases List.mem_cons.mp hc with rfl | hc
            · exact hgt
            · exact lt_trans hgt (hk c hc)
          have h2 := h k'
          rw [h1] at h2
          simp [Memory.read] at h2
          exact absurd h2.symm hb'
      subst hkk
      have hbb : b = b' := by
        have := h k
        simpa [Memory.read] using this
      subst hbb
      have : m = m' := by
        apply ih hwf hwf'
        intro a
        by_cases ha : k = a
        · subst ha
          rw [Memory.read_of_above (fun c hc => hk c hc), Memory.read_of_above (fun c hc => hk' c hc)]
        · have := h a
          simpa [Memory.read, ha] using this
      rw [this]

/-- The memory of `State.reset` is canonical. -/
theorem reset_memory_wf : Memory.wf State.reset.mem := by
  simp [State.reset, Memory.wf]

end Sys2Proof.Machine
end

