-- ==== Sys2Proof/Laws/Registers.lean ====
section
/-! SUPPORT. Reading a register after each update of the state (R11). -/

namespace Sys2Proof.Machine

variable (s : State)

@[simp] theorem readReg_zero : readReg s 31 = 0 := by simp [readReg]

/-- A register reads as its storage does: two states with the same storage read alike. -/
theorem readReg_congr {s t : State} (h : t.regs = s.regs) (r : Reg) : readReg t r = readReg s r := by
  unfold readReg; rw [h]

@[simp] theorem readReg_setPc (t : Int) (r : Reg) : readReg (setPc s t) r = readReg s r := rfl
@[simp] theorem readReg_writeFlags (f : Flags) (r : Reg) : readReg (writeFlags s f) r = readReg s r := rfl
@[simp] theorem readReg_setRun (x : RunState) (r : Reg) : readReg (setRun s x) r = readReg s r := rfl
@[simp] theorem readReg_emit (e : Event) (r : Reg) : readReg (emit s e) r = readReg s r := rfl
@[simp] theorem readReg_setMem (m : Memory) (r : Reg) : readReg (setMem s m) r = readReg s r := rfl
@[simp] theorem readReg_beginStep (r : Reg) : readReg (beginStep s) r = readReg s r := rfl
@[simp] theorem readReg_raiseFailure (c : Cause) (i : Int) (mn : Option Mnemonic) (r : Reg) :
    readReg (raiseFailure s c i mn) r = readReg s r := rfl

/-- A write to register 31 is discarded. -/
@[simp] theorem writeReg_zero (v : Word) : writeReg s 31 v = s := by simp [writeReg]

/-- A register below 31 reads the value written. -/
theorem readReg_writeReg_same {r : Reg} (h : r ≠ 31) (v : Word) : readReg (writeReg s r v) r = v := by
  have hlt := r.isLt
  have hne : r.val ≠ 31 := fun e => h (Fin.ext e)
  have hr : r.val < 31 := by omega
  simp [readReg, writeReg, hr]

/-- Every other register is left alone. -/
theorem readReg_writeReg_other {r q : Reg} (h : q ≠ r) (v : Word) :
    readReg (writeReg s r v) q = readReg s q := by
  unfold readReg writeReg
  split
  · split
    · have : r.val ≠ q.val := fun e => h (Fin.ext e.symm)
      simp [this]
    · rfl
  · rfl

/-- What every register reads after a register write. -/
theorem readReg_writeReg (r q : Reg) (v : Word) :
    readReg (writeReg s r v) q = if q = r ∧ r ≠ 31 then v else readReg s q := by
  by_cases h : q = r
  · subst h
    by_cases h31 : q = 31
    · subst h31; simp
    · simp [h31, readReg_writeReg_same]
  · simp [h, readReg_writeReg_other]

end Sys2Proof.Machine
end

