-- ==== Sys2Proof/Laws/Ops.lean ====
section
/-! SUPPORT. What each shared operation can do, said once. -/

namespace Sys2Proof.Machine

theorem lowBytes_length (v : Word) (n : Nat) : (lowBytes v n).length = n := by simp [lowBytes]

theorem lowBytes_getD (v : Word) {n k : Nat} (h : k < n) : (lowBytes v n).getD k 0 = byteOf v k := by
  simp [lowBytes, List.getD, h]

theorem Memory.readBytes_length (m : Memory) (a n : Nat) : (Memory.readBytes m a n).length = n := by
  induction n generalizing a with
  | zero => rfl
  | succ n ih => simp [Memory.readBytes, ih]

theorem valueOfBytes_lt (bs : List Byte) : valueOfBytes bs < 256 ^ bs.length := by
  induction bs with
  | nil => simp [valueOfBytes]
  | cons b bs ih =>
    have hb : b.toNat < 256 := b.isLt
    simp only [valueOfBytes, List.length_cons, pow_succ]
    omega

/-- An admitted `MemRead` answers the little-endian value of its bytes (R35). -/
theorem memRead_of_admitted {s : State} {ea : Int} {n : Nat} (h : admitted s ea n) :
    memRead s ea n = some (valueOfBytes (Memory.readBytes s.mem ea.toNat n)) := by
  simp only [memRead, if_pos h]

theorem memRead_of_not_admitted {s : State} {ea : Int} {n : Nat} (h : ¬ admitted s ea n) :
    memRead s ea n = none := by
  simp only [memRead, if_neg h]

theorem memWrite_of_admitted {s : State} {ea : Int} {n : Nat} (h : admitted s ea n) (v : Word) :
    memWrite s ea n v = some (setMem s (Memory.writeBytes s.mem ea.toNat (lowBytes v n))) := by
  simp only [memWrite, if_pos h]

theorem memWrite_of_not_admitted {s : State} {ea : Int} {n : Nat} (h : ¬ admitted s ea n) (v : Word) :
    memWrite s ea n v = none := by
  simp only [memWrite, if_neg h]

/-- What a load can do: write its register with the extended value, or take AddressOutOfRange (R32, R135). -/
theorem loadOp_cases (mn : Mnemonic) (n : Nat) (ext : Nat → Word) (rt rn : Reg) (dt : Nat) (s : State) :
    (admitted s (effectiveAddress s rn dt) n ∧ loadOp mn n ext rt rn dt s =
        writeReg s rt (ext (valueOfBytes (Memory.readBytes s.mem (effectiveAddress s rn dt).toNat n)))) ∨
      (¬ admitted s (effectiveAddress s rn dt) n ∧
        loadOp mn n ext rt rn dt s = raiseFailure s .addressOutOfRange (effectiveAddress s rn dt) (some mn)) := by
  by_cases h : admitted s (effectiveAddress s rn dt) n
  · exact .inl ⟨h, by simp only [loadOp, memRead_of_admitted h]⟩
  · exact .inr ⟨h, by simp only [loadOp, memRead_of_not_admitted h]⟩

/-- What a store can do: store the low bytes, or take AddressOutOfRange (R32, R135). -/
theorem storeOp_cases (mn : Mnemonic) (n : Nat) (rt rn : Reg) (dt : Nat) (s : State) :
    (admitted s (effectiveAddress s rn dt) n ∧ storeOp mn n rt rn dt s =
        setMem s (Memory.writeBytes s.mem (effectiveAddress s rn dt).toNat (lowBytes (readReg s rt) n))) ∨
      (¬ admitted s (effectiveAddress s rn dt) n ∧
        storeOp mn n rt rn dt s = raiseFailure s .addressOutOfRange (effectiveAddress s rn dt) (some mn)) := by
  by_cases h : admitted s (effectiveAddress s rn dt) n
  · exact .inl ⟨h, by simp only [storeOp, memWrite_of_admitted h]⟩
  · exact .inr ⟨h, by simp only [storeOp, memWrite_of_not_admitted h]⟩

/-- What a conditional branch can do: jump or fall through. -/
theorem branchIf_cases (c : Bool) (t : Int) (s : State) :
    (c = true ∧ branchIf c t s = setPc s t) ∨ (c = false ∧ branchIf c t s = s) := by
  cases c <;> simp [branchIf]

theorem clampIndex_range (t : Int) : -Config.safeMax ≤ clampIndex t ∧ clampIndex t ≤ Config.safeMax := by
  unfold clampIndex Config.safeMax
  split
  · omega
  · split <;> omega

theorem target26_range (a : Nat) : -Config.safeMax ≤ target26 a ∧ target26 a ≤ Config.safeMax := by
  have : a % 2 ^ 26 < 2 ^ 26 := Nat.mod_lt _ (by decide)
  unfold target26 Config.safeMax
  omega

theorem target19_range (a : Nat) : -Config.safeMax ≤ target19 a ∧ target19 a ≤ Config.safeMax := by
  have : a % 2 ^ 19 < 2 ^ 19 := Nat.mod_lt _ (by decide)
  unfold target19 Config.safeMax
  omega

end Sys2Proof.Machine
end

