-- ==== Sys2Proof/Laws/Bits.lean ====
section
/-! SUPPORT. The bits of fields, of bytes and of extended values. -/

namespace Sys2Proof

theorem getRange_testBit {n : Nat} (w : BitVec n) (lo hi k : Nat) :
    (getRange w lo hi).testBit k = (decide (k < hi - lo + 1) && w.getLsbD (lo + k)) := by
  unfold getRange
  rw [Nat.testBit_mod_two_pow, Nat.testBit_shiftRight]
  rfl

theorem getRange_lt {n : Nat} (w : BitVec n) (lo hi : Nat) : getRange w lo hi < 2 ^ (hi - lo + 1) :=
  Nat.mod_lt _ (Nat.two_pow_pos _)

theorem byteOf_getLsbD (v : Word) (k : Nat) {j : Nat} (h : j < 8) :
    (byteOf v k).getLsbD j = v.getLsbD (8 * k + j) := by
  unfold byteOf
  rw [BitVec.getLsbD_ofNat, getRange_testBit, show 8 * k + 7 - 8 * k + 1 = 8 by omega]
  simp [h]

theorem zext_getLsbD (n v : Nat) {k : Nat} (h : k < 64) :
    (zext n v).getLsbD k = (decide (k < n) && v.testBit k) := by
  simp only [zext, BitVec.getLsbD_ofNat, h, decide_true, Bool.true_and, Nat.testBit_mod_two_pow]

/-- The sign extension of R139: bit 31 fills the upper half. -/
theorem sext32_getLsbD (v : Nat) {k : Nat} (h : k < 64) :
    (sext 32 v).getLsbD k = if k < 32 then v.testBit k else v.testBit 31 := by
  have hx : sext 32 v = (BitVec.ofNat 32 v).signExtend 64 := by
    apply BitVec.eq_of_toInt_eq
    rw [BitVec.toInt_signExtend]
    have h1 := BitVec.toInt_lt (x := BitVec.ofNat 32 v)
    have h2 := BitVec.le_toInt (BitVec.ofNat 32 v)
    unfold sext
    rw [BitVec.toInt_ofInt]
    generalize (BitVec.ofNat 32 v).toInt = z at *
    rw [Int.bmod_def, Int.bmod_def]
    simp at *
    split <;> split <;> omega
  rw [hx, BitVec.getLsbD_signExtend]
  simp only [h, decide_true, Bool.true_and, BitVec.getLsbD_ofNat, BitVec.msb_eq_getLsbD_last]
  split
  · simp [*]
  · simp

/-- Bit `k` of a little-endian value is a bit of byte `k / 8` (R33). -/
theorem valueOfBytes_testBit (bs : List Byte) (k : Nat) :
    (valueOfBytes bs).testBit k = (bs.getD (k / 8) 0).getLsbD (k % 8) := by
  induction bs generalizing k with
  | nil => simp [valueOfBytes]
  | cons b bs ih =>
    have e : valueOfBytes (b :: bs) = 2 ^ 8 * valueOfBytes bs + b.toNat := by
      simp [valueOfBytes]
      omega
    rw [e, Nat.testBit_two_pow_mul_add _ b.isLt]
    split
    · rw [show k / 8 = 0 by omega, show k % 8 = k by omega]
      simp
      rfl
    · rw [ih, show k / 8 = (k - 8) / 8 + 1 by omega, show k % 8 = (k - 8) % 8 by omega]
      simp

theorem Machine.Memory.readBytes_getD (m : Machine.Memory) (a n : Nat) {k : Nat} (h : k < n) :
    (Machine.Memory.readBytes m a n).getD k 0 = Machine.Memory.read m (a + k) := by
  induction n generalizing a k with
  | zero => omega
  | succ n ih =>
    cases k with
    | zero => simp [Machine.Memory.readBytes]
    | succ k =>
      simp only [Machine.Memory.readBytes, List.getD_cons_succ]
      rw [ih (a + 1) (by omega)]
      congr 1
      omega

end Sys2Proof
end

