-- ==== Sys2Proof/Laws/Decode.lean ====
section
/-! SUPPORT. The opcode map: its rows are pairwise disjoint, so a row that admits a word is the one that is found. -/

namespace Sys2Proof

/-- Two rows of the default table with a word in common are one row (R62). -/
theorem optab_disjoint : ∀ r ∈ optab, ∀ q ∈ optab, r.mtch &&& q.mask = q.mtch &&& r.mask → r = q := by
  decide +kernel

theorem admits_iff {r : OpRow} {w : InstrWord} : r.admits w = true ↔ w &&& r.mask = r.mtch := by
  simp [OpRow.admits]

/-- Two rows that admit one word agree where both masks look. -/
theorem agree_of_admits {w : InstrWord} {r q : OpRow} (h : r.admits w = true) (h' : q.admits w = true) :
    r.mtch &&& q.mask = q.mtch &&& r.mask := by
  rw [← admits_iff.mp h, ← admits_iff.mp h', BitVec.and_assoc, BitVec.and_assoc, BitVec.and_comm r.mask]

theorem optab_rowsFit : ∀ r ∈ optab, r.fits = true := by decide +kernel

/-- The default table is an assignment that OPTAB may be (R62). -/
theorem optabOk_default : OptabOk optab where
  oneRowEach m := by cases m <;> decide +kernel
  rowsFit := optab_rowsFit
  disjoint r hr q hq _ h h' := optab_disjoint r hr q hq (agree_of_admits h h')

/-- What a row that fits R61 is: the opcode field alone, or with the whole field of its extra condition. -/
theorem fits_cases {r : OpRow} (h : r.fits = true) :
    r.op11Min % 2 ^ r.mn.format.freeBits = 0 ∧ r.op11Max + 1 = r.op11Min + 2 ^ r.mn.format.freeBits ∧
    r.op11Max < 2 ^ 11 ∧ ∃ opcode field : InstrWord,
      opcode = setRange 0 (21 + r.mn.format.freeBits) 31 ((r.op11Min >>> r.mn.format.freeBits : Nat) : Int) ∧
      field = setRange 0 (21 + r.mn.format.freeBits) 31 (-1) ∧
      ((r.mtch = opcode ∧ r.mask = field) ∨ ∃ lo hi, r.mn.extraField = some (lo, hi) ∧
        r.mtch = setRange opcode lo hi (getRange r.mtch lo hi : Int) ∧ r.mask = setRange field lo hi (-1)) := by
  unfold OpRow.fits at h
  simp only [Bool.and_eq_true, Bool.or_eq_true, beq_iff_eq, decide_eq_true_eq] at h
  obtain ⟨⟨⟨h1, h2⟩, h3⟩, h4⟩ := h
  refine ⟨h1, h2, h3, _, _, rfl, rfl, h4.imp id fun h4 => ?_⟩
  split at h4
  · next lo hi he => exact ⟨lo, hi, he, by simpa using h4⟩
  · cases h4

/-- A mnemonic has its row in every table that OPTAB may be. -/
theorem exists_row {tab : List OpRow} (h : OptabOk tab) (m : Mnemonic) :
    ∃ r ∈ tab, r.mn = m ∧ tab.find? (fun r => r.mn == m) = some r := by
  cases hf : tab.find? (fun r => r.mn == m) with
  | none =>
    have h1 := h.oneRowEach m
    rw [List.filter_eq_nil_iff.mpr (List.find?_eq_none.mp hf)] at h1
    cases h1
  | some r => exact ⟨r, List.mem_of_find?_eq_some hf, by simpa using List.find?_some hf, rfl⟩

/-- What is found is in the table, admits the word, and is alone in that (R64). -/
theorem lookup_some {tab : List OpRow} {w : InstrWord} {r : OpRow} (h : lookup w tab = some r) :
    r ∈ tab ∧ r.admits w = true ∧ ∀ q ∈ tab, q.admits w = true → q = r := by
  unfold lookup at h
  split at h
  · next q hq =>
    cases h
    have hm : ∀ x, x ∈ tab ∧ x.admits w = true ↔ x = r := fun x => by
      have hx : x ∈ tab.filter (fun r => r.admits w) ↔ x ∈ [r] := by rw [hq]
      simpa [List.mem_filter] using hx
    exact ⟨((hm r).mpr rfl).1, ((hm r).mpr rfl).2, fun q h1 h2 => (hm q).mp ⟨h1, h2⟩⟩
  · cases h

/-- In a table that OPTAB may be, the row that admits a word is found. -/
theorem lookup_of_admits {tab : List OpRow} (h : OptabOk tab) {w : InstrWord} {r : OpRow} (hr : r ∈ tab)
    (ha : r.admits w = true) : lookup w tab = some r := by
  have hall : ∀ q ∈ tab.filter (fun q => q.admits w), q = r := fun q hq => by
    rw [List.mem_filter] at hq
    exact h.disjoint q hq.1 r hr w hq.2 ha
  have hlen : (tab.filter (fun q => q.admits w)).length ≤ 1 := by
    rw [← h.oneRowEach r.mn]
    have hsub : tab.filter (fun q => q.admits w) = (tab.filter (fun q => q.mn == r.mn)).filter (fun q => q.admits w) := by
      rw [List.filter_filter]
      apply List.filter_congr
      intro q hq
      cases hqa : q.admits w
      · rfl
      · simp [h.disjoint q hq r hr w hqa ha]
    rw [hsub]
    exact List.length_filter_le _ _
  have hmem : r ∈ tab.filter (fun q => q.admits w) := List.mem_filter.mpr ⟨hr, ha⟩
  unfold lookup
  generalize tab.filter (fun q => q.admits w) = l at *
  match l, hlen, hmem, hall with
  | [q], _, _, hall => rw [hall q (by simp)]

/-- `extract` keeps the mnemonic of the row. -/
theorem extract_mnemonic (m : Mnemonic) (w : InstrWord) : (extract m w).mnemonic = m := by cases m <;> rfl

end Sys2Proof
end

