-- ==== Sys2Proof/Laws/Exec.lean ====
section
/-! SUPPORT. What an instruction can do to the state, said once for all 58, and what a step can do. -/

namespace Sys2Proof.Machine

/-- The effects an instruction can have on the state it executes in. -/
inductive Effect (i : Instr) (s : State) : State → Prop where
  /-- A register write. -/
  | reg (d : Reg) (v : Word) (hd : i.destination = some d) : Effect i s (writeReg s d v)
  /-- A register write and the flags of the result. -/
  | regFlags (d : Reg) (res l r : Word) (hd : i.destination = some d) (hf : i.mnemonic ∈ flagWriters) :
    Effect i s (writeFlags (writeReg s d res) (flagsOf res l r))
  /-- The flags of a comparison. -/
  | flags (res l r : Word) (hf : i.mnemonic ∈ flagWriters) : Effect i s (writeFlags s (flagsOf res l r))
  /-- A jump to a safe index. -/
  | jump (t : Int) (hb : i.mnemonic ∈ branches) (hlow : -Config.safeMax ≤ t) (hhigh : t ≤ Config.safeMax) :
    Effect i s (setPc s t)
  /-- A branch that is not taken. -/
  | stay (hb : i.mnemonic ∈ branches) : Effect i s s
  /-- A call. -/
  | call (a : Nat) (hi : i = .bl a) : Effect i s (setPc (writeReg s linkReg (wrap64 s.pc)) (target26 a))
  /-- A store of bytes inside memory. -/
  | store (ea : Int) (n : Nat) (v : Word) (hs : i.mnemonic ∈ storeMnemonics) (ha : admitted s ea n) :
    Effect i s (setMem s (Memory.writeBytes s.mem ea.toNat (lowBytes v n)))
  /-- A taken failure. -/
  | fail (c : Cause) (info : Int) (hm : i.mnemonic ∈ failingMnemonics) :
    Effect i s (raiseFailure s c info (some i.mnemonic))
  /-- Printed text. -/
  | print (t : Text) (hi : i = .prnt) : Effect i s (emit s (.print t))
  /-- A blank line. -/
  | blank (hi : i = .prnl) : Effect i s (emit s .blankLine)
  /-- A dump and the end of the run. -/
  | stop (hi : i = .halt ∨ i = .dump) : Effect i s (setRun (emit s (dumpEvent s)) .ended)

theorem effect_load (i : Instr) (n : Nat) (ext : Nat → Word) (rt rn : Reg) (dt : Nat) (s : State)
    (hd : i.destination = some rt) (hm : i.mnemonic ∈ failingMnemonics) :
    Effect i s (loadOp i.mnemonic n ext rt rn dt s) := by
  rcases loadOp_cases i.mnemonic n ext rt rn dt s with ⟨_, h⟩ | ⟨_, h⟩ <;> rw [h]
  · exact .reg rt _ hd
  · exact .fail _ _ hm

theorem effect_store (i : Instr) (n : Nat) (rt rn : Reg) (dt : Nat) (s : State)
    (hs : i.mnemonic ∈ storeMnemonics) (hm : i.mnemonic ∈ failingMnemonics) :
    Effect i s (storeOp i.mnemonic n rt rn dt s) := by
  rcases storeOp_cases i.mnemonic n rt rn dt s with ⟨ha, h⟩ | ⟨_, h⟩ <;> rw [h]
  · exact .store _ n _ hs ha
  · exact .fail _ _ hm

theorem effect_branchIf (i : Instr) (c : Bool) (a : Nat) (s : State) (hb : i.mnemonic ∈ branches) :
    Effect i s (branchIf c (target19 a) s) := by
  rcases branchIf_cases c (target19 a) s with ⟨_, h⟩ | ⟨_, h⟩ <;> rw [h]
  · exact .jump _ hb (target19_range a).1 (target19_range a).2
  · exact .stay hb

theorem effect_prnt (s : State) : ∃ t, execPrnt s = .next t ∧ Effect .prnt s t := by
  unfold execPrnt
  split
  · exact ⟨_, rfl, .print _ rfl⟩
  · exact ⟨_, rfl, .fail (i := .prnt) _ _ (by decide)⟩

/-- Every instruction answers a next state, with one of the effects above. -/
theorem exec_next (i : Instr) (s : State) : ∃ t, exec i s = .next t ∧ Effect i s t := by
  cases i with
  | add d n m => exact ⟨_, rfl, .reg d _ rfl⟩
  | sub d n m => exact ⟨_, rfl, .reg d _ rfl⟩
  | and d n m => exact ⟨_, rfl, .reg d _ rfl⟩
  | orr d n m => exact ⟨_, rfl, .reg d _ rfl⟩
  | eor d n m => exact ⟨_, rfl, .reg d _ rfl⟩
  | mul d n m => exact ⟨_, rfl, .reg d _ rfl⟩
  | sdiv d n m =>
    by_cases h : readSigned s m = 0
    · exact ⟨raiseFailure s .divideByZero (currentIndex s) (some .sdiv), by simp only [exec, execSdiv, h, if_true],
        .fail (i := .sdiv d n m) _ _ (by simp [Instr.mnemonic, failingMnemonics])⟩
    · exact ⟨regRegOp aluSdiv d n m s, by simp only [exec, execSdiv, h, if_false], .reg d _ rfl⟩
  | adds d n m => exact ⟨_, rfl, .regFlags d _ _ _ rfl (by simp [Instr.mnemonic, flagWriters])⟩
  | subs d n m => exact ⟨_, rfl, .regFlags d _ _ _ rfl (by simp [Instr.mnemonic, flagWriters])⟩
  | ands d n m => exact ⟨_, rfl, .regFlags d _ _ _ rfl (by simp [Instr.mnemonic, flagWriters])⟩
  | lsl d n v => exact ⟨_, rfl, .reg d _ rfl⟩
  | lsr d n v => exact ⟨_, rfl, .reg d _ rfl⟩
  | br d =>
    exact ⟨_, rfl, .jump _ (by simp [Instr.mnemonic, branches]) (clampIndex_range _).1 (clampIndex_range _).2⟩
  | cmp d n => exact ⟨_, rfl, .flags _ _ _ (by simp [Instr.mnemonic, flagWriters])⟩
  | mov d n => exact ⟨_, rfl, .reg d _ rfl⟩
  | udiv d n m => exact ⟨_, rfl, .fail (i := .udiv d n m) _ _ (by simp [Instr.mnemonic, failingMnemonics])⟩
  | addi d n v => exact ⟨_, rfl, .reg d _ rfl⟩
  | subi d n v => exact ⟨_, rfl, .reg d _ rfl⟩
  | andi d n v => exact ⟨_, rfl, .reg d _ rfl⟩
  | orri d n v => exact ⟨_, rfl, .reg d _ rfl⟩
  | eori d n v => exact ⟨_, rfl, .reg d _ rfl⟩
  | addis d n v => exact ⟨_, rfl, .regFlags d _ _ _ rfl (by simp [Instr.mnemonic, flagWriters])⟩
  | subis d n v => exact ⟨_, rfl, .regFlags d _ _ _ rfl (by simp [Instr.mnemonic, flagWriters])⟩
  | andis d n v => exact ⟨_, rfl, .regFlags d _ _ _ rfl (by simp [Instr.mnemonic, flagWriters])⟩
  | cmpi n v => exact ⟨_, rfl, .flags _ _ _ (by simp [Instr.mnemonic, flagWriters])⟩
  | movz d v => exact ⟨_, rfl, .reg d _ rfl⟩
  | movk d v => exact ⟨_, rfl, .reg d _ rfl⟩
  | ldur t n v => exact ⟨_, rfl, effect_load (.ldur t n v) _ _ t n v s rfl (by simp [Instr.mnemonic, failingMnemonics])⟩
  | ldurb t n v => exact ⟨_, rfl, effect_load (.ldurb t n v) _ _ t n v s rfl (by simp [Instr.mnemonic, failingMnemonics])⟩
  | ldurh t n v => exact ⟨_, rfl, effect_load (.ldurh t n v) _ _ t n v s rfl (by simp [Instr.mnemonic, failingMnemonics])⟩
  | ldursw t n v => exact ⟨_, rfl, effect_load (.ldursw t n v) _ _ t n v s rfl (by simp [Instr.mnemonic, failingMnemonics])⟩
  | stur t n v =>
    exact ⟨_, rfl, effect_store (.stur t n v) _ t n v s (by simp [Instr.mnemonic, storeMnemonics]) (by simp [Instr.mnemonic, failingMnemonics])⟩
  | sturb t n v =>
    exact ⟨_, rfl, effect_store (.sturb t n v) _ t n v s (by simp [Instr.mnemonic, storeMnemonics]) (by simp [Instr.mnemonic, failingMnemonics])⟩
  | sturh t n v =>
    exact ⟨_, rfl, effect_store (.sturh t n v) _ t n v s (by simp [Instr.mnemonic, storeMnemonics]) (by simp [Instr.mnemonic, failingMnemonics])⟩
  | sturw t n v =>
    exact ⟨_, rfl, effect_store (.sturw t n v) _ t n v s (by simp [Instr.mnemonic, storeMnemonics]) (by simp [Instr.mnemonic, failingMnemonics])⟩
  | lda t n v => exact ⟨_, rfl, .fail (i := .lda t n v) _ _ (by simp [Instr.mnemonic, failingMnemonics])⟩
  | ldxr t n v => exact ⟨_, rfl, .fail (i := .ldxr t n v) _ _ (by simp [Instr.mnemonic, failingMnemonics])⟩
  | stxr t n v => exact ⟨_, rfl, .fail (i := .stxr t n v) _ _ (by simp [Instr.mnemonic, failingMnemonics])⟩
  | b a => exact ⟨_, rfl, .jump _ (by simp [Instr.mnemonic, branches]) (target26_range a).1 (target26_range a).2⟩
  | bl a => exact ⟨_, rfl, .call a rfl⟩
  | cbz t a => exact ⟨_, rfl, effect_branchIf _ _ a s (by simp [Instr.mnemonic, branches])⟩
  | cbnz t a => exact ⟨_, rfl, effect_branchIf _ _ a s (by simp [Instr.mnemonic, branches])⟩
  | bEQ a => exact ⟨_, rfl, effect_branchIf _ _ a s (by simp [Instr.mnemonic, branches])⟩
  | bNE a => exact ⟨_, rfl, effect_branchIf _ _ a s (by simp [Instr.mnemonic, branches])⟩
  | bLT a => exact ⟨_, rfl, effect_branchIf _ _ a s (by simp [Instr.mnemonic, branches])⟩
  | bLO a => exact ⟨_, rfl, effect_branchIf _ _ a s (by simp [Instr.mnemonic, branches])⟩
  | bLE a => exact ⟨_, rfl, effect_branchIf _ _ a s (by simp [Instr.mnemonic, branches])⟩
  | bLS a => exact ⟨_, rfl, effect_branchIf _ _ a s (by simp [Instr.mnemonic, branches])⟩
  | bGT a => exact ⟨_, rfl, effect_branchIf _ _ a s (by simp [Instr.mnemonic, branches])⟩
  | bHI a => exact ⟨_, rfl, effect_branchIf _ _ a s (by simp [Instr.mnemonic, branches])⟩
  | bGE a => exact ⟨_, rfl, effect_branchIf _ _ a s (by simp [Instr.mnemonic, branches])⟩
  | bHS a => exact ⟨_, rfl, effect_branchIf _ _ a s (by simp [Instr.mnemonic, branches])⟩
  | bPL a => exact ⟨_, rfl, effect_branchIf _ _ a s (by simp [Instr.mnemonic, branches])⟩
  | bMI a => exact ⟨_, rfl, effect_branchIf _ _ a s (by simp [Instr.mnemonic, branches])⟩
  | prnt => exact effect_prnt s
  | prnl => exact ⟨_, rfl, .blank rfl⟩
  | halt => exact ⟨_, rfl, .stop (.inl rfl)⟩
  | dump => exact ⟨_, rfl, .stop (.inr rfl)⟩

/-- If an instruction answers a next state, it had one of the effects above. -/
theorem exec_effect {i : Instr} {s t : State} (h : exec i s = .next t) : Effect i s t := by
  obtain ⟨t', h', he⟩ := exec_next i s
  rw [h] at h'
  cases h'
  exact he

/-- What a step can do. -/
theorem step_cases {s t : State} (h : step s = .next t) :
    (s.run ≠ .running ∧ t = s) ∨
    (s.run = .running ∧ progEntry s s.pc = none ∧ t = setRun s .ended) ∨
    (s.run = .running ∧ ∃ e i, progEntry s s.pc = some e ∧ decode e.word s.optab = .instr i ∧
      exec i (beginStep s) = .next t) ∨
    (s.run = .running ∧ ∃ e, progEntry s s.pc = some e ∧ decode e.word s.optab = .invalid ∧
      t = raiseInvalidEncoding (beginStep s)) := by
  unfold step at h
  split at h
  · next hr => cases h; exact .inl ⟨hr, rfl⟩
  · next hr =>
    have hr : s.run = .running := by simpa using hr
    split at h
    · next he => cases h; exact .inr (.inl ⟨hr, he, rfl⟩)
    · next e he =>
      split at h
      · next i hd => exact .inr (.inr (.inl ⟨hr, e, i, he, hd, h⟩))
      · next hd => cases h; exact .inr (.inr (.inr ⟨hr, e, he, hd, rfl⟩))

/-- Every step answers a next state. -/
theorem step_next (s : State) : ∃ t, step s = .next t := by
  unfold step
  split
  · exact ⟨_, rfl⟩
  · split
    · exact ⟨_, rfl⟩
    · split
      · obtain ⟨t, h, _⟩ := exec_next _ (beginStep s)
        exact ⟨t, h⟩
      · exact ⟨_, rfl⟩

/-- An index with an entry is inside the program. -/
theorem progEntry_some {s : State} {i : Int} {e : ProgEntry} (h : progEntry s i = some e) :
    0 ≤ i ∧ i < (s.prog.length : Int) ∧ s.prog[i.toNat]? = some e := by
  unfold progEntry at h
  split at h
  · cases h
  · next hi =>
    have := (List.getElem?_eq_some_iff.mp h).1
    exact ⟨by omega, by omega, h⟩

end Sys2Proof.Machine
end

