-- ==== Sys2Proof/Laws/Frames.lean ====
section
/-! SUPPORT. What each update of the state leaves alone, in the terms of `Safety`. -/

namespace Sys2Proof.Machine

theorem writesOnly_writeReg (rd : Reg) (v : Word) (s : State) : WritesOnly rd v s (writeReg s rd v) := by
  refine ⟨?_, fun r h => readReg_writeReg_other s h v, by simp, by simp, fun a => by simp [readByte], ?_⟩
  · rw [readReg_writeReg]
    by_cases h : rd = 31 <;> simp [h]
  · simp [SameControl, SameConfig]

theorem writesOnlyWithFlags_writeReg (rd : Reg) (v : Word) (f : Flags) (s : State) :
    WritesOnlyWithFlags rd v f s (writeFlags (writeReg s rd v) f) := by
  obtain ⟨h1, h2, _, h4, h5, h6⟩ := writesOnly_writeReg rd v s
  exact ⟨h1, h2, rfl, h4, h5, h6⟩

theorem writesOnlyFlags_writeFlags (f : Flags) (s : State) : WritesOnlyFlags f s (writeFlags s f) :=
  ⟨fun _ => rfl, rfl, rfl, fun _ => rfl, rfl, rfl, rfl, rfl, rfl, rfl, rfl, rfl⟩

theorem writesOnlyPc_setPc (t : Int) (s : State) : WritesOnlyPc t s (setPc s t) :=
  ⟨fun _ => rfl, rfl, rfl, fun _ => rfl, rfl, rfl, rfl, rfl, rfl, rfl, rfl, rfl⟩

/-- A conditional branch writes only `pc`: the target, or what it already holds (R155). -/
theorem writesOnlyPc_branchIf (c : Bool) (t : Int) (s : State) :
    WritesOnlyPc (if c then t else s.pc) s (branchIf c t s) := by
  cases c
  · exact writesOnlyPc_setPc s.pc s
  · exact writesOnlyPc_setPc t s

theorem emitsOnly_emit (e : Event) (s : State) : EmitsOnly e s (emit s e) :=
  ⟨fun _ => rfl, rfl, rfl, fun _ => rfl, rfl, rfl, rfl, rfl, rfl, rfl, rfl, rfl⟩

/-- Everything that taking an ExecutionFailure does (R196, R198). -/
theorem tookFailure_raiseFailure (s : State) (c : Cause) (info : Int) (mn : Option Mnemonic) :
    TookFailure c info mn s (raiseFailure s c info mn) := by
  refine ⟨rfl, fun h => ?_, fun h => ?_, rfl, fun _ => rfl, rfl, rfl, fun _ => rfl, rfl, rfl, rfl, rfl, rfl⟩
  · simp [raiseFailure, h, currentIndex]
  · cases hf : s.fault with
    | none => exact absurd hf h
    | some f => simp [raiseFailure, hf]

/-- Everything that an admitted store does (R36). -/
theorem storesOnly_setMem {s : State} {ea : Int} {n : Nat} (hw : Memory.wf s.mem) (ha : admitted s ea n) (v : Word) :
    StoresOnly ea n v s (setMem s (Memory.writeBytes s.mem ea.toNat (lowBytes v n))) := by
  refine ⟨fun k hk => ?_, fun x hx => ?_, fun _ => rfl, rfl, rfl, rfl, rfl, rfl, rfl, rfl, rfl, rfl, rfl⟩
  · simp only [readByte, setMem_mem]
    rw [Memory.read_writeBytes hw, lowBytes_length, if_pos (by omega), Nat.add_sub_cancel_left, lowBytes_getD _ hk]
  · simp only [readByte, setMem_mem]
    have h0 := ha.1
    rw [Memory.read_writeBytes hw, lowBytes_length, if_neg (by omega)]

end Sys2Proof.Machine
end

