-- ==== Sys2Proof/Laws/PerInstr.lean ====
section
/-! SUPPORT. Facts about each instruction as syntax, one lemma per constructor. -/

namespace Sys2Proof.Laws

/-- Truncation to the fields (R50) gives an instruction that fits its encoding, leaves one that fits alone, and keeps
the mnemonic. -/
def FitsField.Statement (i : Instr) : Prop :=
  i.truncate.wellFormed = true ∧ (i.wellFormed = true → i.truncate = i) ∧ i.truncate.mnemonic = i.mnemonic

/-- A truncated value fits. -/
theorem mod_fits (v n : Nat) : v % 2 ^ n < 2 ^ n := Nat.mod_lt _ (Nat.two_pow_pos n)

theorem FitsField.add (rd : Reg) (rn : Reg) (rm : Reg) : FitsField.Statement (.add rd rn rm) := ⟨rfl, fun _ => rfl, rfl⟩

theorem FitsField.sub (rd : Reg) (rn : Reg) (rm : Reg) : FitsField.Statement (.sub rd rn rm) := ⟨rfl, fun _ => rfl, rfl⟩

theorem FitsField.and (rd : Reg) (rn : Reg) (rm : Reg) : FitsField.Statement (.and rd rn rm) := ⟨rfl, fun _ => rfl, rfl⟩

theorem FitsField.orr (rd : Reg) (rn : Reg) (rm : Reg) : FitsField.Statement (.orr rd rn rm) := ⟨rfl, fun _ => rfl, rfl⟩

theorem FitsField.eor (rd : Reg) (rn : Reg) (rm : Reg) : FitsField.Statement (.eor rd rn rm) := ⟨rfl, fun _ => rfl, rfl⟩

theorem FitsField.mul (rd : Reg) (rn : Reg) (rm : Reg) : FitsField.Statement (.mul rd rn rm) := ⟨rfl, fun _ => rfl, rfl⟩

theorem FitsField.sdiv (rd : Reg) (rn : Reg) (rm : Reg) : FitsField.Statement (.sdiv rd rn rm) := ⟨rfl, fun _ => rfl, rfl⟩

theorem FitsField.adds (rd : Reg) (rn : Reg) (rm : Reg) : FitsField.Statement (.adds rd rn rm) := ⟨rfl, fun _ => rfl, rfl⟩

theorem FitsField.subs (rd : Reg) (rn : Reg) (rm : Reg) : FitsField.Statement (.subs rd rn rm) := ⟨rfl, fun _ => rfl, rfl⟩

theorem FitsField.ands (rd : Reg) (rn : Reg) (rm : Reg) : FitsField.Statement (.ands rd rn rm) := ⟨rfl, fun _ => rfl, rfl⟩

theorem FitsField.lsl (rd : Reg) (rn : Reg) (shamt : Nat) : FitsField.Statement (.lsl rd rn shamt) :=
  ⟨decide_eq_true (mod_fits shamt _), fun h => by
    have h := of_decide_eq_true h
    simp only [Instr.truncate, Nat.mod_eq_of_lt h], rfl⟩

theorem FitsField.lsr (rd : Reg) (rn : Reg) (shamt : Nat) : FitsField.Statement (.lsr rd rn shamt) :=
  ⟨decide_eq_true (mod_fits shamt _), fun h => by
    have h := of_decide_eq_true h
    simp only [Instr.truncate, Nat.mod_eq_of_lt h], rfl⟩

theorem FitsField.br (rd : Reg) : FitsField.Statement (.br rd) := ⟨rfl, fun _ => rfl, rfl⟩

theorem FitsField.cmp (rd : Reg) (rn : Reg) : FitsField.Statement (.cmp rd rn) := ⟨rfl, fun _ => rfl, rfl⟩

theorem FitsField.mov (rd : Reg) (rn : Reg) : FitsField.Statement (.mov rd rn) := ⟨rfl, fun _ => rfl, rfl⟩

theorem FitsField.udiv (rd : Reg) (rn : Reg) (rm : Reg) : FitsField.Statement (.udiv rd rn rm) := ⟨rfl, fun _ => rfl, rfl⟩

theorem FitsField.addi (rd : Reg) (rn : Reg) (imm12 : Nat) : FitsField.Statement (.addi rd rn imm12) :=
  ⟨decide_eq_true (mod_fits imm12 _), fun h => by
    have h := of_decide_eq_true h
    simp only [Instr.truncate, Nat.mod_eq_of_lt h], rfl⟩

theorem FitsField.subi (rd : Reg) (rn : Reg) (imm12 : Nat) : FitsField.Statement (.subi rd rn imm12) :=
  ⟨decide_eq_true (mod_fits imm12 _), fun h => by
    have h := of_decide_eq_true h
    simp only [Instr.truncate, Nat.mod_eq_of_lt h], rfl⟩

theorem FitsField.andi (rd : Reg) (rn : Reg) (imm12 : Nat) : FitsField.Statement (.andi rd rn imm12) :=
  ⟨decide_eq_true (mod_fits imm12 _), fun h => by
    have h := of_decide_eq_true h
    simp only [Instr.truncate, Nat.mod_eq_of_lt h], rfl⟩

theorem FitsField.orri (rd : Reg) (rn : Reg) (imm12 : Nat) : FitsField.Statement (.orri rd rn imm12) :=
  ⟨decide_eq_true (mod_fits imm12 _), fun h => by
    have h := of_decide_eq_true h
    simp only [Instr.truncate, Nat.mod_eq_of_lt h], rfl⟩

theorem FitsField.eori (rd : Reg) (rn : Reg) (imm12 : Nat) : FitsField.Statement (.eori rd rn imm12) :=
  ⟨decide_eq_true (mod_fits imm12 _), fun h => by
    have h := of_decide_eq_true h
    simp only [Instr.truncate, Nat.mod_eq_of_lt h], rfl⟩

theorem FitsField.addis (rd : Reg) (rn : Reg) (imm12 : Nat) : FitsField.Statement (.addis rd rn imm12) :=
  ⟨decide_eq_true (mod_fits imm12 _), fun h => by
    have h := of_decide_eq_true h
    simp only [Instr.truncate, Nat.mod_eq_of_lt h], rfl⟩

theorem FitsField.subis (rd : Reg) (rn : Reg) (imm12 : Nat) : FitsField.Statement (.subis rd rn imm12) :=
  ⟨decide_eq_true (mod_fits imm12 _), fun h => by
    have h := of_decide_eq_true h
    simp only [Instr.truncate, Nat.mod_eq_of_lt h], rfl⟩

theorem FitsField.andis (rd : Reg) (rn : Reg) (imm12 : Nat) : FitsField.Statement (.andis rd rn imm12) :=
  ⟨decide_eq_true (mod_fits imm12 _), fun h => by
    have h := of_decide_eq_true h
    simp only [Instr.truncate, Nat.mod_eq_of_lt h], rfl⟩

theorem FitsField.cmpi (rn : Reg) (imm12 : Nat) : FitsField.Statement (.cmpi rn imm12) :=
  ⟨decide_eq_true (mod_fits imm12 _), fun h => by
    have h := of_decide_eq_true h
    simp only [Instr.truncate, Nat.mod_eq_of_lt h], rfl⟩

theorem FitsField.movz (rd : Reg) (imm16 : Nat) : FitsField.Statement (.movz rd imm16) :=
  ⟨decide_eq_true (mod_fits imm16 _), fun h => by
    have h := of_decide_eq_true h
    simp only [Instr.truncate, Nat.mod_eq_of_lt h], rfl⟩

theorem FitsField.movk (rd : Reg) (imm16 : Nat) : FitsField.Statement (.movk rd imm16) :=
  ⟨decide_eq_true (mod_fits imm16 _), fun h => by
    have h := of_decide_eq_true h
    simp only [Instr.truncate, Nat.mod_eq_of_lt h], rfl⟩

theorem FitsField.ldur (rt : Reg) (rn : Reg) (dt : Nat) : FitsField.Statement (.ldur rt rn dt) :=
  ⟨decide_eq_true (mod_fits dt _), fun h => by
    have h := of_decide_eq_true h
    simp only [Instr.truncate, Nat.mod_eq_of_lt h], rfl⟩

theorem FitsField.ldurb (rt : Reg) (rn : Reg) (dt : Nat) : FitsField.Statement (.ldurb rt rn dt) :=
  ⟨decide_eq_true (mod_fits dt _), fun h => by
    have h := of_decide_eq_true h
    simp only [Instr.truncate, Nat.mod_eq_of_lt h], rfl⟩

theorem FitsField.ldurh (rt : Reg) (rn : Reg) (dt : Nat) : FitsField.Statement (.ldurh rt rn dt) :=
  ⟨decide_eq_true (mod_fits dt _), fun h => by
    have h := of_decide_eq_true h
    simp only [Instr.truncate, Nat.mod_eq_of_lt h], rfl⟩

theorem FitsField.ldursw (rt : Reg) (rn : Reg) (dt : Nat) : FitsField.Statement (.ldursw rt rn dt) :=
  ⟨decide_eq_true (mod_fits dt _), fun h => by
    have h := of_decide_eq_true h
    simp only [Instr.truncate, Nat.mod_eq_of_lt h], rfl⟩

theorem FitsField.stur (rt : Reg) (rn : Reg) (dt : Nat) : FitsField.Statement (.stur rt rn dt) :=
  ⟨decide_eq_true (mod_fits dt _), fun h => by
    have h := of_decide_eq_true h
    simp only [Instr.truncate, Nat.mod_eq_of_lt h], rfl⟩

theorem FitsField.sturb (rt : Reg) (rn : Reg) (dt : Nat) : FitsField.Statement (.sturb rt rn dt) :=
  ⟨decide_eq_true (mod_fits dt _), fun h => by
    have h := of_decide_eq_true h
    simp only [Instr.truncate, Nat.mod_eq_of_lt h], rfl⟩

theorem FitsField.sturh (rt : Reg) (rn : Reg) (dt : Nat) : FitsField.Statement (.sturh rt rn dt) :=
  ⟨decide_eq_true (mod_fits dt _), fun h => by
    have h := of_decide_eq_true h
    simp only [Instr.truncate, Nat.mod_eq_of_lt h], rfl⟩

theorem FitsField.sturw (rt : Reg) (rn : Reg) (dt : Nat) : FitsField.Statement (.sturw rt rn dt) :=
  ⟨decide_eq_true (mod_fits dt _), fun h => by
    have h := of_decide_eq_true h
    simp only [Instr.truncate, Nat.mod_eq_of_lt h], rfl⟩

theorem FitsField.lda (rt : Reg) (rn : Reg) (dt : Nat) : FitsField.Statement (.lda rt rn dt) :=
  ⟨decide_eq_true (mod_fits dt _), fun h => by
    have h := of_decide_eq_true h
    simp only [Instr.truncate, Nat.mod_eq_of_lt h], rfl⟩

theorem FitsField.ldxr (rt : Reg) (rn : Reg) (dt : Nat) : FitsField.Statement (.ldxr rt rn dt) :=
  ⟨decide_eq_true (mod_fits dt _), fun h => by
    have h := of_decide_eq_true h
    simp only [Instr.truncate, Nat.mod_eq_of_lt h], rfl⟩

theorem FitsField.stxr (rt : Reg) (rn : Reg) (dt : Nat) : FitsField.Statement (.stxr rt rn dt) :=
  ⟨decide_eq_true (mod_fits dt _), fun h => by
    have h := of_decide_eq_true h
    simp only [Instr.truncate, Nat.mod_eq_of_lt h], rfl⟩

theorem FitsField.b (addr26 : Nat) : FitsField.Statement (.b addr26) :=
  ⟨decide_eq_true (mod_fits addr26 _), fun h => by
    have h := of_decide_eq_true h
    simp only [Instr.truncate, Nat.mod_eq_of_lt h], rfl⟩

theorem FitsField.bl (addr26 : Nat) : FitsField.Statement (.bl addr26) :=
  ⟨decide_eq_true (mod_fits addr26 _), fun h => by
    have h := of_decide_eq_true h
    simp only [Instr.truncate, Nat.mod_eq_of_lt h], rfl⟩

theorem FitsField.cbz (rt : Reg) (addr19 : Nat) : FitsField.Statement (.cbz rt addr19) :=
  ⟨decide_eq_true (mod_fits addr19 _), fun h => by
    have h := of_decide_eq_true h
    simp only [Instr.truncate, Nat.mod_eq_of_lt h], rfl⟩

theorem FitsField.cbnz (rt : Reg) (addr19 : Nat) : FitsField.Statement (.cbnz rt addr19) :=
  ⟨decide_eq_true (mod_fits addr19 _), fun h => by
    have h := of_decide_eq_true h
    simp only [Instr.truncate, Nat.mod_eq_of_lt h], rfl⟩

theorem FitsField.bEQ (addr19 : Nat) : FitsField.Statement (.bEQ addr19) :=
  ⟨decide_eq_true (mod_fits addr19 _), fun h => by
    have h := of_decide_eq_true h
    simp only [Instr.truncate, Nat.mod_eq_of_lt h], rfl⟩

theorem FitsField.bNE (addr19 : Nat) : FitsField.Statement (.bNE addr19) :=
  ⟨decide_eq_true (mod_fits addr19 _), fun h => by
    have h := of_decide_eq_true h
    simp only [Instr.truncate, Nat.mod_eq_of_lt h], rfl⟩

theorem FitsField.bLT (addr19 : Nat) : FitsField.Statement (.bLT addr19) :=
  ⟨decide_eq_true (mod_fits addr19 _), fun h => by
    have h := of_decide_eq_true h
    simp only [Instr.truncate, Nat.mod_eq_of_lt h], rfl⟩

theorem FitsField.bLO (addr19 : Nat) : FitsField.Statement (.bLO addr19) :=
  ⟨decide_eq_true (mod_fits addr19 _), fun h => by
    have h := of_decide_eq_true h
    simp only [Instr.truncate, Nat.mod_eq_of_lt h], rfl⟩

theorem FitsField.bLE (addr19 : Nat) : FitsField.Statement (.bLE addr19) :=
  ⟨decide_eq_true (mod_fits addr19 _), fun h => by
    have h := of_decide_eq_true h
    simp only [Instr.truncate, Nat.mod_eq_of_lt h], rfl⟩

theorem FitsField.bLS (addr19 : Nat) : FitsField.Statement (.bLS addr19) :=
  ⟨decide_eq_true (mod_fits addr19 _), fun h => by
    have h := of_decide_eq_true h
    simp only [Instr.truncate, Nat.mod_eq_of_lt h], rfl⟩

theorem FitsField.bGT (addr19 : Nat) : FitsField.Statement (.bGT addr19) :=
  ⟨decide_eq_true (mod_fits addr19 _), fun h => by
    have h := of_decide_eq_true h
    simp only [Instr.truncate, Nat.mod_eq_of_lt h], rfl⟩

theorem FitsField.bHI (addr19 : Nat) : FitsField.Statement (.bHI addr19) :=
  ⟨decide_eq_true (mod_fits addr19 _), fun h => by
    have h := of_decide_eq_true h
    simp only [Instr.truncate, Nat.mod_eq_of_lt h], rfl⟩

theorem FitsField.bGE (addr19 : Nat) : FitsField.Statement (.bGE addr19) :=
  ⟨decide_eq_true (mod_fits addr19 _), fun h => by
    have h := of_decide_eq_true h
    simp only [Instr.truncate, Nat.mod_eq_of_lt h], rfl⟩

theorem FitsField.bHS (addr19 : Nat) : FitsField.Statement (.bHS addr19) :=
  ⟨decide_eq_true (mod_fits addr19 _), fun h => by
    have h := of_decide_eq_true h
    simp only [Instr.truncate, Nat.mod_eq_of_lt h], rfl⟩

theorem FitsField.bPL (addr19 : Nat) : FitsField.Statement (.bPL addr19) :=
  ⟨decide_eq_true (mod_fits addr19 _), fun h => by
    have h := of_decide_eq_true h
    simp only [Instr.truncate, Nat.mod_eq_of_lt h], rfl⟩

theorem FitsField.bMI (addr19 : Nat) : FitsField.Statement (.bMI addr19) :=
  ⟨decide_eq_true (mod_fits addr19 _), fun h => by
    have h := of_decide_eq_true h
    simp only [Instr.truncate, Nat.mod_eq_of_lt h], rfl⟩

theorem FitsField.prnt : FitsField.Statement (.prnt) := ⟨rfl, fun _ => rfl, rfl⟩

theorem FitsField.prnl : FitsField.Statement (.prnl) := ⟨rfl, fun _ => rfl, rfl⟩

theorem FitsField.halt : FitsField.Statement (.halt) := ⟨rfl, fun _ => rfl, rfl⟩

theorem FitsField.dump : FitsField.Statement (.dump) := ⟨rfl, fun _ => rfl, rfl⟩

end Sys2Proof.Laws
end

