-- ==== Sys2Proof/Laws/Print.lean ====
section
/-! SUPPORT. The scan of `PRNT` (R178), piece by piece. -/

namespace Sys2Proof.Machine

/-- Text without an opening bracket is copied. -/
theorem scanPayload_plain (p q : Text) (h : ∀ c ∈ p, c ≠ openBrace ∧ c ≠ openSquare) :
    scanPayload none (p ++ q) = p.map .plain ++ scanPayload none q := by
  induction p with
  | nil => rfl
  | cons c cs ih =>
    have hc := h c (by simp)
    simp [scanPayload, hc, ih (fun d hd => h d (by simp [hd]))]

theorem scanPayload_closed (o : Char) (b name post : Text) (h : closingOf o ∉ name) :
    scanPayload (some (o, b)) (name ++ closingOf o :: post) = .item o (b ++ name) true :: scanPayload none post := by
  induction name generalizing b with
  | nil => simp [scanPayload]
  | cons c cs ih =>
    have hc : c ≠ closingOf o := fun e => h (by simp [e])
    simp only [List.cons_append, scanPayload, hc, if_false]
    rw [ih _ (fun e => h (by simp [e]))]
    simp

theorem scanPayload_unclosed (o : Char) (b name : Text) (h : closingOf o ∉ name) :
    scanPayload (some (o, b)) name = [.item o (b ++ name) false] := by
  induction name generalizing b with
  | nil => simp [scanPayload]
  | cons c cs ih =>
    have hc : c ≠ closingOf o := fun e => h (by simp [e])
    simp only [scanPayload, hc, if_false]
    rw [ih _ (fun e => h (by simp [e]))]
    simp

/-- Plain pieces contribute their characters, whatever follows. -/
theorem piecesText_plain (s : State) (p : Text) (ps : List Piece) :
    piecesText s (p.map .plain ++ ps) =
      match piecesText s ps with
      | .text u => .text (p ++ u)
      | .badAddress ea => .badAddress ea := by
  induction p with
  | nil => simp; cases piecesText s ps <;> rfl
  | cons c cs ih => simp [piecesText, pieceText, ih]; cases piecesText s ps <;> rfl

end Sys2Proof.Machine
end

