-- ==== Sys2Proof/Tests/Slice0.lean ====
section
/-! SUPPORT. The model's own tests. Every expected value comes from spec/95_test_vectors.md (the name of the vector
stands in the theorem's comment) or from the named rule. Then, for each obligation with hypotheses, a witness: a
concrete state and operands that meet them. -/

namespace Sys2Proof.Tests

open Sys2Proof Sys2Proof.Machine

/-! ## Well-formedness: each check refuses an ill-formed term (R60) -/

theorem test_wf_imm12 : (Instr.addi 1 0 4096).wellFormed = false ∧ (Instr.addi 1 0 4095).wellFormed = true := by decide
theorem test_wf_imm16 : (Instr.movz 3 65536).wellFormed = false ∧ (Instr.movz 3 65535).wellFormed = true := by decide
theorem test_wf_shamt : (Instr.lsl 1 2 64).wellFormed = false ∧ (Instr.lsl 1 2 63).wellFormed = true := by decide
theorem test_wf_dt : (Instr.stur 1 2 512).wellFormed = false ∧ (Instr.stur 1 2 511).wellFormed = true := by decide
theorem test_wf_addr26 : (Instr.b 67108864).wellFormed = false ∧ (Instr.b 67108863).wellFormed = true := by decide
theorem test_wf_addr19 : (Instr.bEQ 524288).wellFormed = false ∧ (Instr.bEQ 524287).wellFormed = true := by decide

/-! ## Decoding: the fields of one word per format laid side by side (R53 to R59, R62) -/

theorem test_fields_R : decode (0x458#11 ++ 3#5 ++ 0#6 ++ 2#5 ++ 1#5) = .instr (.add 1 2 3) := by decide
theorem test_fields_I : decode (0x244#10 ++ 5#12 ++ 0#5 ++ 1#5) = .instr (.addi 1 0 5) := by decide
theorem test_fields_IM : decode (0x694#11 ++ 48879#16 ++ 3#5) = .instr (.movz 3 48879) := by decide
theorem test_fields_D : decode (0x5C4#11 ++ 511#9 ++ 0#2 ++ 1#5 ++ 2#5) = .instr (.ldursw 2 1 511) := by decide
theorem test_fields_B : decode (0x25#6 ++ 7#26) = .instr (.bl 7) := by decide
theorem test_fields_CB : decode (0xB4#8 ++ 9#19 ++ 1#5) = .instr (.cbz 1 9) := by decide
theorem test_fields_B_cond : decode (0x54#8 ++ 4#19 ++ 4#5) = .instr (.bMI 4) := by decide
theorem test_fields_Z : decode (0x7FF#11 ++ 0#21) = .instr .halt := by decide

/-! ## Decoding: a word of spec/95 for every constructor, with its encoding -/

theorem test_word_add : decode 0x8B030041 = .instr (.add 1 2 3) ∧ encode (.add 1 2 3) = 0x8B030041 := by decide
theorem test_word_sub : decode 0xCB0303E1 = .instr (.sub 1 31 3) ∧ encode (.sub 1 31 3) = 0xCB0303E1 := by decide
theorem test_word_and : decode 0x8A030041 = .instr (.and 1 2 3) ∧ encode (.and 1 2 3) = 0x8A030041 := by decide
theorem test_word_orr : decode 0xAA0303E1 = .instr (.orr 1 31 3) ∧ encode (.orr 1 31 3) = 0xAA0303E1 := by decide
theorem test_word_eor : decode 0xCA030041 = .instr (.eor 1 2 3) ∧ encode (.eor 1 2 3) = 0xCA030041 := by decide
theorem test_word_mul : decode 0x9B030041 = .instr (.mul 1 2 3) ∧ encode (.mul 1 2 3) = 0x9B030041 := by decide
theorem test_word_sdiv : decode 0x9ADF0841 = .instr (.sdiv 1 2 31) ∧ encode (.sdiv 1 2 31) = 0x9ADF0841 := by decide
theorem test_word_adds : decode 0xAB020023 = .instr (.adds 3 1 2) ∧ encode (.adds 3 1 2) = 0xAB020023 := by decide
theorem test_word_subs : decode 0xEB020023 = .instr (.subs 3 1 2) ∧ encode (.subs 3 1 2) = 0xEB020023 := by decide
theorem test_word_ands : decode 0xEA020023 = .instr (.ands 3 1 2) ∧ encode (.ands 3 1 2) = 0xEA020023 := by decide
theorem test_word_lsl : decode 0xD36044A4 = .instr (.lsl 4 5 17) ∧ encode (.lsl 4 5 17) = 0xD36044A4 := by decide
theorem test_word_lsr : decode 0xD340FC41 = .instr (.lsr 1 2 63) ∧ encode (.lsr 1 2 63) = 0xD340FC41 := by decide
theorem test_word_br : decode 0xD600001E = .instr (.br 30) ∧ encode (.br 30) = 0xD600001E := by decide
theorem test_word_cmp : decode 0xFE400083 = .instr (.cmp 3 4) ∧ encode (.cmp 3 4) = 0xFE400083 := by decide
theorem test_word_mov : decode 0xFE600083 = .instr (.mov 3 4) ∧ encode (.mov 3 4) = 0xFE600083 := by decide
theorem test_word_udiv : decode 0x9AC30C41 = .instr (.udiv 1 2 3) ∧ encode (.udiv 1 2 3) = 0x9AC30C41 := by decide
theorem test_word_addi : decode 0x913FFC41 = .instr (.addi 1 2 4095) ∧ encode (.addi 1 2 4095) = 0x913FFC41 := by decide
theorem test_word_subi : decode 0xD10007E1 = .instr (.subi 1 31 1) ∧ encode (.subi 1 31 1) = 0xD10007E1 := by decide
theorem test_word_andi : decode 0x9203FC41 = .instr (.andi 1 2 255) ∧ encode (.andi 1 2 255) = 0x9203FC41 := by decide
theorem test_word_orri : decode 0xB23FFC41 = .instr (.orri 1 2 4095) ∧ encode (.orri 1 2 4095) = 0xB23FFC41 := by decide
theorem test_word_eori : decode 0xD2000441 = .instr (.eori 1 2 1) ∧ encode (.eori 1 2 1) = 0xD2000441 := by decide
theorem test_word_addis : decode 0xB1000C41 = .instr (.addis 1 2 3) ∧ encode (.addis 1 2 3) = 0xB1000C41 := by decide
theorem test_word_subis : decode 0xF1000402 = .instr (.subis 2 0 1) ∧ encode (.subis 2 0 1) = 0xF1000402 := by decide
theorem test_word_andis : decode 0xF2001C23 = .instr (.andis 3 1 7) ∧ encode (.andis 3 1 7) = 0xF2001C23 := by decide
theorem test_word_cmpi : decode 0xFE3FFCE0 = .instr (.cmpi 7 4095) ∧ encode (.cmpi 7 4095) = 0xFE3FFCE0 := by decide
theorem test_word_movz : decode 0xD29FFFE3 = .instr (.movz 3 65535) ∧ encode (.movz 3 65535) = 0xD29FFFE3 := by decide
theorem test_word_movk : decode 0xF2995FC3 = .instr (.movk 3 51966) ∧ encode (.movk 3 51966) = 0xF2995FC3 := by decide
theorem test_word_ldur : decode 0xF84383E1 = .instr (.ldur 1 31 56) ∧ encode (.ldur 1 31 56) = 0xF84383E1 := by decide
theorem test_word_ldurb : decode 0x3843F3E1 = .instr (.ldurb 1 31 63) ∧ encode (.ldurb 1 31 63) = 0x3843F3E1 := by decide
theorem test_word_ldurh : decode 0x78408041 = .instr (.ldurh 1 2 8) ∧ encode (.ldurh 1 2 8) = 0x78408041 := by decide
theorem test_word_ldursw : decode 0xB883D3E1 = .instr (.ldursw 1 31 61) ∧ encode (.ldursw 1 31 61) = 0xB883D3E1 := by decide
theorem test_word_stur : decode 0xF81FF3E1 = .instr (.stur 1 31 511) ∧ encode (.stur 1 31 511) = 0xF81FF3E1 := by decide
theorem test_word_sturb : decode 0x38008041 = .instr (.sturb 1 2 8) ∧ encode (.sturb 1 2 8) = 0x38008041 := by decide
theorem test_word_sturh : decode 0x780293E1 = .instr (.sturh 1 31 41) ∧ encode (.sturh 1 31 41) = 0x780293E1 := by decide
theorem test_word_sturw : decode 0xB81FF389 = .instr (.sturw 9 28 511) ∧ encode (.sturw 9 28 511) = 0xB81FF389 := by decide
theorem test_word_lda : decode 0xFE800041 = .instr (.lda 1 2 0) ∧ encode (.lda 1 2 0) = 0xFE800041 := by decide
theorem test_word_ldxr : decode 0xC8400041 = .instr (.ldxr 1 2 0) ∧ encode (.ldxr 1 2 0) = 0xC8400041 := by decide
theorem test_word_stxr : decode 0xC8000041 = .instr (.stxr 1 2 0) ∧ encode (.stxr 1 2 0) = 0xC8000041 := by decide
theorem test_word_b : decode 0x1412D687 = .instr (.b 1234567) ∧ encode (.b 1234567) = 0x1412D687 := by decide
theorem test_word_bl : decode 0x94000008 = .instr (.bl 8) ∧ encode (.bl 8) = 0x94000008 := by decide
theorem test_word_cbz : decode 0xB4FFFFF1 = .instr (.cbz 17 524287) ∧ encode (.cbz 17 524287) = 0xB4FFFFF1 := by decide
theorem test_word_cbnz : decode 0xB5000041 = .instr (.cbnz 1 2) ∧ encode (.cbnz 1 2) = 0xB5000041 := by decide
theorem test_word_bEQ : decode 0x54000120 = .instr (.bEQ 9) ∧ encode (.bEQ 9) = 0x54000120 := by decide
theorem test_word_bNE : decode 0x54000121 = .instr (.bNE 9) ∧ encode (.bNE 9) = 0x54000121 := by decide
theorem test_word_bLT : decode 0x5400012B = .instr (.bLT 9) ∧ encode (.bLT 9) = 0x5400012B := by decide
theorem test_word_bLO : decode 0x54000123 = .instr (.bLO 9) ∧ encode (.bLO 9) = 0x54000123 := by decide
theorem test_word_bLE : decode 0x5400018D = .instr (.bLE 12) ∧ encode (.bLE 12) = 0x5400018D := by decide
theorem test_word_bLS : decode 0x54000129 = .instr (.bLS 9) ∧ encode (.bLS 9) = 0x54000129 := by decide
theorem test_word_bGT : decode 0x5400012C = .instr (.bGT 9) ∧ encode (.bGT 9) = 0x5400012C := by decide
theorem test_word_bHI : decode 0x54000128 = .instr (.bHI 9) ∧ encode (.bHI 9) = 0x54000128 := by decide
theorem test_word_bGE : decode 0x540000EA = .instr (.bGE 7) ∧ encode (.bGE 7) = 0x540000EA := by decide
theorem test_word_bHS : decode 0x54000122 = .instr (.bHS 9) ∧ encode (.bHS 9) = 0x54000122 := by decide
theorem test_word_bPL : decode 0x540000E5 = .instr (.bPL 7) ∧ encode (.bPL 7) = 0x540000E5 := by decide
theorem test_word_bMI : decode 0x54000084 = .instr (.bMI 4) ∧ encode (.bMI 4) = 0x54000084 := by decide
theorem test_word_prnt : decode 0xFFA00000 = .instr (.prnt) ∧ encode (.prnt) = 0xFFA00000 := by decide
theorem test_word_prnl : decode 0xFF800000 = .instr (.prnl) ∧ encode (.prnl) = 0xFF800000 := by decide
theorem test_word_halt : decode 0xFFE00000 = .instr (.halt) ∧ encode (.halt) = 0xFFE00000 := by decide
theorem test_word_dump : decode 0xFFC00000 = .instr (.dump) ∧ encode (.dump) = 0xFFC00000 := by decide

/-- VX1 to VX7, VR20. -/
theorem test_invalid_words : decode 0x00000000 = .invalid ∧ decode 0x1E204000 = .invalid ∧ decode 0x9AC30441 = .invalid ∧
    decode 0xD65F03C0 = .invalid ∧ decode 0x54000006 = .invalid ∧ decode 0xFF600000 = .invalid ∧
    decode 0xFEA00000 = .invalid ∧ decode 0x9AC30041 = .invalid := by decide
/-- VX9, VB6, VM4, VD12, VI36: ignored bits. -/
theorem test_ignored_bits : decode 0xFFFFFFFF = .instr .halt ∧ decode 0xD61F03C0 = .instr (.br 0) ∧
    decode 0xD2F7DDE3 = .instr (.movz 3 48879) ∧ decode 0xF8408C41 = .instr (.ldur 1 2 8) ∧
    decode 0xFE001C25 = .instr (.cmpi 1 7) := by decide
/-- VI3: an operand outside its field is truncated. -/
theorem test_encode_truncates : encodeI .addi 1 0 (-1) = 0x913FFC01 ∧ encode (.addi 1 0 8191) = 0x913FFC01 := by decide
/-- The table's numbering: a word of 32 bits is the number itself (R51). -/
theorem test_decodeTableWord : decodeTableWord 32 0x8B030041 = some (.add 1 2 3) ∧ decodeTableWord 32 0 = none := by decide
/-- S1. -/
theorem test_setRange : setRange (0xFFFFFFFF : InstrWord) 10 21 5 = 0xFFC017FF ∧
    setRange (0 : InstrWord) 5 9 0x3F = 0x3E0 ∧ setRange (0x12345678 : InstrWord) 16 20 (-1) = 0x123F5678 ∧
    setRange (0 : InstrWord) 31 31 1 = 0x80000000 ∧ setRange (0xFFFFFFFF : InstrWord) 0 31 0x100000002 = 2 := by decide

/-! ## One step on small states -/

/-- -2^63. -/
def least : Word := 0x8000000000000000
/-- 2^63 - 1. -/
def most : Word := 0x7FFFFFFFFFFFFFFF

/-- A running machine of 64 bytes at index 0. -/
def begun : State := setRun (State.resetWith 64 [] []) .running
/-- Two registers given values. -/
def with2 (r : Reg) (a : Word) (q : Reg) (b : Word) (s : State) : State := writeReg (writeReg s r a) q b
/-- Bytes stored into data memory. -/
def withBytes (a : Nat) (bs : List Byte) (s : State) : State := setMem s (Memory.writeBytes s.mem a bs)
/-- The machine with one entry at `pc`. -/
def withEntry (w : InstrWord) (payload : Text) (s : State) : State :=
  { s with prog := List.replicate s.pc.toNat ⟨0, [], 0⟩ ++ [⟨w, payload, 1⟩] }
/-- What a step answers of the machine with a word at `pc`. -/
def go (w : InstrWord) (s : State) : Option State :=
  match step (withEntry w [] s) with
  | .next t => some t
  | _ => none
/-- A register after that step. -/
def regOf (w : InstrWord) (s : State) (r : Reg) : Option Word := (go w s).map (fun t => readReg t r)
/-- The flags after that step, as `Z`, `N`, `C`, `V`. -/
def flagsOfStep (w : InstrWord) (s : State) : Option Flags := (go w s).map State.flags
/-- The program counter after that step. -/
def pcOf (w : InstrWord) (s : State) : Option Int := (go w s).map State.pc
/-- Bytes of memory after that step. -/
def bytesOf (w : InstrWord) (s : State) (a n : Nat) : Option (List Byte) := (go w s).map (fun t => Memory.readBytes t.mem a n)
/-- Fault latch, run latch and `pc` after that step. -/
def failOf (w : InstrWord) (s : State) : Option (Option Failure × RunState × Int) :=
  (go w s).map (fun t => (t.fault, t.run, t.pc))
/-- The events after that step, for a payload. -/
def outOf (w : InstrWord) (payload : Text) (s : State) : Option (List Event) :=
  match step (withEntry w payload s) with
  | .next t => some t.out
  | _ => none

/-- VR1. -/
theorem test_add_wraps : regOf 0x8B030041 (writeReg (writeReg begun 2 most) 3 1) 1 = some least := by decide
/-- VR2. -/
theorem test_add_same_register : regOf 0x8B010021 (writeReg begun 1 21) 1 = some 42 := by decide
/-- VR4. -/
theorem test_sub_wraps : regOf 0xCB030041 (writeReg (writeReg begun 2 least) 3 1) 1 = some most := by decide
/-- VR5. -/
theorem test_sub_negates_min : regOf 0xCB0303E1 (writeReg begun 3 least) 1 = some least := by decide
/-- VR6. -/
theorem test_and : regOf 0x8A030041 (writeReg (writeReg begun 2 65295) 3 4080) 1 = some 3840 := by decide
/-- VR7. -/
theorem test_orr : regOf 0xAA0303E1 (writeReg begun 3 (-7)) 1 = some (-7) := by decide
/-- VR8. -/
theorem test_eor : regOf 0xCA030041 (writeReg (writeReg begun 2 4660) 3 (-1)) 1 = some (-4661) := by decide
/-- VR11. -/
theorem test_mul_low_bits : regOf 0x9B030041 (writeReg (writeReg begun 2 4886718345) 3 68719476737) 1 = some 3771334302726711177 := by decide
/-- VR10. -/
theorem test_mul_min : regOf 0x9B030041 (writeReg (writeReg begun 2 (-1)) 3 least) 1 = some least := by decide
/-- VR13. -/
theorem test_sdiv_toward_zero : regOf 0x9AC30841 (writeReg (writeReg begun 2 (-7)) 3 2) 1 = some (-3) := by decide
/-- VR18, VR19. -/
theorem test_sdiv_by_zero : failOf 0x9ADF0841 (writeReg begun 2 5) = some (some ⟨.divideByZero, 0, 0⟩, .failed, 1) := by decide
/-- VF2. -/
theorem test_adds_overflow : flagsOfStep 0xAB020023 (writeReg (writeReg begun 1 most) 2 1) = some ⟨false, true, true, true⟩ := by decide
/-- VF4. -/
theorem test_adds_min_min : flagsOfStep 0xAB020023 (writeReg (writeReg begun 1 least) 2 least) = some ⟨true, false, true, false⟩ := by decide
/-- VF8. -/
theorem test_subs_small_difference : flagsOfStep 0xEB020023 (writeReg (writeReg begun 1 5) 2 3) = some ⟨false, false, true, false⟩ := by decide
/-- VF12. -/
theorem test_subs_true_overflow : flagsOfStep 0xEB020023 (writeReg (writeReg begun 1 most) 2 (-1)) = some ⟨false, true, false, false⟩ := by decide
/-- VF19. -/
theorem test_ands_sign_formula : flagsOfStep 0xEA020023 (writeReg (writeReg begun 1 6) 2 3) = some ⟨false, false, true, false⟩ := by decide
/-- VF22. -/
theorem test_ands_result : regOf 0xEA020023 (writeReg (writeReg begun 1 (-4)) 2 (-6)) 3 = some (-8) := by decide
/-- VR23. -/
theorem test_lsl_63 : regOf 0xD360FC41 (writeReg begun 2 3) 1 = some least := by decide
/-- VR24. -/
theorem test_lsl_0 : regOf 0xD3600041 (writeReg begun 2 (-5)) 1 = some (-5) := by decide
/-- VR26. -/
theorem test_lsr_zero_fill : regOf 0xD3400441 (writeReg begun 2 (-1)) 1 = some most := by decide
/-- VR25. -/
theorem test_lsr_63 : regOf 0xD340FC41 (writeReg begun 2 least) 1 = some 1 := by decide
/-- VB4. -/
theorem test_br_clamps : pcOf 0xD6000005 (writeReg begun 5 most) = some 9007199254740991 := by decide
/-- VB3. -/
theorem test_br_negative : pcOf 0xD6000005 (writeReg begun 5 (-1)) = some (-1) := by decide
/-- VC1. -/
theorem test_cmp_less : flagsOfStep 0xFE400041 (writeReg (writeReg begun 1 3) 2 5) = some ⟨false, true, true, true⟩ := by decide
/-- VC7. -/
theorem test_cmp_min : flagsOfStep 0xFE400041 (writeReg (writeReg begun 1 least) 2 1) = some ⟨false, false, false, false⟩ := by decide
/-- VR28. -/
theorem test_mov : regOf 0xFE600041 (writeReg begun 2 (-5)) 1 = some (-5) := by decide
/-- VR21. -/
theorem test_udiv_fails : failOf 0x9AC30C41 (setPc (writeReg begun 1 9) 1) = some (some ⟨.unimplemented, 1, 1⟩, .failed, 2) := by decide
/-- VI2. -/
theorem test_addi_wraps : regOf 0x91000441 (writeReg begun 2 most) 1 = some least := by decide
/-- VI3. -/
theorem test_addi_unsigned : regOf 0x913FFC01 begun 1 = some 4095 := by decide
/-- VI5. -/
theorem test_subi : regOf 0xD13FFC41 (writeReg begun 2 4096) 1 = some 1 := by decide
/-- VI8. -/
theorem test_andi : regOf 0x9203FC41 (writeReg begun 2 (-1)) 1 = some 255 := by decide
/-- VI10. -/
theorem test_orri : regOf 0xB23FFC41 (writeReg begun 2 least) 1 = some 9223372036854779903 := by decide
/-- VI12. -/
theorem test_eori : regOf 0xD23FFC41 (writeReg begun 2 (-1)) 1 = some (-4096) := by decide
/-- VI14. -/
theorem test_addis_overflow : flagsOfStep 0xB1000441 (writeReg begun 2 most) = some ⟨false, true, true, true⟩ := by decide
/-- VI17. -/
theorem test_addis_result : regOf 0xB1000C41 (writeReg begun 2 (-5)) 1 = some (-2) := by decide
/-- VI20. -/
theorem test_subis_greater : flagsOfStep 0xF1001441 (writeReg begun 2 3) = some ⟨false, true, true, true⟩ := by decide
/-- VI25. -/
theorem test_subis_by_zero : flagsOfStep 0xF1000041 (writeReg begun 2 7) = some ⟨false, false, false, false⟩ := by decide
/-- VI28. -/
theorem test_andis : flagsOfStep 0xF2000C23 (writeReg begun 1 4) = some ⟨true, false, true, false⟩ := by decide
/-- VI30. -/
theorem test_cmpi_equal : flagsOfStep 0xFE001C20 (writeReg begun 1 7) = some ⟨true, false, true, false⟩ := by decide
/-- VI36. -/
theorem test_cmpi_rd_ignored : regOf 0xFE001C25 (writeReg (writeReg begun 1 7) 5 77) 5 = some 77 := by decide
/-- VM1. -/
theorem test_movz_clears : regOf 0xD297DDE3 (writeReg begun 3 (-1)) 3 = some 48879 := by decide
/-- VM7. -/
theorem test_movk_keeps : regOf 0xF2800003 (writeReg begun 3 1311768467463790320) 3 = some 1311768467463733248 := by decide
/-- VD1. -/
theorem test_stur : bytesOf 0xF8008041 (with2 1 0x1122334455667788 2 16 begun) 24 8 = some [0x88, 0x77, 0x66, 0x55, 0x44, 0x33, 0x22, 0x11] := by decide
/-- VD2. -/
theorem test_sturw : bytesOf 0xB8008041 (with2 1 0x1122334455667788 2 16 begun) 24 8 = some [0x88, 0x77, 0x66, 0x55, 0, 0, 0, 0] := by decide
/-- VD3. -/
theorem test_sturh : bytesOf 0x78008041 (with2 1 0x1122334455667788 2 16 begun) 24 8 = some [0x88, 0x77, 0, 0, 0, 0, 0, 0] := by decide
/-- VD4. -/
theorem test_sturb : bytesOf 0x38008041 (with2 1 0x1122334455667788 2 16 begun) 24 8 = some [0x88, 0, 0, 0, 0, 0, 0, 0] := by decide
/-- VD5. -/
theorem test_ldur : regOf 0xF8408041 (withBytes 24 [0x88, 0x99, 0xAA, 0xBB, 0xCC, 0xDD, 0xEE, 0xFF] (writeReg begun 2 16)) 1 = some 0xFFEEDDCCBBAA9988 := by decide
/-- VD6. -/
theorem test_ldursw : regOf 0xB8808041 (withBytes 24 [0x88, 0x99, 0xAA, 0xBB, 0xCC, 0xDD, 0xEE, 0xFF] (writeReg begun 2 16)) 1 = some 0xFFFFFFFFBBAA9988 := by decide
/-- VD7. -/
theorem test_ldurh : regOf 0x78408041 (withBytes 24 [0x88, 0x99, 0xAA, 0xBB, 0xCC, 0xDD, 0xEE, 0xFF] (writeReg begun 2 16)) 1 = some 39304 := by decide
/-- VD8. -/
theorem test_ldurb : regOf 0x38408041 (withBytes 24 [0x88, 0x99, 0xAA, 0xBB, 0xCC, 0xDD, 0xEE, 0xFF] (writeReg begun 2 16)) 1 = some 136 := by decide
/-- VD13. -/
theorem test_ldur_last_address : regOf 0xF84383E1 (withBytes 63 [0x80] begun) 1 = some least := by decide
/-- VD16. -/
theorem test_ldurb_outside : failOf 0x384403E1 begun = some (some ⟨.addressOutOfRange, 0, 64⟩, .failed, 1) := by decide
/-- VD17. -/
theorem test_ldursw_outside : failOf 0xB883D3E1 begun = some (some ⟨.addressOutOfRange, 0, 61⟩, .failed, 1) := by decide
/-- VD18. -/
theorem test_ldurh_outside : failOf 0x7843F3E1 begun = some (some ⟨.addressOutOfRange, 0, 63⟩, .failed, 1) := by decide
/-- VD22. -/
theorem test_stur_not_wrapped : failOf 0xF81FF041 (writeReg begun 2 most) =
    some (some ⟨.addressOutOfRange, 0, 9223372036854776318⟩, .failed, 1) := by decide
/-- VD25. -/
theorem test_lda_fails : failOf 0xFE800041 (setPc begun 2) = some (some ⟨.unimplemented, 2, 2⟩, .failed, 3) := by decide
/-- VD26. -/
theorem test_ldxr_fails : failOf 0xC8400041 begun = some (some ⟨.unimplemented, 0, 0⟩, .failed, 1) := by decide
/-- VD27. -/
theorem test_stxr_fails : failOf 0xC8000041 begun = some (some ⟨.unimplemented, 0, 0⟩, .failed, 1) := by decide
/-- VJ4. -/
theorem test_b : pcOf 0x17FFFFFF (setPc begun 2) = some 67108863 := by decide
/-- VJ5. -/
theorem test_bl_links : regOf 0x94000007 (setPc (writeReg begun 30 99) 2) 30 = some 3 := by decide
/-- VJ5. -/
theorem test_bl_jumps : pcOf 0x94000007 (setPc begun 2) = some 7 := by decide
/-- VK3. -/
theorem test_cbz_tests_all_bits : pcOf 0xB4000121 (setPc (writeReg begun 1 least) 2) = some 3 := by decide
/-- VK1. -/
theorem test_cbz_taken : pcOf 0xB4000121 (setPc begun 2) = some 9 := by decide
/-- VK6. -/
theorem test_cbnz_taken : pcOf 0xB5000121 (setPc (writeReg begun 1 (-1)) 2) = some 9 := by decide
/-- VK5. -/
theorem test_cbnz_not_taken : pcOf 0xB5000121 (setPc begun 2) = some 3 := by decide
/-- Where a branch to 9 at index 2 goes, for `Z` and `N` as 00, 01, 10 and 11, with `C` and `V` set. -/
def takenBy (w : InstrWord) : List (Option Int) :=
  [(false, false), (false, true), (true, false), (true, true)].map
    (fun p => pcOf w (writeFlags (setPc begun 2) ⟨p.1, p.2, true, true⟩))
/-- VK8. -/
theorem test_bEQ : takenBy 0x54000120 = [some 3, some 3, some 9, some 9] := by decide
/-- VK9. -/
theorem test_bNE : takenBy 0x54000121 = [some 9, some 9, some 3, some 3] := by decide
/-- VK10. -/
theorem test_bLT : takenBy 0x5400012B = [some 3, some 9, some 3, some 3] := by decide
/-- VK11. -/
theorem test_bLO : takenBy 0x54000123 = [some 3, some 9, some 3, some 3] := by decide
/-- VK12. -/
theorem test_bLE : takenBy 0x5400012D = [some 3, some 9, some 9, some 9] := by decide
/-- VK13. -/
theorem test_bLS : takenBy 0x54000129 = [some 3, some 9, some 9, some 9] := by decide
/-- VK14. -/
theorem test_bGT : takenBy 0x5400012C = [some 9, some 3, some 3, some 3] := by decide
/-- VK15. -/
theorem test_bHI : takenBy 0x54000128 = [some 9, some 3, some 3, some 3] := by decide
/-- VK16. -/
theorem test_bGE : takenBy 0x5400012A = [some 3, some 9, some 9, some 9] := by decide
/-- VK17. -/
theorem test_bHS : takenBy 0x54000122 = [some 3, some 9, some 9, some 9] := by decide
/-- VK18. -/
theorem test_bPL : takenBy 0x54000125 = [some 9, some 3, some 9, some 3] := by decide
/-- VK19. -/
theorem test_bMI : takenBy 0x54000124 = [some 3, some 9, some 3, some 9] := by decide
/-- VZ1. -/
theorem test_prnl : outOf 0xFF800000 [] (setPc begun 1) = some [.blankLine] := by decide
/-- VZ2. -/
theorem test_halt_ends : (go 0xFFE00000 (setPc begun 3)).map (fun t => (t.run, t.pc)) = some (.ended, 4) := by decide
/-- VZ3. -/
theorem test_dump_event : outOf 0xFFC00000 [] begun = some [.dump (((Vector.replicate 32 0).set 28 64).set 29 64) 64 []] := by decide
/-- The state of R179, with a byte at address 0. -/
def printer : State := withBytes 0 [255] (withBytes 3 [7] (writeReg (with2 1 42 2 3 begun) 30 9))
/-- What `PRNT` prints in that state for each payload: R179, VZ6, VZ9, VZ12, VZ13, VZ14. -/
theorem test_prnt_table :
    ["lr".toList,
     "a".toList ++ [openBrace] ++ "X1".toList ++ [closeBrace] ++ "b[X2]c".toList,
     "hello world".toList,
     [openBrace] ++ " X1 ".toList ++ [closeBrace],
     [openBrace] ++ "Y1".toList ++ [closeBrace],
     "v=".toList ++ [openBrace] ++ "X1".toList,
     "v=".toList ++ [openBrace] ++ "Y1".toList,
     "a".toList ++ [closeBrace] ++ "b".toList,
     [openBrace] ++ "X1]".toList,
     [],
     "[XZR]".toList,
     "a[X2".toList,
     [openBrace] ++ [closeBrace],
     [openBrace] ++ [openBrace] ++ "X1".toList ++ [closeBrace] ++ [closeBrace]].map (fun p => outOf 0xFFA00000 p printer) =
    ["9".toList,
     "a42b7c".toList,
     "hello world".toList,
     "42".toList,
     [openBrace] ++ "Y1".toList ++ [closeBrace],
     "v=42".toList,
     "v=".toList ++ [openBrace] ++ "Y1".toList,
     "a".toList ++ [closeBrace] ++ "b".toList,
     [openBrace] ++ "X1]".toList,
     [],
     "255".toList,
     "a7".toList,
     [openBrace] ++ [closeBrace],
     [openBrace] ++ [openBrace] ++ "X1".toList ++ [closeBrace] ++ [closeBrace]].map (fun o => some [Event.print o]) := by decide
/-- VZ16. -/
theorem test_prnt_bad_address : outOf 0xFFA00000 "[sp]".toList begun = some [.error .addressOutOfRange (some .prnt) (some .Z)] := by decide

/-! ## The step, reset and the host (R185 to R187, R207, R215) -/

/-- VL1. -/
theorem test_step_idle : (match step State.reset with | .next t => decide (t = State.reset) | _ => false) = true := by decide
/-- VL3. -/
theorem test_step_empty_program : (match step begun with | .next t => decide (t = setRun begun .ended) | _ => false) = true := by decide
/-- VR20, VX1. -/
theorem test_step_invalid : outOf 0 [] begun = some [.error .invalidEncoding none none] := by decide
/-- S3. -/
theorem test_withFetchWord_runs : (match step (State.reset.withFetchWord 32 0x91001401) with
      | .next t => (readReg t 1, t.pc, t.trace) | _ => (0, 0, [])) = (5, 1, [0]) := by decide
/-- R215. -/
theorem test_reset_pointers : (readReg State.reset 28, readReg State.reset 29, readReg State.reset 31) = (4096, 4096, 0) := by decide
/-- VL8. -/
theorem test_start_after_end : hostStart (setPc (setRun (writeReg begun 1 5) .ended) 9) = begun := by decide

/-- R207: stop on an idle machine, and on a failed one. -/
theorem test_stop_not_running : (hostStop State.reset).run = .ended ∧ (hostStop (setRun begun .failed)).run = .ended := by
  decide

/-! ## Assembler and formatter (R75 to R86) -/

/-- What a line assembles to, without labels. -/
def wordOf (mn args : Text) : Option InstrWord :=
  match assembleLine [("loop".toList, 2)] ⟨1, mn, args⟩ with
  | .ok e => some e.word
  | .error _ => none

/-- S2. -/
theorem test_asm_three_registers : wordOf "add".toList " X1, x2,X3".toList = some 0x8B030041 := by decide
/-- S2. -/
theorem test_asm_memory : wordOf "STURW".toList " X9, [SP, #511]".toList = some 0xB81FF389 := by decide
/-- P1. -/
theorem test_asm_label : wordOf "CBNZ".toList " X1, loop".toList = some 0xB5000041 := by decide
/-- VI3. -/
theorem test_asm_negative_immediate : wordOf "ADDI".toList " X1, X0, #-1".toList = some 0x913FFC01 := by decide
/-- S2, R63. -/
theorem test_asm_condition : wordOf "B.LE".toList " loop:".toList = some 0x5400004D := by decide
/-- R82. -/
theorem test_asm_missing_operand : wordOf "ADD".toList " X1, X2".toList = none := by decide
/-- R76, R80: a label binds to the next index. -/
theorem test_assemble_label_line : (match assemble "a:\nPRNT X1 // c\nB a".toList with
      | .program p => (p.labels, p.entries)
      | .errors _ => ([], [])) =
    ([("a".toList, 0)], [⟨0xFFA00000, "X1".toList, 2⟩, ⟨0x14000000, [], 3⟩]) := by decide
/-- R82. -/
theorem test_assemble_error : (match assemble "FOO X1".toList with
      | .program _ => []
      | .errors es => es.map AsmError.kind) = [.unrecognizedMnemonic] := by decide
/-- R82: a second binding of a label is none of the three errors (log 15). -/
theorem test_assemble_label_twice : (match assemble "a:\nHALT\na:\nHALT".toList with
      | .program p => (labelBindings p.labels "a".toList, p.entries.length)
      | .errors _ => ([], 0)) = ([0, 1], 2) := by decide
/-- S2. -/
theorem test_render_memory : render 0xB81FF389 [] = "STURW X9, [X28, #511]".toList := by decide
/-- S2. -/
theorem test_render_condition : render 0x5400018D [] = "B.LE 12".toList := by decide
/-- R86. -/
theorem test_render_invalid : render 0x0000ABCD [] = ".word 0x0000ABCD".toList := by decide
/-- R177. -/
theorem test_dec : dec (-5) = "-5".toList ∧ dec 0 = "0".toList ∧ dec 1024 = "1024".toList := by decide
/-- R208. -/
theorem test_register_list : (hostRegisters begun)[28]? = some ⟨"X28".toList, some "SP".toList, 64⟩ := by decide

/-! ## Witnesses: the hypotheses of each obligation are met, per clause, at the edges of its ranges -/

/-- A running machine with a program, at an index. -/
def running (pc : Int) (words : List InstrWord) (payload : Text) (s : State) : State :=
  setPc { s with prog := words.map (fun w => ⟨w, payload, 1⟩) } pc

/-- A property of every character of a text, by going through the text. -/
theorem each {l : Text} {p : Char → Prop} [DecidablePred p] (h : l.all (fun c => decide (p c)) = true) : ∀ c ∈ l, p c :=
  fun c hc => of_decide_eq_true (List.all_eq_true.mp h c hc)
/-- A character of a text with a property, by going through the text. -/
theorem anyOf {l : Text} {p : Char → Prop} [DecidablePred p] (h : l.any (fun c => decide (p c)) = true) : ∃ c ∈ l, p c :=
  let ⟨c, hc, hp⟩ := List.any_eq_true.mp h
  ⟨c, hc, of_decide_eq_true hp⟩

theorem witness_SdivRoundsTowardZero :
    readReg (with2 2 7 3 (-2) begun) 3 ≠ 0 ∧
    (readReg (with2 2 least 3 (-1) begun) 3 ≠ 0 ∧ (readReg (with2 2 least 3 (-1) begun) 2).toInt = -2 ^ 63 ∧
      (readReg (with2 2 least 3 (-1) begun) 3).toInt = -1) := by decide
theorem witness_SdivByZeroFails : readReg (writeReg begun 2 5) 3 = 0 ∧ readReg (writeReg begun 2 5) 31 = 0 := by decide
theorem witness_CarryOverflowTable_signs :
    ((0 : Word) = 0) ∧ ((-5 : Word).toInt < 0 ∧ (5 : Word).toInt > 0) ∧ ((5 : Word).toInt > 0 ∧ (-5 : Word).toInt < 0) := by
  decide
theorem witness_CarryOverflowTable_positive :
    most.toInt > 0 ∧ (1 : Word).toInt > 0 ∧ (5 : Word).toInt + (3 : Word).toInt < 2 ^ 63 ∧
    most.toInt + (1 : Word).toInt ≥ 2 ^ 63 ∧ (5 : Word).toInt > (3 : Word).toInt ∧ (3 : Word).toInt < (5 : Word).toInt := by
  decide
theorem witness_CarryOverflowTable_negative :
    least.toInt < 0 ∧ (-1 : Word).toInt < 0 ∧ (-3 : Word).toInt + (-4 : Word).toInt ≥ -2 ^ 63 ∧
    least.toInt + (-1 : Word).toInt < -2 ^ 63 ∧ (-3 : Word).toInt > (-5 : Word).toInt ∧
    (-5 : Word).toInt < (-3 : Word).toInt := by decide
theorem witness_ShiftForms : (0 : Nat) < 64 ∧ (63 : Nat) < 64 := by decide
theorem witness_imm12_forms : (0 : Nat) < 4096 ∧ (4095 : Nat) < 4096 := by decide
theorem witness_CompareForms : (4095 : Nat) < 4096 := by decide
theorem witness_ImmediateArithmeticForms : (4095 : Nat) < 4096 := by decide
theorem witness_ImmediateLogicForms : (4095 : Nat) < 4096 := by decide
theorem witness_FlagSettingImmediateForms : (4095 : Nat) < 4096 := by decide
theorem witness_MoveForms : (0 : Nat) < 65536 ∧ (65535 : Nat) < 65536 := by decide
theorem witness_EffectiveAddressIsNotWrapped :
    (511 : Nat) < 512 ∧ (readReg (writeReg begun 2 most) 2).toInt = 2 ^ 63 - 1 ∧ (0 : Nat) < 511 ∧
    (writeReg begun 2 most).memSize < 2 ^ 63 := by decide
/-- Addresses 0 and, for each width, the last one admitted in 64 bytes. -/
theorem witness_AdmittedLoadsReadBytes :
    (∀ p ∈ [(0, 8), (56, 8), (63, 1), (62, 2), (60, 4)], p.1 < 512 ∧
      ((p.1 : Nat) : Int) = (readReg begun 31).toInt + ((p.1 : Nat) : Int) ∧ (0 : Int) ≤ ((p.1 : Nat) : Int) ∧
      ((p.1 : Nat) : Int) + ((p.2 : Nat) : Int) ≤ begun.memSize) := by decide
theorem witness_AdmittedStoresWriteBytes :
    Memory.wf begun.mem ∧ ∀ p ∈ [(0, 8), (56, 8), (63, 1), (62, 2), (60, 4)], p.1 < 512 ∧
      0 ≤ effectiveAddress begun 31 p.1 ∧ effectiveAddress begun 31 p.1 + ((p.2 : Nat) : Int) ≤ begun.memSize := by decide
/-- Address -8 below memory, and for each width the first address past the last admitted one. -/
theorem witness_AccessOutsideMemoryFails :
    ((0 : Nat) < 512 ∧ (-8 : Int) = (readReg (writeReg begun 2 (-8)) 2).toInt + ((0 : Nat) : Int) ∧ (-8 : Int) < 0) ∧
    (∀ p ∈ [(57, 8), (64, 1), (63, 2), (61, 4)], p.1 < 512 ∧
      ((p.1 : Nat) : Int) = (readReg begun 31).toInt + ((p.1 : Nat) : Int) ∧
      ((p.1 : Nat) : Int) + ((p.2 : Nat) : Int) > begun.memSize) := by decide
theorem witness_StoreThenLoadGivesValue :
    (2 : Reg) ≠ 31 ∧ Memory.wf begun.mem ∧ ∀ p ∈ [(0, 8), (56, 8), (63, 1), (62, 2), (60, 4)],
      0 ≤ effectiveAddress begun 31 p.1 ∧ effectiveAddress begun 31 p.1 + ((p.2 : Nat) : Int) ≤ begun.memSize := by decide
theorem witness_ByteLoadSeesByteOfStore :
    (2 : Reg) ≠ 31 ∧ Memory.wf begun.mem ∧ 56 + 7 < 512 ∧ 7 < 8 ∧ 0 ≤ effectiveAddress begun 31 56 ∧
    effectiveAddress begun 31 56 + 8 ≤ begun.memSize := by decide
theorem witness_JumpAndCallForms : (0 : Nat) < 2 ^ 26 ∧ (67108863 : Nat) < 2 ^ 26 := by decide
/-- S7: a call at index 0 of a routine at index 2 that only returns. -/
theorem witness_CallThenReturn :
    (running 0 [0x94000002, 0xFFE00000, 0xD600001E] [] begun).run = .running ∧ 2 < 2 ^ 26 ∧
    progEntry (running 0 [0x94000002, 0xFFE00000, 0xD600001E] [] begun) 0 = some ⟨0x94000002, [], 1⟩ ∧
    decode 0x94000002 = .instr (.bl 2) ∧
    progEntry (running 0 [0x94000002, 0xFFE00000, 0xD600001E] [] begun) 2 = some ⟨0xD600001E, [], 1⟩ ∧
    decode 0xD600001E = .instr (.br 30) ∧ (0 : Int) < 2 ^ 53 - 1 := by decide
theorem witness_CompareAndBranchForms : (0 : Nat) < 2 ^ 19 ∧ (524287 : Nat) < 2 ^ 19 := by decide
theorem witness_ConditionalBranchTable : (0 : Nat) < 2 ^ 19 ∧ (524287 : Nat) < 2 ^ 19 := by decide
theorem witness_NoInstructionReadsCarryOrOverflow : ∃ t, exec (.subis 2 0 1) begun = .next t := ⟨_, rfl⟩
theorem witness_PrintRegisterPayload :
    (∀ c ∈ currentPayload (running 1 [0xFFA00000] "X1".toList begun), c ≠ ' ' ∧ c ≠ '\t') ∧
    parseReg (currentPayload (running 1 [0xFFA00000] "X1".toList begun)) = some 1 := ⟨each (by decide), by decide⟩
/-- A payload with white space, and one without that is no register name. -/
theorem witness_PrintPlainPayload :
    ((∀ c ∈ currentPayload (running 1 [0xFFA00000] "hello world".toList begun), c ≠ openBrace ∧ c ≠ openSquare) ∧
      ∃ c ∈ currentPayload (running 1 [0xFFA00000] "hello world".toList begun), c = ' ' ∨ c = '\t') ∧
    ((∀ c ∈ currentPayload (running 1 [0xFFA00000] "hello".toList begun), c ≠ openBrace ∧ c ≠ openSquare) ∧
      parseReg (currentPayload (running 1 [0xFFA00000] "hello".toList begun)) = none) :=
  ⟨⟨each (by decide), anyOf (by decide)⟩, each (by decide), by decide⟩
/-- What every payload starts with. -/
theorem scansTo_nil (s : State) : ScansTo s [] [] := by
  intro rest
  cases h : scanText s rest <;> simp [PrintText.after, h]
theorem scansTo_a (s : State) : ScansTo s "a".toList "a".toList := by
  intro rest
  unfold scanText
  rw [scanPayload_plain _ _ (each (by decide)), piecesText_plain]
  cases piecesText s (scanPayload none rest) <;> rfl
/-- A register item, a memory item at the last address, items that name no register, and a payload with a bracket. -/
theorem witness_PrintItemPayload : ScansTo (writeReg begun 1 63) "a".toList "a".toList ∧
    (closeBrace ∉ " X1".toList ∧ parseReg (trim " X1".toList) = some 1) ∧
    (closeBrace ∉ "Y1".toList ∧ parseReg (trim "Y1".toList) = none) ∧
    (closeSquare ∉ "X1".toList ∧ parseReg (trim "X1".toList) = some 1 ∧
      0 ≤ (readReg (writeReg begun 1 63) 1).toInt ∧ (readReg (writeReg begun 1 63) 1).toInt < begun.memSize) ∧
    (closeSquare ∉ "Y1".toList ∧ parseReg (trim "Y1".toList) = none) ∧
    ∃ c ∈ currentPayload (running 1 [0xFFA00000] "a[X1]".toList begun), c = openBrace ∨ c = openSquare :=
  ⟨scansTo_a _, by decide, by decide, by decide, by decide, anyOf (by decide)⟩
/-- The address is MEM_SIZE, and -1; the item is closed, and not. -/
theorem witness_PrintBadAddressFails : (∀ s, ScansTo s "a".toList "a".toList) ∧ closeSquare ∉ "X1".toList ∧
    parseReg (trim "X1".toList) = some 1 ∧
    ∀ v ∈ [(64 : Word), -1], ∀ post ∈ [[], closeSquare :: "b".toList], (post = [] ∨ post.head? = some closeSquare) ∧
    ((readReg (running 1 [0xFFA00000] ("a".toList ++ openSquare :: "X1".toList ++ post) (writeReg begun 1 v)) 1).toInt
        < 0 ∨
      (readReg (running 1 [0xFFA00000] ("a".toList ++ openSquare :: "X1".toList ++ post)
        (writeReg begun 1 v)) 1).toInt ≥ begun.memSize) ∧
    currentPayload (running 1 [0xFFA00000] ("a".toList ++ openSquare :: "X1".toList ++ post) (writeReg begun 1 v)) =
      "a".toList ++ openSquare :: "X1".toList ++ post := by
  refine ⟨scansTo_a, by decide, by decide, fun v hv post hp => ?_⟩
  rcases List.mem_pair.mp hv with rfl | rfl <;> rcases List.mem_pair.mp hp with rfl | rfl <;> decide
/-- The only memory item of `[X1]` names X1, which holds the last address. -/
theorem witness_PrintWithoutMemoryItemCompletes (pre u name post : Text) (r : Reg)
    (_ : ScansTo (running 1 [0xFFA00000] "[X1]".toList (writeReg begun 1 63)) pre u)
    (h : currentPayload (running 1 [0xFFA00000] "[X1]".toList (writeReg begun 1 63)) =
      pre ++ openSquare :: name ++ post)
    (hn : closeSquare ∉ name) (hp : post = [] ∨ post.head? = some closeSquare) (hr : parseReg (trim name) = some r) :
    0 ≤ (readReg (running 1 [0xFFA00000] "[X1]".toList (writeReg begun 1 63)) r).toInt ∧
      (readReg (running 1 [0xFFA00000] "[X1]".toList (writeReg begun 1 63)) r).toInt < begun.memSize := by
  have h : ['[', 'X', '1', ']'] = pre ++ openSquare :: (name ++ post) := by
    rw [List.append_assoc, List.cons_append] at h
    exact h
  have hpre : pre = [] := by
    cases pre with
    | nil => rfl
    | cons c cs =>
      have h2 := (List.cons.inj h).2
      exact absurd (show openSquare ∈ ['X', '1', ']'] by rw [h2]; simp) (by decide)
  subst hpre
  have h := (List.cons.inj h).2
  have hname : name = ['X', '1'] := by
    match name, h, hn with
    | [], h, _ =>
      have h : ['X', '1', ']'] = post := h
      rw [← h] at hp
      exact absurd hp (by decide)
    | [_], h, _ =>
      have h : ['1', ']'] = post := (List.cons.inj h).2
      rw [← h] at hp
      exact absurd hp (by decide)
    | [_, _], h, _ => simp at h; rw [← h.1, ← h.2.1]
    | a :: b :: c :: cs, h, hn => simp at h; simp [closeSquare, ← h.2.2.1] at hn
  subst hname
  have : r = 1 := by
    have h1 : parseReg (trim ['X', '1']) = some 1 := by decide
    rw [h1] at hr
    exact (Option.some.inj hr).symm
  subst this
  decide
theorem witness_DecimalReadsBack : (0 : Int) < 5 ∧ (-5 : Int) < 0 := by decide
theorem witness_SetRangeThenGetRange : (31 ≤ 31 ∧ 31 < 32) ∧ (0 ≤ 31 ∧ 31 < 32) ∧ (5 ≤ 9 ∧ 9 < 32 ∧ 4 < 5 ∧ 9 < 10) := by
  decide
/-- Another assignment (R62): `CMP` at op11 0x7F5, `UDIV` at 0x4D7 without a condition on `shamt`. -/
def otherOptab : List OpRow := optab.map (fun r =>
  match r.mn with
  | .cmp => ⟨.cmp, 0x7F5, 0x7F5, 0xFEA00000, 0xFFE00000⟩
  | .udiv => ⟨.udiv, 0x4D7, 0x4D7, 0x9AE00000, 0xFFE00000⟩
  | _ => r)
theorem other_disjoint : ∀ r ∈ otherOptab, ∀ q ∈ otherOptab, r.mtch &&& q.mask = q.mtch &&& r.mask → r = q := by
  decide +kernel
theorem otherOptab_ok : OptabOk otherOptab where
  oneRowEach m := by cases m <;> decide +kernel
  rowsFit := by decide +kernel
  disjoint r hr q hq _ h h' := other_disjoint r hr q hq (agree_of_admits h h')
/-- With that table the numbers of the words change and nothing else (R62). -/
theorem test_other_optab : decode 0xFEA00083 otherOptab = .instr (.cmp 3 4) ∧
    encode (.cmp 3 4) otherOptab = 0xFEA00083 ∧ decode 0xFE400083 otherOptab = .invalid ∧
    encode (.udiv 1 2 3) otherOptab = 0x9AE30041 ∧ decode 0x9AE3FC41 otherOptab = .instr (.udiv 1 2 3) ∧
    encode (.sdiv 1 2 31) otherOptab = 0x9ADF0841 := by decide
/-- A machine with that table runs the words by it. -/
theorem test_step_other_optab :
    (match step { running 0 [0xFEA00083] [] begun with optab := otherOptab } with
      | .next t => some (t.run, t.flags.z)
      | _ => none) = some (.running, true) := by decide
theorem witness_DecodeOfEncode : OptabOk otherOptab ∧ (Instr.addi 1 0 4095).wellFormed = true ∧
    (Instr.lsl 1 2 63).wellFormed = true ∧ (Instr.cbz 17 524287).wellFormed = true :=
  ⟨otherOptab_ok, by decide⟩
/-- A word that decodes; and one program in two tables, with a step. -/
theorem witness_DecodedWordHasOneRow : decode 0x8B030041 = .instr (.add 1 2 3) ∧
    (∀ (k : Nat) (e e' : ProgEntry), (running 0 [0xFE400083] [] begun).prog[k]? = some e →
      [(⟨0xFEA00083, [], 1⟩ : ProgEntry)][k]? = some e' →
      e'.payload = e.payload ∧
        decode e'.word otherOptab = decode e.word (running 0 [0xFE400083] [] begun).optab) ∧
    ∃ t, step (running 0 [0xFE400083] [] begun) = .next t := by
  refine ⟨by decide, fun k e e' h h' => ?_, _, rfl⟩
  match k with
  | 0 => cases h; cases h'; decide
  | k + 1 => cases h'
theorem witness_RowsSelectByOp11 : (⟨.sdiv, 0x4D6, 0x4D6, 0x9AC00800, 0xFFE0FC00⟩ : OpRow) ∈ optab ∧
    (⟨.udiv, 0x4D6, 0x4D6, 0x9AC00C00, 0xFFE0FC00⟩ : OpRow) ∈ optab ∧
    (⟨.bLE, 0x2A0, 0x2A7, 0x5400000D, 0xFF00001F⟩ : OpRow) ∈ optab := by decide
/-- One word for each way to be illegal, with the boundary condition code 14. -/
theorem witness_IllegalWords : (∀ r ∈ optab, ¬ (r.op11Min ≤ op11 0x00000000 ∧ op11 0x00000000 ≤ r.op11Max)) ∧
    (op11 0x9AC30441 = 0x4D6 ∧ fieldShamt 0x9AC30441 = 1) ∧
    (op11 0x5400000E = 0x2A0 ∧ (fieldRd 0x5400000E).val = 14) := by decide
theorem witness_IgnoredBitsDoNotMatter : OptabOk otherOptab ∧ decode 0xD600001E otherOptab = .instr (.br 30) ∧
    (5, 9) ∈ ignoredRanges (Instr.br 30).mnemonic := ⟨otherOptab_ok, by decide⟩
theorem witness_StepNotRunningDoesNothing : State.reset.run = .idle ∧ (setRun begun .ended).run = .ended ∧
    (setRun begun .failed).run = .failed := by decide
theorem witness_PcOutOfRangeEndsRun : begun.run = .running ∧ (setPc begun (-1)).pc < 0 ∧
    (running 1 [0] [] begun).pc ≥ (running 1 [0] [] begun).prog.length := by decide
theorem witness_StepRunsDecodedInstruction : (running 0 [0x91001401] [] begun).run = .running ∧
    0 ≤ (running 0 [0x91001401] [] begun).pc ∧
    (running 0 [0x91001401] [] begun).prog[(running 0 [0x91001401] [] begun).pc.toNat]? = some ⟨0x91001401, [], 1⟩ ∧
    decode 0x91001401 = .instr (.addi 1 0 5) := by decide
theorem witness_StepOnIllegalWordFails : (running 0 [0] [] begun).run = .running ∧ 0 ≤ (running 0 [0] [] begun).pc ∧
    (running 0 [0] [] begun).prog[(running 0 [0] [] begun).pc.toNat]? = some ⟨0, [], 1⟩ ∧ decode 0 = .invalid := by
  decide
theorem witness_OnlyBranchesOverwritePc : (running 0 [0x91001401] [] begun).run = .running ∧
    progEntry (running 0 [0x91001401] [] begun) (running 0 [0x91001401] [] begun).pc = some ⟨0x91001401, [], 1⟩ ∧
    decode 0x91001401 = .instr (.addi 1 0 5) ∧ (∃ t, step (running 0 [0x91001401] [] begun) = .next t) ∧
    (Instr.addi 1 0 5).mnemonic ∉ branches ∧
    (running 1 [0x91001401] [] begun).pc = (running 1 [0x91001401] [] begun).prog.length :=
  ⟨by decide, by decide, by decide, ⟨_, rfl⟩, by decide, by decide⟩
theorem witness_OnlyFlagWritersWriteFlags : (∃ t, exec (.addi 1 0 5) begun = .next t) ∧
    (Instr.addi 1 0 5).mnemonic ∉ flagWriters := ⟨⟨_, rfl⟩, by decide⟩
/-- A destination other than the register asked for, and register 31 as destination. -/
theorem witness_OnlyDestinationIsWritten : (∃ t, exec (.addi 1 0 5) begun = .next t) ∧
    (Instr.addi 1 0 5).destination ≠ some 2 ∧ (∃ t, exec (.addi 31 31 7) begun = .next t) ∧
    (Instr.addi 31 31 7).destination = some 31 := ⟨⟨_, rfl⟩, by decide, ⟨_, rfl⟩, by decide⟩
theorem witness_OnlyStoresWriteMemory : (∃ t, exec (.ldur 1 31 0) begun = .next t) ∧
    (Instr.ldur 1 31 0).mnemonic ∉ storeMnemonics := ⟨⟨_, rfl⟩, by decide⟩
theorem witness_ProgramStoreNeverChanges : ∃ t, hostSteps 2 (running 0 [0x91001401, 0xFFE00000] [] begun) = .next t :=
  ⟨_, rfl⟩
theorem witness_TraceAndOutputOnlyGrow : ∃ t, step (running 0 [0xFF800000] [] begun) = .next t := ⟨_, rfl⟩
theorem witness_FailuresArePrecise : ∃ t, exec (.udiv 1 2 3) begun = .next t ∧ begun.run = .running ∧ t.run = .failed :=
  ⟨_, rfl, by decide, rfl⟩
/-- Each of the ends, and a branch to itself. -/
theorem witness_RunEndsInFourWays :
    (∃ t, step (setPc begun (-1)) = .next t ∧ t.run = .ended) ∧
    (∃ t, step (running 0 [0xFFE00000] [] begun) = .next t ∧ t.run = .ended) ∧
    (∃ t, step (running 0 [0xFFC00000] [] begun) = .next t ∧ t.run = .ended) ∧
    (∃ t, step (running 0 [0] [] begun) = .next t ∧ t.run = .failed) ∧
    (decode 0x9AC30841 = .instr (.sdiv 1 2 3) ∧ FailsIn (.sdiv 1 2 3) (beginStep (running 0 [0x9AC30841] [] begun)) ∧
      ∃ t, step (running 0 [0x9AC30841] [] begun) = .next t ∧ t.run = .failed) ∧
    (running 0 [0x14000000] [] begun).run = .running ∧ decode 0x14000000 = .instr (.b 0) ∧
    progEntry (running 0 [0x14000000] [] begun) 0 = some ⟨0x14000000, [], 1⟩ :=
  ⟨⟨_, rfl, rfl⟩, ⟨_, rfl, rfl⟩, ⟨_, rfl, rfl⟩, ⟨_, rfl, rfl⟩,
    ⟨by decide, (by decide : readReg (beginStep (running 0 [0x9AC30841] [] begun)) 3 = 0), _, rfl, rfl⟩, rfl, by decide,
    by decide⟩
theorem witness_ResetValues : (0 : Nat) < 2 ^ 63 ∧ (9223372036854775807 : Nat) < 2 ^ 63 := by decide
theorem witness_InvariantAtReset : ConfigOk (State.resetWith 64 [(3, 7)] [⟨0xFFE00000, [], 1⟩]) :=
  ⟨by decide, by decide, by decide, by decide, by decide, optabOk_default⟩
/-- A running machine that meets the invariant and steps. -/
theorem witness_StepKeepsInvariant : Inv (running 0 [0xF8000001] [] begun) ∧
    (∃ t, step (running 0 [0xF8000001] [] begun) = .next t) ∧ LatchIffFailed (running 0 [0xF8000001] [] begun) :=
  ⟨⟨⟨by decide, by decide, by decide, by decide, by decide, optabOk_default⟩, by decide, by decide, by decide, by decide, by decide,
    by decide, by decide, by decide, (by intro f h; cases h), by decide, by decide, by decide⟩, ⟨_, rfl⟩,
    (by decide : RunState.running = .failed ↔ (none : Option Failure) ≠ none)⟩
theorem witness_HostStartAndStop : begun.run = .running ∧ State.reset.run ≠ .running := by decide
theorem witness_HostStartAndStop_inv : Inv (running 0 [0xF8000001] [] begun) := witness_StepKeepsInvariant.1
theorem witness_AssemblingARenderingGivesTheWord : OptabOk otherOptab ∧ (Instr.addi 1 0 4095).wellFormed = true ∧
    (Instr.addi 1 0 4095).mnemonic ∉ branches ∧ (Instr.addi 1 0 4095).mnemonic.format ≠ .Z ∧
    (Instr.br 30).wellFormed = true ∧ (Instr.br 30).mnemonic = .br ∧ (Instr.br 30).mnemonic.format ≠ .Z :=
  ⟨otherOptab_ok, by decide⟩
theorem witness_AssembledProgramDropsNoLine :
    assemble "a:\nHALT".toList = .program ⟨[⟨0xFFE00000, [], 2⟩], [("a".toList, 0)]⟩ ∧
    labelBindings [("a".toList, 0)] "a".toList = [0] := by decide

end Sys2Proof.Tests
end

/-! ## The family of `20_memory.md`: the effective address, and what no step changes -/

namespace Sys2Proof.Machine

/-- Above MEM_SIZE no width is admitted, not even 0 bytes (R32). -/
theorem not_admitted_of_memSize_lt {s : State} {ea : Int} (h : (s.memSize : Int) < ea) (n : Nat) :
    ¬ admitted s ea n := by
  rintro ⟨-, hend⟩
  omega

theorem SameConfig.refl (s : State) : SameConfig s s := ⟨rfl, rfl, rfl, rfl⟩

theorem SameConfig.trans {s t u : State} (hst : SameConfig s t) (htu : SameConfig t u) : SameConfig s u := by
  obtain ⟨hprog, hsize, hinit, htab⟩ := hst
  obtain ⟨hprog', hsize', hinit', htab'⟩ := htu
  exact ⟨hprog'.trans hprog, hsize'.trans hsize, hinit'.trans hinit, htab'.trans htab⟩

/-- No instruction can write the configuration: none of the effects has it among what it changes (R10, R19). -/
theorem Effect.sameConfig {i : Instr} {s t : State} (h : Effect i s t) : SameConfig s t := by
  cases h with
  | stay => exact .refl s
  | jump | flags | store | fail | print | blank | stop => exact ⟨rfl, rfl, rfl, rfl⟩
  | reg | regFlags | call => simp [SameConfig]

/-- No step writes the configuration (R10, R19). -/
theorem step_sameConfig {s t : State} (h : step s = .next t) : SameConfig s t := by
  rcases step_cases h with ⟨_, rfl⟩ | ⟨_, _, rfl⟩ | ⟨_, _, i, _, _, hexec⟩ | ⟨_, _, _, _, rfl⟩
  · exact .refl _
  · exact ⟨rfl, rfl, rfl, rfl⟩
  · have hbegin : SameConfig s (beginStep s) := ⟨rfl, rfl, rfl, rfl⟩
    exact hbegin.trans (exec_effect hexec).sameConfig
  · exact ⟨rfl, rfl, rfl, rfl⟩

/-- `k + 1` steps that answer a next state are one step and then `k` steps. -/
theorem hostSteps_succ_cases {k : Nat} {s t : State} (h : hostSteps (k + 1) s = .next t) :
    ∃ s', step s = .next s' ∧ hostSteps k s' = .next t := by
  obtain ⟨s', hstep⟩ := step_next s
  rw [hostSteps, hstep] at h
  exact ⟨s', hstep, h⟩

theorem hostSteps_sameConfig {k : Nat} {s t : State} (h : hostSteps k s = .next t) : SameConfig s t := by
  induction k generalizing s with
  | zero => cases h; exact .refl _
  | succ k ih =>
    obtain ⟨s', hstep, hrest⟩ := hostSteps_succ_cases h
    exact (step_sameConfig hstep).trans (ih hrest)

/-- A fetch looks at the program store alone (R43). -/
theorem progEntry_congr {s t : State} (h : t.prog = s.prog) (i : Int) : progEntry t i = progEntry s i := by
  unfold progEntry
  rw [h]

/-- Settles O50, by induction on the number of steps: each step keeps the configuration, which holds the program. -/
theorem programStoreNeverChanges : Obligations.ProgramStoreNeverChanges := by
  intro k s t h
  obtain ⟨hprog, hsize, hinit, htab⟩ := hostSteps_sameConfig h
  exact ⟨progEntry_congr hprog, hsize, hinit, htab⟩

/-- Settles O16: the address is the exact sum, so past the largest base it lies above every MEM_SIZE below 2^63. -/
theorem effectiveAddressIsNotWrapped : Obligations.EffectiveAddressIsNotWrapped := by
  intro s rn dt hdt
  have hea := effectiveAddress_eq s rn hdt
  refine ⟨hea, fun hbase hpos hsize => ?_⟩
  have hlow : 2 ^ 63 ≤ effectiveAddress s rn dt := by omega
  exact ⟨hlow, not_admitted_of_memSize_lt (by omega)⟩

end Sys2Proof.Machine

/-! ## The family of `30_encoding.md`: bit fields, and the decoder after the encoder -/

namespace Sys2Proof

/-! ### Bit fields (R50) -/

/-- The value that `setRange` stores: `v` truncated to the range. -/
def truncated (lo hi : Nat) (v : Int) : Nat := (v % (2 ^ (hi - lo + 1) : Nat)).toNat

theorem truncated_cast (lo hi : Nat) (v : Int) : (truncated lo hi v : Int) = v % 2 ^ (hi - lo + 1) := by
  have hpos : (0 : Int) < 2 ^ (hi - lo + 1) := by positivity
  rw [truncated, Int.toNat_of_nonneg (Int.emod_nonneg _ (by push_cast; omega))]
  push_cast
  rfl

theorem truncated_lt (lo hi : Nat) (v : Int) : truncated lo hi v < 2 ^ (hi - lo + 1) := by
  have hlt : (truncated lo hi v : Int) < 2 ^ (hi - lo + 1) := by
    rw [truncated_cast]
    exact Int.emod_lt_of_pos _ (by positivity)
  exact_mod_cast hlt

theorem truncated_natCast (lo hi x : Nat) : truncated lo hi (x : Int) = x % 2 ^ (hi - lo + 1) := by
  rw [truncated, ← Int.natCast_emod, Int.toNat_natCast]

/-- -1 is stored as ones. -/
theorem truncated_neg_one (lo hi : Nat) : truncated lo hi (-1) = 2 ^ (hi - lo + 1) - 1 := by
  have hpos : 0 < 2 ^ (hi - lo + 1) := Nat.two_pow_pos _
  unfold truncated
  generalize 2 ^ (hi - lo + 1) = m at *
  rw [← Int.add_emod_right, Int.emod_eq_of_lt (by omega) (by omega)]
  omega

/-- Bit by bit: inside the range the stored value, outside it the word as it was. -/
theorem setRange_getLsbD {n : Nat} (w : BitVec n) {lo hi : Nat} (v : Int) (hle : lo ≤ hi) (hlt : hi < n) (k : Nat) :
    (setRange w lo hi v).getLsbD k =
      if lo ≤ k ∧ k ≤ hi then (truncated lo hi v).testBit (k - lo) else w.getLsbD k := by
  unfold setRange
  rw [← truncated]
  simp only [BitVec.getLsbD_or, BitVec.getLsbD_and, BitVec.getLsbD_not, BitVec.getLsbD_ofNat, Nat.testBit_shiftLeft]
  by_cases hk : lo ≤ k ∧ k ≤ hi
  · obtain ⟨hlo, hhi⟩ := hk
    have hmask : (2 ^ (hi - lo + 1) - 1).testBit (k - lo) = true := by
      rw [Nat.testBit_two_pow_sub_one, decide_eq_true_eq]
      omega
    simp [hlo, hhi, hmask, show k < n by omega]
  · have hout : ∀ x < 2 ^ (hi - lo + 1), (decide (k ≥ lo) && x.testBit (k - lo)) = false := fun x hx => by
      by_cases hlo : lo ≤ k
      · rw [Nat.testBit_lt_two_pow (hx.trans_le (Nat.pow_le_pow_right (by decide) (by omega))), Bool.and_false]
      · simp [hlo]
    rw [if_neg hk, hout _ (truncated_lt lo hi v), hout _ (Nat.sub_one_lt (Nat.two_pow_pos _).ne')]
    cases hw : w.getLsbD k with
    | false => simp
    | true => simp [BitVec.lt_of_getLsbD hw]

/-- The range that was set reads the truncated value. -/
theorem getRange_setRange {n : Nat} (w : BitVec n) {lo hi : Nat} (v : Int) (hle : lo ≤ hi) (hlt : hi < n) :
    getRange (setRange w lo hi v) lo hi = truncated lo hi v := by
  apply Nat.eq_of_testBit_eq
  intro k
  rw [getRange_testBit, setRange_getLsbD w v hle hlt]
  by_cases hk : k < hi - lo + 1
  · rw [if_pos (by omega), Nat.add_sub_cancel_left, decide_eq_true hk, Bool.true_and]
  · have hv : (truncated lo hi v).testBit k = false :=
      Nat.testBit_lt_two_pow ((truncated_lt lo hi v).trans_le (Nat.pow_le_pow_right (by decide) (by omega)))
    rw [decide_eq_false hk, Bool.false_and, hv]

/-- A range beside the one that is set reads as before. -/
theorem getRange_setRange_of_disjoint {n : Nat} (w : BitVec n) {lo hi lo' hi' : Nat} (v : Int) (hle : lo' ≤ hi')
    (hlt : hi' < n) (hle' : lo ≤ hi) (h : hi < lo' ∨ hi' < lo) :
    getRange (setRange w lo' hi' v) lo hi = getRange w lo hi := by
  apply Nat.eq_of_testBit_eq
  intro k
  rw [getRange_testBit, getRange_testBit, setRange_getLsbD w v hle hlt]
  by_cases hk : k < hi - lo + 1
  · rw [if_neg (by omega)]
  · simp [hk]

/-- The upper part of a range. -/
theorem getRange_add_left {n : Nat} (w : BitVec n) {lo hi k : Nat} (h : lo + k ≤ hi) :
    getRange w (lo + k) hi = getRange w lo hi >>> k := by
  apply Nat.eq_of_testBit_eq
  intro j
  have hj : j < hi - (lo + k) + 1 ↔ k + j < hi - lo + 1 := by omega
  rw [Nat.testBit_shiftRight, getRange_testBit, getRange_testBit, Nat.add_assoc, decide_eq_decide.mpr hj]

theorem getRange_setRange_natCast {n : Nat} (w : BitVec n) {lo hi x : Nat} (hle : lo ≤ hi) (hlt : hi < n) :
    getRange (setRange w lo hi (x : Int)) lo hi = x % 2 ^ (hi - lo + 1) := by
  rw [getRange_setRange w _ hle hlt, truncated_natCast]

/-- `setRange` truncates: a value that is truncated before gives the same word. -/
theorem setRange_emod {n : Nat} (w : BitVec n) (lo hi : Nat) (v : Int) :
    setRange w lo hi (v % 2 ^ (hi - lo + 1)) = setRange w lo hi v := by
  unfold setRange
  push_cast
  rw [Int.emod_emod]

/-- The last of two writes to one range stays. -/
theorem setRange_setRange {n : Nat} (w : BitVec n) {lo hi : Nat} (v v' : Int) (hle : lo ≤ hi) (hlt : hi < n) :
    setRange (setRange w lo hi v) lo hi v' = setRange w lo hi v' := by
  apply BitVec.eq_of_getLsbD_eq
  intro k _
  simp only [setRange_getLsbD _ _ hle hlt]
  split <;> rfl

/-- Settles O35, with what a range reads after it is set (`getRange_setRange`) and the bits of the word
(`setRange_getLsbD`). -/
theorem setRangeThenGetRange : Obligations.SetRangeThenGetRange := by
  intro n lo hi w v hle hlt
  refine ⟨?_, ?_, fun k hk => ?_, setRange_setRange w v v hle hlt⟩
  · rw [getRange, Nat.shiftRight_eq_div_pow]
  · rw [getRange_setRange w v hle hlt, truncated_cast]
  · rw [setRange_getLsbD w v hle hlt, if_neg (by omega)]

/-- Masking with ones in a range cuts the range out. -/
theorem and_setRange_neg_one {n : Nat} (w m : BitVec n) {lo hi : Nat} (hle : lo ≤ hi) (hlt : hi < n) :
    w &&& setRange m lo hi (-1) = setRange (w &&& m) lo hi (getRange w lo hi : Int) := by
  apply BitVec.eq_of_getLsbD_eq
  intro k _
  simp only [BitVec.getLsbD_and, setRange_getLsbD _ _ hle hlt, truncated_neg_one, truncated_natCast,
    Nat.testBit_two_pow_sub_one, Nat.testBit_mod_two_pow, getRange_testBit]
  by_cases hk : lo ≤ k ∧ k ≤ hi
  · obtain ⟨hlo, hhi⟩ := hk
    simp [hlo, hhi, show k - lo < hi - lo + 1 by omega]
  · simp only [if_neg hk]

/-! ### What an encoder puts in the fields (R68) -/

theorem extraValue_lt (m : Mnemonic) (lo hi : Nat) (tab : List OpRow) :
    extraValue m lo hi tab < 2 ^ (hi - lo + 1) := by
  unfold extraValue
  split
  · exact getRange_lt _ lo hi
  · exact Nat.two_pow_pos _

theorem getRange_setRange_of_lt {n : Nat} (w : BitVec n) {lo hi x : Nat} (hle : lo ≤ hi) (hlt : hi < n)
    (hx : x < 2 ^ (hi - lo + 1)) : getRange (setRange w lo hi (x : Int)) lo hi = x := by
  rw [getRange_setRange_natCast w hle hlt, Nat.mod_eq_of_lt hx]

/-- A register number comes back whole from a field of five bits. -/
theorem getRange_setRange_regValue {n : Nat} (w : BitVec n) {lo hi : Nat} (r : Reg) (hw : hi = lo + 4) (hlt : hi < n) :
    getRange (setRange w lo hi (regValue r)) lo hi = r.val :=
  getRange_setRange_of_lt w (by omega) hlt (by rw [show hi - lo + 1 = 5 by omega]; exact r.isLt)

section Fields
variable (m : Mnemonic) (tab : List OpRow) (rd rn rm : Reg) (d n k v : Int) (x : Nat)

@[simp] theorem fieldRd_encodeR : fieldRd (encodeR m (regValue rd) n k v tab) = rd := by
  simp [fieldRd, encodeR, getRange_setRange_regValue]

@[simp] theorem fieldRn_encodeR : fieldRn (encodeR m d (regValue rn) k v tab) = rn := by
  simp [fieldRn, encodeR, getRange_setRange_of_disjoint, getRange_setRange_regValue]

@[simp] theorem fieldRm_encodeR : fieldRm (encodeR m d n (regValue rm) v tab) = rm := by
  simp [fieldRm, encodeR, getRange_setRange_of_disjoint, getRange_setRange_regValue]

@[simp] theorem fieldShamt_encodeR : fieldShamt (encodeR m d n k (x : Int) tab) = x % 2 ^ 6 := by
  simp [fieldShamt, encodeR, getRange_setRange_of_disjoint, getRange_setRange_natCast]

@[simp] theorem fieldRd_encodeI : fieldRd (encodeI m (regValue rd) n v tab) = rd := by
  simp [fieldRd, encodeI, getRange_setRange_regValue]

@[simp] theorem fieldRn_encodeI : fieldRn (encodeI m d (regValue rn) v tab) = rn := by
  simp [fieldRn, encodeI, getRange_setRange_of_disjoint, getRange_setRange_regValue]

@[simp] theorem fieldImm12_encodeI : fieldImm12 (encodeI m d n (x : Int) tab) = x % 2 ^ 12 := by
  simp [fieldImm12, encodeI, getRange_setRange_of_disjoint, getRange_setRange_natCast]

@[simp] theorem fieldRd_encodeIM : fieldRd (encodeIM m (regValue rd) v tab) = rd := by
  simp [fieldRd, encodeIM, getRange_setRange_regValue]

@[simp] theorem fieldImm16_encodeIM : fieldImm16 (encodeIM m d (x : Int) tab) = x % 2 ^ 16 := by
  simp [fieldImm16, encodeIM, getRange_setRange_of_disjoint, getRange_setRange_natCast]

@[simp] theorem fieldRd_encodeD : fieldRd (encodeD m (regValue rd) n v tab) = rd := by
  simp [fieldRd, encodeD, getRange_setRange_regValue]

@[simp] theorem fieldRn_encodeD : fieldRn (encodeD m d (regValue rn) v tab) = rn := by
  simp [fieldRn, encodeD, getRange_setRange_of_disjoint, getRange_setRange_regValue]

@[simp] theorem fieldDt_encodeD : fieldDt (encodeD m d n (x : Int) tab) = x % 2 ^ 9 := by
  simp [fieldDt, encodeD, getRange_setRange_of_disjoint, getRange_setRange_natCast]

@[simp] theorem fieldAddr26_encodeB : fieldAddr26 (encodeB m (x : Int) tab) = x % 2 ^ 26 :=
  getRange_setRange_natCast _ (by decide) (by decide)

@[simp] theorem fieldRd_encodeCB : fieldRd (encodeCB m (regValue rd) v tab) = rd := by
  simp [fieldRd, encodeCB, getRange_setRange_regValue]

@[simp] theorem fieldAddr19_encodeCB : fieldAddr19 (encodeCB m d (x : Int) tab) = x % 2 ^ 19 := by
  simp [fieldAddr19, encodeCB, getRange_setRange_of_disjoint, getRange_setRange_natCast]

end Fields

/-- The operand fields of an encoded instruction hold its truncated operands. -/
theorem extract_encode (i : Instr) (tab : List OpRow) : extract i.mnemonic (encode i tab) = i.truncate := by
  cases i <;> simp [encode, encodeCond, extract, Instr.mnemonic, Instr.truncate]

/-! ### The row of an encoded instruction (R61, R62, R64) -/

/-- The word has the opcode of the mnemonic in its opcode field, and in the field of an extra condition the value that
the mnemonic's row asks for. -/
def CarriesOpcode (m : Mnemonic) (tab : List OpRow) (w : InstrWord) : Prop :=
  getRange w (21 + m.format.freeBits) 31 = opcodeOf m tab >>> m.format.freeBits ∧
    ∀ lo hi, m.extraField = some (lo, hi) → getRange w lo hi = extraValue m lo hi tab

/-- An opcode field that leaves out the `k` low bits holds the rest of an 11-bit opcode. -/
theorem getRange_opcodeField {op : Nat} (hop : op < 2 ^ 11) (lo k : Nat) (hlo : lo = 21 + k) (hk : k ≤ 10) :
    getRange (setRange (0 : InstrWord) lo 31 ((op >>> k : Nat) : Int)) lo 31 = op >>> k := by
  refine getRange_setRange_of_lt _ (by omega) (by decide) ?_
  rw [Nat.shiftRight_eq_div_pow]
  apply Nat.div_lt_of_lt_mul
  rwa [← pow_add, show k + (31 - lo + 1) = 11 by omega]

section Opcode
variable {m : Mnemonic} {tab : List OpRow} (d n k v : Int)

theorem carriesOpcode_of_none {w : InstrWord} (hx : m.extraField = none)
    (hw : getRange w (21 + m.format.freeBits) 31 = opcodeOf m tab >>> m.format.freeBits) : CarriesOpcode m tab w :=
  ⟨hw, fun lo hi he => by simp [hx] at he⟩

theorem carriesOpcode_of_some {w : InstrWord} {lo hi : Nat} (hx : m.extraField = some (lo, hi))
    (hw : getRange w (21 + m.format.freeBits) 31 = opcodeOf m tab >>> m.format.freeBits)
    (hv : getRange w lo hi = extraValue m lo hi tab) : CarriesOpcode m tab w :=
  ⟨hw, fun lo' hi' he => by cases hx.symm.trans he; exact hv⟩

theorem opcodeField_encodeR (hop : opcodeOf m tab < 2 ^ 11) :
    getRange (encodeR m d n k v tab) 21 31 = opcodeOf m tab := by
  simp (disch := decide) only [encodeR, getRange_setRange_of_disjoint]
  exact getRange_opcodeField hop 21 0 rfl (by decide)

theorem opcodeField_encodeI (hop : opcodeOf m tab < 2 ^ 11) :
    getRange (encodeI m d n v tab) 22 31 = opcodeOf m tab >>> 1 := by
  simp (disch := decide) only [encodeI, getRange_setRange_of_disjoint]
  exact getRange_opcodeField hop 22 1 rfl (by decide)

/-- All 11 bits of the opcode are written, and the upper nine of them select (R55). -/
theorem opcodeField_encodeIM (hop : opcodeOf m tab < 2 ^ 11) :
    getRange (encodeIM m d v tab) 23 31 = opcodeOf m tab >>> 2 := by
  have hwhole : getRange (encodeIM m d v tab) 21 31 = opcodeOf m tab := by
    simp (disch := decide) only [encodeIM, getRange_setRange_of_disjoint]
    exact getRange_opcodeField hop 21 0 rfl (by decide)
  rw [← hwhole]
  exact getRange_add_left (lo := 21) (k := 2) _ (by decide)

theorem opcodeField_encodeD (hop : opcodeOf m tab < 2 ^ 11) :
    getRange (encodeD m d n v tab) 21 31 = opcodeOf m tab := by
  simp (disch := decide) only [encodeD, getRange_setRange_of_disjoint]
  exact getRange_opcodeField hop 21 0 rfl (by decide)

theorem opcodeField_encodeB (hop : opcodeOf m tab < 2 ^ 11) :
    getRange (encodeB m v tab) 26 31 = opcodeOf m tab >>> 5 := by
  simp (disch := decide) only [encodeB, getRange_setRange_of_disjoint]
  exact getRange_opcodeField hop 26 5 rfl (by decide)

theorem opcodeField_encodeCB (hop : opcodeOf m tab < 2 ^ 11) :
    getRange (encodeCB m d v tab) 24 31 = opcodeOf m tab >>> 3 := by
  simp (disch := decide) only [encodeCB, getRange_setRange_of_disjoint]
  exact getRange_opcodeField hop 24 3 rfl (by decide)

theorem opcodeField_encodeZ (hop : opcodeOf m tab < 2 ^ 11) : getRange (encodeZ m tab) 21 31 = opcodeOf m tab :=
  getRange_opcodeField hop 21 0 rfl (by decide)

/-- The `shamt` of `SDIV` and `UDIV` is the value of their row (R62, R68). -/
theorem shamt_encodeR_extraValue :
    getRange (encodeR m d n k (extraValue m 10 15 tab) tab) 10 15 = extraValue m 10 15 tab :=
  (fieldShamt_encodeR m tab d n k _).trans (Nat.mod_eq_of_lt (extraValue_lt m 10 15 tab))

/-- The `Rt` of a `B.cond` is the condition code, the value of its row (R63, R68). -/
theorem rt_encodeCond : getRange (encodeCond m v tab) 0 4 = extraValue m 0 4 tab :=
  getRange_setRange_of_lt _ (by decide) (by decide) (extraValue_lt m 0 4 tab)

end Opcode

/-- A field of an extra condition is a range of the word (R62). -/
theorem extraField_bounds {m : Mnemonic} {lo hi : Nat} (h : m.extraField = some (lo, hi)) : lo ≤ hi ∧ hi < 32 := by
  cases m <;> cases h <;> decide

/-- The encoding of every instruction, by its format, selects with its opcode (R61, R68). -/
theorem encode_carriesOpcode (i : Instr) {tab : List OpRow} (hop : opcodeOf i.mnemonic tab < 2 ^ 11) :
    CarriesOpcode i.mnemonic tab (encode i tab) := by
  cases i with
  | add | sub | and | orr | eor | mul | adds | subs | ands | lsl | lsr | br | cmp | mov =>
    exact carriesOpcode_of_none rfl (opcodeField_encodeR _ _ _ _ hop)
  | sdiv | udiv =>
    exact carriesOpcode_of_some rfl (opcodeField_encodeR _ _ _ _ hop) (shamt_encodeR_extraValue _ _ _)
  | addi | subi | andi | orri | eori | addis | subis | andis | cmpi =>
    exact carriesOpcode_of_none rfl (opcodeField_encodeI _ _ _ hop)
  | movz | movk => exact carriesOpcode_of_none rfl (opcodeField_encodeIM _ _ hop)
  | ldur | ldurb | ldurh | ldursw | stur | sturb | sturh | sturw | lda | ldxr | stxr =>
    exact carriesOpcode_of_none rfl (opcodeField_encodeD _ _ _ hop)
  | b | bl => exact carriesOpcode_of_none rfl (opcodeField_encodeB _ hop)
  | cbz | cbnz => exact carriesOpcode_of_none rfl (opcodeField_encodeCB _ _ hop)
  | bEQ | bNE | bLT | bLO | bLE | bLS | bGT | bHI | bGE | bHS | bPL | bMI =>
    exact carriesOpcode_of_some rfl (opcodeField_encodeCB _ _ hop) (rt_encodeCond _)
  | prnt | prnl | halt | dump => exact carriesOpcode_of_none rfl (opcodeField_encodeZ hop)

/-- A row that fits R61 admits every word that has the row's opcode and the row's value in its extra field. -/
theorem admits_of_fits {r : OpRow} (hr : r.fits = true) {w : InstrWord}
    (hop : getRange w (21 + r.mn.format.freeBits) 31 = r.op11Min >>> r.mn.format.freeBits)
    (hx : ∀ lo hi, r.mn.extraField = some (lo, hi) → getRange w lo hi = getRange r.mtch lo hi) :
    r.admits w = true := by
  obtain ⟨-, -, -, opcode, field, rfl, rfl, hrow⟩ := fits_cases hr
  have hk : r.mn.format.freeBits ≤ 5 := by cases r.mn.format <;> decide
  have hopcode : w &&& setRange 0 (21 + r.mn.format.freeBits) 31 (-1) =
      setRange 0 (21 + r.mn.format.freeBits) 31 ((r.op11Min >>> r.mn.format.freeBits : Nat) : Int) := by
    rw [and_setRange_neg_one _ _ (by omega) (by decide), hop, show w &&& 0 = 0 from BitVec.and_zero]
  rw [admits_iff]
  rcases hrow with ⟨hmtch, hmask⟩ | ⟨lo, hi, he, hmtch, hmask⟩
  · rw [hmtch, hmask, hopcode]
  · obtain ⟨hle, hlt⟩ := extraField_bounds he
    rw [hmask, and_setRange_neg_one _ _ hle hlt, hopcode, hx lo hi he, ← hmtch]

/-- In an admitted table the decoder finds the row of the instruction that was encoded. -/
theorem lookup_encode {tab : List OpRow} (h : OptabOk tab) (i : Instr) :
    ∃ r, lookup (encode i tab) tab = some r ∧ r.mn = i.mnemonic := by
  obtain ⟨r, hr, hmn, hfind⟩ := exists_row h i.mnemonic
  have hfits := h.rowsFit r hr
  have hop : opcodeOf i.mnemonic tab = r.op11Min := by rw [opcodeOf, hfind]
  have hlt : r.op11Min < 2 ^ 11 := by
    obtain ⟨-, hrange, hmax, -⟩ := fits_cases hfits
    have : 0 < 2 ^ r.mn.format.freeBits := Nat.two_pow_pos _
    omega
  obtain ⟨hopcode, hextra⟩ := encode_carriesOpcode i (hop ▸ hlt)
  refine ⟨r, lookup_of_admits h hr (admits_of_fits hfits ?_ fun lo hi he => ?_), hmn⟩
  · rw [hmn, hopcode, hop]
  · rw [hextra lo hi (hmn ▸ he), extraValue, hfind]

/-- Decoding an encoding gives the instruction with its operands truncated (R69). -/
theorem decode_encode {tab : List OpRow} (h : OptabOk tab) (i : Instr) :
    decode (encode i tab) tab = .instr i.truncate := by
  obtain ⟨r, hlookup, hmn⟩ := lookup_encode h i
  rw [decode, hlookup, ← extract_encode i tab, ← hmn]

/-- An encoder truncates the operand of each field, a negative one included (R50, R68). -/
theorem encode_truncates (m : Mnemonic) (d n k v : Int) (tab : List OpRow) :
    encodeR m d n k v tab = encodeR m d n k (v % 2 ^ 6) tab ∧ encodeI m d n v tab = encodeI m d n (v % 2 ^ 12) tab ∧
    encodeIM m d v tab = encodeIM m d (v % 2 ^ 16) tab ∧ encodeD m d n v tab = encodeD m d n (v % 2 ^ 9) tab ∧
    encodeB m v tab = encodeB m (v % 2 ^ 26) tab ∧ encodeCB m d v tab = encodeCB m d (v % 2 ^ 19) tab := by
  refine ⟨?_, ?_, ?_, ?_, ?_, ?_⟩
  · simp only [encodeR, setRange_emod _ 10 15]
  · simp only [encodeI, setRange_emod _ 10 21]
  · simp only [encodeIM, setRange_emod _ 5 20]
  · simp only [encodeD, setRange_emod _ 12 20]
  · simp only [encodeB, setRange_emod _ 0 25]
  · simp only [encodeCB, setRange_emod _ 5 23]

namespace Laws

/-- The facts of `Laws/PerInstr.lean` for every instruction. -/
theorem fitsField : ∀ i : Instr, FitsField.Statement i
  | .add _ _ _ => FitsField.add _ _ _
  | .sub _ _ _ => FitsField.sub _ _ _
  | .and _ _ _ => FitsField.and _ _ _
  | .orr _ _ _ => FitsField.orr _ _ _
  | .eor _ _ _ => FitsField.eor _ _ _
  | .mul _ _ _ => FitsField.mul _ _ _
  | .sdiv _ _ _ => FitsField.sdiv _ _ _
  | .adds _ _ _ => FitsField.adds _ _ _
  | .subs _ _ _ => FitsField.subs _ _ _
  | .ands _ _ _ => FitsField.ands _ _ _
  | .lsl _ _ _ => FitsField.lsl _ _ _
  | .lsr _ _ _ => FitsField.lsr _ _ _
  | .br _ => FitsField.br _
  | .cmp _ _ => FitsField.cmp _ _
  | .mov _ _ => FitsField.mov _ _
  | .udiv _ _ _ => FitsField.udiv _ _ _
  | .addi _ _ _ => FitsField.addi _ _ _
  | .subi _ _ _ => FitsField.subi _ _ _
  | .andi _ _ _ => FitsField.andi _ _ _
  | .orri _ _ _ => FitsField.orri _ _ _
  | .eori _ _ _ => FitsField.eori _ _ _
  | .addis _ _ _ => FitsField.addis _ _ _
  | .subis _ _ _ => FitsField.subis _ _ _
  | .andis _ _ _ => FitsField.andis _ _ _
  | .cmpi _ _ => FitsField.cmpi _ _
  | .movz _ _ => FitsField.movz _ _
  | .movk _ _ => FitsField.movk _ _
  | .ldur _ _ _ => FitsField.ldur _ _ _
  | .ldurb _ _ _ => FitsField.ldurb _ _ _
  | .ldurh _ _ _ => FitsField.ldurh _ _ _
  | .ldursw _ _ _ => FitsField.ldursw _ _ _
  | .stur _ _ _ => FitsField.stur _ _ _
  | .sturb _ _ _ => FitsField.sturb _ _ _
  | .sturh _ _ _ => FitsField.sturh _ _ _
  | .sturw _ _ _ => FitsField.sturw _ _ _
  | .lda _ _ _ => FitsField.lda _ _ _
  | .ldxr _ _ _ => FitsField.ldxr _ _ _
  | .stxr _ _ _ => FitsField.stxr _ _ _
  | .b _ => FitsField.b _
  | .bl _ => FitsField.bl _
  | .cbz _ _ => FitsField.cbz _ _
  | .cbnz _ _ => FitsField.cbnz _ _
  | .bEQ _ => FitsField.bEQ _
  | .bNE _ => FitsField.bNE _
  | .bLT _ => FitsField.bLT _
  | .bLO _ => FitsField.bLO _
  | .bLE _ => FitsField.bLE _
  | .bLS _ => FitsField.bLS _
  | .bGT _ => FitsField.bGT _
  | .bHI _ => FitsField.bHI _
  | .bGE _ => FitsField.bGE _
  | .bHS _ => FitsField.bHS _
  | .bPL _ => FitsField.bPL _
  | .bMI _ => FitsField.bMI _
  | .prnt => FitsField.prnt
  | .prnl => FitsField.prnl
  | .halt => FitsField.halt
  | .dump => FitsField.dump

end Laws

/-- Settles O36: every encoding carries its row's opcode, so the decoder finds that row (`lookup_encode`) and reads the
truncated operands (`extract_encode`). -/
theorem decodeOfEncode : Obligations.DecodeOfEncode := by
  refine ⟨optabOk_default, fun tab h i => ?_, encode_truncates⟩
  obtain ⟨-, htrunc, hmn⟩ := Laws.fitsField i
  have hdec := decode_encode h i
  exact ⟨hdec, hmn, fun hwf => by rw [hdec, htrunc hwf]⟩

end Sys2Proof

/-! ## The family of `40_alu_and_flags.md`: the arithmetic of the ALU -/

namespace Sys2Proof.Machine

/-! ### The two readings of a result (R91) -/

theorem aluAdd_toInt (a b : Word) : (aluAdd a b).toInt = (a.toInt + b.toInt).bmod (2 ^ 64) := wrap64_toInt _

theorem aluSub_toInt (a b : Word) : (aluSub a b).toInt = (a.toInt - b.toInt).bmod (2 ^ 64) := wrap64_toInt _

theorem aluMul_toInt (a b : Word) : (aluMul a b).toInt = (a.toInt * b.toInt).bmod (2 ^ 64) := wrap64_toInt _

theorem aluAdd_toNat (a b : Word) : (aluAdd a b).toNat = (a.toNat + b.toNat) % 2 ^ 64 := by
  rw [aluAdd_eq, BitVec.toNat_add]

/-- Over the integers, because the exact difference can be negative. -/
theorem aluSub_toNat (a b : Word) :
    ((aluSub a b).toNat : Int) = ((a.toNat : Int) - (b.toNat : Int)) % 2 ^ 64 := by
  have hb := b.isLt
  rw [aluSub_eq, BitVec.toNat_sub]
  omega

theorem aluMul_toNat (a b : Word) : (aluMul a b).toNat = (a.toNat * b.toNat) % 2 ^ 64 := by
  rw [aluMul_eq, BitVec.toNat_mul]

/-! ### The register forms complete in every state (R97, R100, R101, R105) -/

theorem writesOnly_regRegOp (f : Word → Word → Word) (rd rn rm : Reg) (s : State) :
    WritesOnly rd (f (readReg s rn) (readReg s rm)) s (regRegOp f rd rn rm s) :=
  writesOnly_writeReg rd _ s

theorem exec_add (rd rn rm : Reg) (s : State) : exec (.add rd rn rm) s = .next (regRegOp aluAdd rd rn rm s) := rfl

theorem exec_sub (rd rn rm : Reg) (s : State) : exec (.sub rd rn rm) s = .next (regRegOp aluSub rd rn rm s) := rfl

theorem exec_mul (rd rn rm : Reg) (s : State) : exec (.mul rd rn rm) s = .next (regRegOp aluMul rd rn rm s) := rfl

/-- Settles O1: both readings of the ALU's results, and one frame for the three instructions, which differ in the
operation alone (`writesOnly_regRegOp`). -/
theorem addSubMulWrapModulo : Obligations.AddSubMulWrapModulo := by
  refine ⟨fun a b => ?_, fun rd rn rm s => ⟨?_, ?_, ?_⟩⟩
  · exact ⟨aluAdd_toInt a b, aluAdd_toNat a b, aluSub_toInt a b, aluSub_toNat a b, aluMul_toInt a b, aluMul_toNat a b⟩
  · exact ⟨_, exec_add rd rn rm s, writesOnly_regRegOp aluAdd rd rn rm s⟩
  · exact ⟨_, exec_sub rd rn rm s, writesOnly_regRegOp aluSub rd rn rm s⟩
  · exact ⟨_, exec_mul rd rn rm s, writesOnly_regRegOp aluMul rd rn rm s⟩

end Sys2Proof.Machine

/-! ## The family of `48_execution_loop.md`: the step -/

namespace Sys2Proof.Machine

/-- The latch is tested before anything is fetched (R185). -/
theorem step_of_not_running {s : State} (h : s.run ≠ .running) : step s = .next s := by
  unfold step
  exact if_pos h

/-- Settles O42: none of the three stopped values is `running`, and the step tests only that (`step_of_not_running`). -/
theorem stepNotRunningDoesNothing : Obligations.StepNotRunningDoesNothing := by
  intro s hstopped
  have hrun : s.run ≠ .running := by
    rcases hstopped with hidle | hended | hfailed
    · simp [hidle]
    · simp [hended]
    · simp [hfailed]
  exact step_of_not_running hrun

end Sys2Proof.Machine

/-! ## The family 'other': the invariant of the machine -/

namespace Sys2Proof.Machine

/-! ### The invariant under each update of the state -/

theorem ConfigOk.of_sameConfig {s t : State} (h : ConfigOk s) (hc : SameConfig s t) : ConfigOk t := by
  obtain ⟨hprog, hsize, hinit, htab⟩ := hc
  constructor
  · rw [hsize]; exact h.memSizePos
  · rw [hsize]; exact h.memSizeFits
  · rw [hinit]; exact h.initWf
  · rw [hinit, hsize]; exact h.initBelow
  · rw [hprog]; exact h.progFits
  · rw [htab]; exact h.optabOk

/-- A machine that runs has met no failure (R198). -/
theorem Inv.fault_of_running {s : State} (h : Inv s) (hrun : s.run = .running) : s.fault = none := by
  by_contra hf
  rcases h.faultStopped hf with hr | hr <;> simp [hrun] at hr

/-- A machine that runs has dumped nothing (R181). -/
theorem Inv.not_isDump_of_running {s : State} (h : Inv s) (hrun : s.run = .running) :
    ∀ e ∈ s.out, e.isDump = false := by
  intro e he
  cases hd : e.isDump with
  | false => rfl
  | true =>
    have hended := h.dumpEnds e he hd
    simp [hrun] at hended

theorem writeReg_eq_with_regs (s : State) (d : Reg) (v : Word) :
    ∃ regs, writeReg s d v = { s with regs := regs } := by
  unfold writeReg
  split
  · exact ⟨_, rfl⟩
  · exact ⟨s.regs, rfl⟩

/-- The invariant says nothing about registers. -/
theorem inv_writeReg {s : State} (h : Inv s) (d : Reg) (v : Word) : Inv (writeReg s d v) := by
  obtain ⟨regs, hregs⟩ := writeReg_eq_with_regs s d v
  rw [hregs]
  exact { h with config := h.config.of_sameConfig ⟨rfl, rfl, rfl, rfl⟩ }

theorem inv_writeFlags {s : State} (h : Inv s) {f : Flags} (hf : ¬ (f.z = true ∧ f.n = true)) :
    Inv (writeFlags s f) :=
  { h with config := h.config.of_sameConfig ⟨rfl, rfl, rfl, rfl⟩, flagsExclusive := hf }

/-- A jump of a machine without a failure: with the latch set, `pc` must stay where the failure left it (R198). -/
theorem inv_setPc {s : State} (h : Inv s) (hfault : s.fault = none) {t : Int} (hlow : -Config.safeMax ≤ t)
    (hhigh : t ≤ Config.safeMax) : Inv (setPc s t) :=
  { h with
    config := h.config.of_sameConfig ⟨rfl, rfl, rfl, rfl⟩
    pcLow := hlow
    pcHigh := hhigh
    faultAtEnd := fun f hf => by simp [hfault] at hf }

theorem inv_setMem {s : State} (h : Inv s) {m : Memory} (hwf : Memory.wf m) (hbelow : Memory.below m s.memSize) :
    Inv (setMem s m) :=
  { h with
    config := h.config.of_sameConfig ⟨rfl, rfl, rfl, rfl⟩
    memWf := hwf
    memBelow := hbelow }

/-- An event of a started machine, none of the kinds that the invariant counts: no Error, and a Dump only at the end of
the run. -/
theorem inv_emit {s : State} (h : Inv s) {e : Event} (hstarted : s.run ≠ .idle) (herror : e.isError = false)
    (hdump : e.isDump = true → s.run = .ended) : Inv (emit s e) :=
  { h with
    config := h.config.of_sameConfig ⟨rfl, rfl, rfl, rfl⟩
    oneError := by
      rw [emit_out, List.filter_append, List.filter_cons_of_neg (by simp [herror]), List.filter_nil, List.append_nil]
      exact h.oneError
    dumpEnds := fun x hx hxd => by
      rcases List.mem_append.mp hx with hx | hx
      · exact h.dumpEnds x hx hxd
      · rw [List.mem_singleton.mp hx] at hxd
        exact hdump hxd
    idleFresh := fun hidle => absurd hidle hstarted }

/-- The end of a run, by itself or by the host, keeps the invariant in every state (R187, R207). -/
theorem inv_setRun_ended {s : State} (h : Inv s) : Inv (setRun s .ended) :=
  { h with
    config := h.config.of_sameConfig ⟨rfl, rfl, rfl, rfl⟩
    failedHasFault := fun hr => by cases hr
    faultStopped := fun _ => .inr rfl
    dumpEnds := fun _ _ _ => rfl
    idleFresh := fun hr => by cases hr }

/-- A failure of a running machine whose `pc` is one past the last index executed (R196, R198). -/
theorem inv_raiseFailure {s : State} (h : Inv s) (hrun : s.run = .running)
    (hlast : s.trace.getLast? = some (s.pc - 1)) (c : Cause) (info : Int) (mn : Option Mnemonic) :
    Inv (raiseFailure s c info mn) :=
  have hfault := h.fault_of_running hrun
  have hlatch := raiseFailure_fault_empty s hfault c info mn
  { h with
    config := h.config.of_sameConfig ⟨rfl, rfl, rfl, rfl⟩
    failedHasFault := fun _ => by simp [hlatch]
    faultStopped := fun _ => .inl rfl
    faultAtEnd := fun f hf => by
      rw [hlatch] at hf
      cases hf
      exact ⟨hlast, by simp⟩
    oneError := by
      have hnone := h.oneError
      rw [if_pos hfault] at hnone
      rw [if_neg (by simp [hlatch]), raiseFailure_out, List.filter_append, List.length_append, hnone]
      rfl
    dumpEnds := fun e he hd => by
      rcases List.mem_append.mp he with he | he
      · rw [h.not_isDump_of_running hrun e he] at hd
        cases hd
      · rw [List.mem_singleton.mp he] at hd
        cases hd
    idleFresh := fun hr => by cases hr }

/-- The trace push and the `pc` advance at an index of the program (R186). -/
theorem inv_beginStep {s : State} (h : Inv s) (hrun : s.run = .running) (hpc : 0 ≤ s.pc)
    (hlen : s.pc < s.prog.length) : Inv (beginStep s) :=
  have hfault := h.fault_of_running hrun
  have hsafe := h.config.progFits
  have hlow := h.pcLow
  { h with
    config := h.config.of_sameConfig ⟨rfl, rfl, rfl, rfl⟩
    pcLow := by simp only [beginStep_pc]; omega
    pcHigh := by simp only [beginStep_pc]; omega
    traceInProg := fun i hi => by
      rcases List.mem_append.mp hi with hi | hi
      · exact h.traceInProg i hi
      · rw [List.mem_singleton.mp hi]
        exact ⟨hpc, hlen⟩
    faultAtEnd := fun f hf => by simp [hfault] at hf
    idleFresh := fun hidle => by simp [hrun] at hidle }

/-! ### The invariant under each effect of an instruction -/

theorem flagsOf_exclusive (res l r : Word) : ¬ ((flagsOf res l r).z = true ∧ (flagsOf res l r).n = true) := by
  simp only [flagsOf, setFlags, decide_eq_true_eq]
  omega

/-- The bytes of an admitted store lie below MEM_SIZE (R32). -/
theorem Memory.below_store {s : State} (h : Memory.below s.mem s.memSize) {ea : Int} {n : Nat}
    (ha : admitted s ea n) (v : Word) :
    Memory.below (Memory.writeBytes s.mem ea.toNat (lowBytes v n)) s.memSize := by
  obtain ⟨hlow, hhigh⟩ := ha
  apply Memory.below_writeBytes h
  rw [lowBytes_length]
  omega

/-- Every effect of an instruction that executes in a running machine keeps the invariant. -/
theorem Effect.inv {i : Instr} {s t : State} (he : Effect i s t) (h : Inv s) (hrun : s.run = .running)
    (hlast : s.trace.getLast? = some (s.pc - 1)) : Inv t := by
  have hfault := h.fault_of_running hrun
  have hstarted : s.run ≠ .idle := by simp [hrun]
  cases he with
  | reg d v _ => exact inv_writeReg h d v
  | regFlags d res l r _ _ => exact inv_writeFlags (inv_writeReg h d res) (flagsOf_exclusive res l r)
  | flags res l r _ => exact inv_writeFlags h (flagsOf_exclusive res l r)
  | jump t _ hlow hhigh => exact inv_setPc h hfault hlow hhigh
  | stay _ => exact h
  | call a _ =>
    obtain ⟨hlow, hhigh⟩ := target26_range a
    exact inv_setPc (inv_writeReg h _ _) (by simp [hfault]) hlow hhigh
  | store ea n v _ ha => exact inv_setMem h (Memory.wf_writeBytes h.memWf _ _) (Memory.below_store h.memBelow ha v)
  | fail c info _ => exact inv_raiseFailure h hrun hlast c info _
  | print t _ => exact inv_emit h hstarted rfl (fun hd => by cases hd)
  | blank _ => exact inv_emit h hstarted rfl (fun hd => by cases hd)
  | stop _ => exact inv_emit (inv_setRun_ended h) (e := dumpEvent s) (by simp) rfl (fun _ => rfl)

/-! ### The fault latch and the run latch -/

/-- An instruction sets the fault latch only where it ends the run as Failed (R198). -/
theorem Effect.fault_or_failed {i : Instr} {s t : State} (he : Effect i s t) : t.fault = s.fault ∨ t.run = .failed := by
  cases he with
  | fail => exact .inr rfl
  | reg | regFlags | flags | jump | stay | call | store | print | blank | stop => exact .inl (by simp)

theorem Inv.latchIffFailed {s : State} (h : Inv s) (hs : s.fault = none ∨ s.run = .failed) : LatchIffFailed s := by
  refine ⟨h.failedHasFault, fun hf => ?_⟩
  rcases hs with hnone | hfailed
  · exact absurd hnone hf
  · exact hfailed

/-- Settles O56: a step that executes goes through `beginStep`, which keeps the invariant inside the program, and then
has one of the effects of `Effect.inv`. A machine that runs had an empty fault latch, so the latch is set only by the
failure of this step. -/
theorem stepKeepsInvariant : Obligations.StepKeepsInvariant := by
  intro s t h hstep
  rcases step_cases hstep with ⟨_, rfl⟩ | ⟨hrun, _, rfl⟩ | ⟨hrun, e, i, he, _, hexec⟩ | ⟨hrun, e, he, _, rfl⟩
  · exact ⟨h, id⟩
  · have hended := inv_setRun_ended h
    exact ⟨hended, fun _ => hended.latchIffFailed (.inl (h.fault_of_running hrun))⟩
  · obtain ⟨hpc, hlen, _⟩ := progEntry_some he
    have heffect := exec_effect hexec
    have hinv : Inv t := heffect.inv (inv_beginStep h hrun hpc hlen) hrun (by simp)
    refine ⟨hinv, fun _ => hinv.latchIffFailed (heffect.fault_or_failed.imp_left fun hf => ?_)⟩
    rw [hf, beginStep_fault, h.fault_of_running hrun]
  · obtain ⟨hpc, hlen, _⟩ := progEntry_some he
    have hinv : Inv (raiseInvalidEncoding (beginStep s)) :=
      inv_raiseFailure (inv_beginStep h hrun hpc hlen) hrun (by simp) _ _ _
    exact ⟨hinv, fun _ => hinv.latchIffFailed (.inr rfl)⟩

/-! ### Reset and the host (R207, R215) -/

/-- Reset meets the invariant for every admitted value of the parameters. -/
theorem inv_resetWith {n : Nat} {m : Memory} {p : List ProgEntry} {tab : List OpRow}
    (h : ConfigOk (State.resetWith n m p tab)) : Inv (State.resetWith n m p tab) where
  config := h
  memWf := h.initWf
  memBelow := h.initBelow
  pcLow := by simp [Config.safeMax]
  pcHigh := by simp [Config.safeMax]
  flagsExclusive := by simp
  traceInProg := by simp
  failedHasFault := by simp
  faultStopped := by simp
  faultAtEnd := by simp
  oneError := by simp
  dumpEnds := by simp
  idleFresh := by simp

/-- The parameters of `State.reset` are admitted (logs 1, 2, 3). -/
theorem configOk_reset : ConfigOk State.reset where
  memSizePos := by decide
  memSizeFits := by decide
  initWf := reset_memory_wf
  initBelow := by simp [State.reset, Memory.below]
  progFits := by simp [State.reset, Config.safeMax]
  optabOk := optabOk_default

/-- Settles O55: `inv_resetWith`, at `State.reset` with the parameters of `configOk_reset`. -/
theorem invariantAtReset : Obligations.InvariantAtReset := by
  have hboth : ∀ n m p tab, ConfigOk (State.resetWith n m p tab) →
      Inv (State.resetWith n m p tab) ∧ LatchIffFailed (State.resetWith n m p tab) := fun n m p tab h =>
    ⟨inv_resetWith h, (inv_resetWith h).latchIffFailed (.inl rfl)⟩
  exact ⟨hboth, hboth _ _ _ _ configOk_reset⟩

/-- `start` of a machine that does not run is the reset machine, running: nothing executed, emitted or failed. -/
theorem inv_start {s : State} (h : Inv s) :
    Inv (setRun (State.resetWith s.memSize s.memInit s.prog s.optab) .running) :=
  have hconfig : ConfigOk (State.resetWith s.memSize s.memInit s.prog s.optab) :=
    h.config.of_sameConfig ⟨rfl, rfl, rfl, rfl⟩
  { inv_resetWith hconfig with
    config := hconfig.of_sameConfig ⟨rfl, rfl, rfl, rfl⟩
    failedHasFault := fun hr => by cases hr
    faultStopped := fun hf => absurd rfl hf
    dumpEnds := fun e he => by cases he
    idleFresh := fun hr => by cases hr }

/-- Settles O57: by whether the machine runs at `start`; the invariant after it is that of reset (`inv_start`). -/
theorem hostStartAndStop : Obligations.HostStartAndStop := by
  intro s
  refine ⟨fun hrun => if_pos hrun, fun hrun => if_neg hrun, rfl, ?_, fun h => ?_, inv_setRun_ended⟩
  · unfold hostStart
    split
    · assumption
    · rfl
  · by_cases hrun : s.run = .running
    · rw [hostStart, if_pos hrun]
      exact ⟨h, h.latchIffFailed (.inl (h.fault_of_running hrun))⟩
    · rw [hostStart, if_neg hrun]
      exact ⟨inv_start h, (inv_start h).latchIffFailed (.inl rfl)⟩

end Sys2Proof.Machine

/-! ## The family 'other': what an instruction may change -/

namespace Sys2Proof.Machine

/-! ### Frames of an effect -/

section Frames
variable {i : Instr} {s t : State}

/-- R15. -/
theorem Effect.pc_of_not_branch (h : Effect i s t) (hb : i.mnemonic ∉ branches) : t.pc = s.pc := by
  cases h with
  | reg | regFlags | flags | store | fail | print | blank | stop => simp
  | jump _ hmem | stay hmem => exact absurd hmem hb
  | call a hi => simp [hi, Instr.mnemonic, branches] at hb

/-- R16. -/
theorem Effect.flags_of_not_writer (h : Effect i s t) (hf : i.mnemonic ∉ flagWriters) : t.flags = s.flags := by
  cases h with
  | reg | jump | stay | call | store | fail | print | blank | stop => simp
  | regFlags _ _ _ _ _ hmem | flags _ _ _ hmem => exact absurd hmem hf

/-- R13: the destination alone is written, if there is one. -/
theorem Effect.readReg_of_not_destination (h : Effect i s t) {r : Reg} (hr : i.destination ≠ some r) :
    readReg t r = readReg s r := by
  have hwrite : ∀ {d : Reg} (v : Word), i.destination = some d → readReg (writeReg s d v) r = readReg s r := by
    intro d v hd
    exact readReg_writeReg_other s (fun e : r = d => hr (by rw [hd, e])) v
  cases h with
  | flags | jump | stay | store | fail | print | blank | stop => simp
  | reg d v hd => exact hwrite v hd
  | regFlags d res l r' hd _ => exact hwrite res hd
  | call a hi => exact hwrite _ (by rw [hi]; rfl)

/-- R37. -/
theorem Effect.mem_of_not_store (h : Effect i s t) (hs : i.mnemonic ∉ storeMnemonics) : t.mem = s.mem := by
  cases h with
  | reg | regFlags | flags | jump | stay | call | fail | print | blank | stop => simp
  | store _ _ _ hmem => exact absurd hmem hs

/-- No instruction writes the trace: the step does (R186). -/
theorem Effect.trace (h : Effect i s t) : t.trace = s.trace := by
  cases h with
  | reg | regFlags | flags | jump | stay | call | store | fail | print | blank | stop => simp

theorem Effect.out (h : Effect i s t) : t.out = s.out ∨ ∃ e, t.out = s.out ++ [e] := by
  cases h with
  | reg | regFlags | flags | jump | stay | call | store => exact .inl (by simp)
  | fail | print | blank | stop => exact .inr ⟨_, rfl⟩

/-- The run latch moves in two ways: a failure, or the end by `HALT` or `DUMP` (R181, R182, R198). -/
theorem Effect.run_cases (h : Effect i s t) :
    t.run = s.run ∨ ((i = .halt ∨ i = .dump) ∧ t.run = .ended) ∨
      (i.mnemonic ∈ failingMnemonics ∧ ∃ c info, t = raiseFailure s c info (some i.mnemonic)) := by
  cases h with
  | reg | regFlags | flags | jump | stay | call | store | print | blank => exact .inl (by simp)
  | stop hi => exact .inr (.inl ⟨hi, rfl⟩)
  | fail c info hm => exact .inr (.inr ⟨hm, c, info, rfl⟩)

end Frames

/-- Settles O47. -/
theorem onlyFlagWritersWriteFlags : Obligations.OnlyFlagWritersWriteFlags :=
  fun _ _ _ h hf => (exec_effect h).flags_of_not_writer hf

/-- Settles O48: with register 31 as destination the other registers are left alone, and register 31 reads 0 always. -/
theorem onlyDestinationIsWritten : Obligations.OnlyDestinationIsWritten := by
  intro i s t h
  have hframe : ∀ r, i.destination ≠ some r → readReg t r = readReg s r := fun r hr =>
    (exec_effect h).readReg_of_not_destination hr
  refine ⟨hframe, fun hd r => ?_, readReg_zero t⟩
  by_cases hr : r = 31
  · rw [hr, readReg_zero, readReg_zero]
  · exact hframe r (fun e => hr (Option.some.inj (e.symm.trans hd)))

/-- Settles O49. -/
theorem onlyStoresWriteMemory : Obligations.OnlyStoresWriteMemory := by
  intro i s t h hs a
  rw [readByte, readByte, (exec_effect h).mem_of_not_store hs]

/-- Settles O52: the run latch of a running machine becomes Failed in one way, a failure (`Effect.run_cases`). -/
theorem failuresArePrecise : Obligations.FailuresArePrecise := by
  intro i s t h hrun hfailed
  rcases (exec_effect h).run_cases with hsame | ⟨_, hended⟩ | ⟨hm, c, info, rfl⟩
  · simp [hsame, hrun] at hfailed
  · simp [hended] at hfailed
  · exact ⟨hm, c, info, tookFailure_raiseFailure s c info _⟩

/-! ### The step of a running machine (R186, R187) -/

section Step
variable {s : State} {e : ProgEntry}

theorem progEntry_eq_none_iff (s : State) (i : Int) : progEntry s i = none ↔ i < 0 ∨ i ≥ s.prog.length := by
  unfold progEntry
  split
  · simp [*]
  · rw [List.getElem?_eq_none_iff]
    omega

theorem progEntry_eq_getElem? (s : State) {i : Int} (h : 0 ≤ i) : progEntry s i = s.prog[i.toNat]? :=
  if_neg (by omega)

theorem step_of_out_of_range (hrun : s.run = .running) (he : progEntry s s.pc = none) :
    step s = .next (setRun s .ended) := by
  simp [step, hrun, he]

theorem step_of_instr (hrun : s.run = .running) (he : progEntry s s.pc = some e) {i : Instr}
    (hd : decode e.word s.optab = .instr i) : step s = exec i (beginStep s) := by
  simp [step, hrun, he, hd]

theorem step_of_invalid (hrun : s.run = .running) (he : progEntry s s.pc = some e)
    (hd : decode e.word s.optab = .invalid) : step s = .next (raiseInvalidEncoding (beginStep s)) := by
  simp [step, hrun, he, hd]

end Step

/-- Settles O43: outside the program there is no entry, and the step only ends the run. -/
theorem pcOutOfRangeEndsRun : Obligations.PcOutOfRangeEndsRun := by
  intro s hrun hpc
  refine ⟨_, step_of_out_of_range hrun ((progEntry_eq_none_iff s s.pc).mpr hpc), rfl, ?_⟩
  exact ⟨fun _ => rfl, rfl, rfl, fun _ => rfl, rfl, rfl, rfl, rfl, rfl, rfl, rfl⟩

/-- Settles O44: the state that the instruction executes in is `beginStep s`. -/
theorem stepRunsDecodedInstruction : Obligations.StepRunsDecodedInstruction := by
  rintro s i hrun hpc ⟨e, he, hd⟩
  rw [← progEntry_eq_getElem? s hpc] at he
  exact ⟨beginStep s, step_of_instr hrun he hd, rfl, writesOnlyPc_setPc (s.pc + 1) (pushTrace s s.pc)⟩

/-- The failure of an illegal word has the index of the step (R66, R186). -/
theorem tookFailure_raiseInvalidEncoding (s : State) :
    TookFailure .invalidEncoding s.pc none (beginStep s) (raiseInvalidEncoding (beginStep s)) := by
  have hindex : currentIndex (beginStep s) = s.pc := by simp [currentIndex]
  rw [raiseInvalidEncoding, hindex]
  exact tookFailure_raiseFailure _ _ _ _

/-- Settles O45. -/
theorem stepOnIllegalWordFails : Obligations.StepOnIllegalWordFails := by
  rintro s hrun hpc ⟨e, he, hd⟩
  rw [← progEntry_eq_getElem? s hpc] at he
  exact ⟨_, step_of_invalid hrun he hd, tookFailure_raiseInvalidEncoding s, rfl, rfl⟩

/-- Settles O46: `beginStep` advances `pc`, and no instruction but a branch moves it after that. -/
theorem onlyBranchesOverwritePc : Obligations.OnlyBranchesOverwritePc := by
  refine ⟨fun s t i e hrun he hd hstep hb => ?_, fun s hrun hpc => ?_⟩
  · rw [step_of_instr hrun he hd] at hstep
    exact (exec_effect hstep).pc_of_not_branch hb
  · exact step_of_out_of_range hrun ((progEntry_eq_none_iff s s.pc).mpr (.inr hpc.ge))

/-- Settles O51: the trace push is the step's own, the event the instruction's. -/
theorem traceAndOutputOnlyGrow : Obligations.TraceAndOutputOnlyGrow := by
  intro s t hstep
  rcases step_cases hstep with ⟨_, rfl⟩ | ⟨_, _, rfl⟩ | ⟨_, _, _, _, _, hexec⟩ | ⟨_, _, _, _, rfl⟩
  · exact ⟨.inl rfl, .inl rfl⟩
  · exact ⟨.inl rfl, .inl rfl⟩
  · exact ⟨.inr (exec_effect hexec).trace, (exec_effect hexec).out⟩
  · exact ⟨.inr rfl, .inr ⟨_, rfl⟩⟩

/-! ### How a run ends (R188) -/

theorem toInt_eq_zero_iff (v : Word) : v.toInt = 0 ↔ v = 0 := by
  rw [← BitVec.toInt_inj]
  rfl

/-- `SDIV` by zero (R94, R106). -/
theorem exec_sdiv_of_zero {s : State} (rd rn : Reg) {rm : Reg} (h : readReg s rm = 0) :
    exec (.sdiv rd rn rm) s = .next (raiseFailure s .divideByZero (s.pc - 1) (some .sdiv)) :=
  if_pos ((toInt_eq_zero_iff _).mpr h)

theorem exec_sdiv_of_ne_zero {s : State} (rd rn : Reg) {rm : Reg} (h : readReg s rm ≠ 0) :
    exec (.sdiv rd rn rm) s = .next (regRegOp aluSdiv rd rn rm s) :=
  if_neg (fun e => h ((toInt_eq_zero_iff _).mp e))

section Access
variable {s : State} {rn : Reg} {dt : Nat} {n : Nat} (mn : Mnemonic) (rt : Reg)

theorem loadOp_of_admitted (ext : Nat → Word) (h : admitted s (effectiveAddress s rn dt) n) :
    loadOp mn n ext rt rn dt s =
      writeReg s rt (ext (valueOfBytes (Memory.readBytes s.mem (effectiveAddress s rn dt).toNat n))) := by
  simp only [loadOp, memRead_of_admitted h]

theorem loadOp_of_not_admitted (ext : Nat → Word) (h : ¬ admitted s (effectiveAddress s rn dt) n) :
    loadOp mn n ext rt rn dt s = raiseFailure s .addressOutOfRange (effectiveAddress s rn dt) (some mn) := by
  simp only [loadOp, memRead_of_not_admitted h]

theorem storeOp_of_admitted (h : admitted s (effectiveAddress s rn dt) n) :
    storeOp mn n rt rn dt s =
      setMem s (Memory.writeBytes s.mem (effectiveAddress s rn dt).toNat (lowBytes (readReg s rt) n)) := by
  simp only [storeOp, memWrite_of_admitted h]

theorem storeOp_of_not_admitted (h : ¬ admitted s (effectiveAddress s rn dt) n) :
    storeOp mn n rt rn dt s = raiseFailure s .addressOutOfRange (effectiveAddress s rn dt) (some mn) := by
  simp only [storeOp, memWrite_of_not_admitted h]

theorem run_loadOp (ext : Nat → Word) (h : admitted s (effectiveAddress s rn dt) n) :
    (loadOp mn n ext rt rn dt s).run = s.run := by
  rw [loadOp_of_admitted mn rt ext h, writeReg_run]

theorem run_storeOp (h : admitted s (effectiveAddress s rn dt) n) : (storeOp mn n rt rn dt s).run = s.run := by
  rw [storeOp_of_admitted mn rt h, setMem_run]

end Access

/-- `PRNT` does what its payload prints (R178). -/
theorem execPrnt_of_text {s : State} {u : Text} (h : printText s (currentPayload s) = .text u) :
    execPrnt s = .next (emit s (.print u)) := by
  simp only [execPrnt, h]

theorem execPrnt_of_badAddress {s : State} {ea : Int} (h : printText s (currentPayload s) = .badAddress ea) :
    execPrnt s = .next (raiseFailure s .addressOutOfRange ea (some .prnt)) := by
  simp only [execPrnt, h]

/-- An instruction that meets its failing condition of R197 fails. -/
theorem exec_of_failsIn {i : Instr} {s : State} (h : FailsIn i s) :
    ∃ c info, exec i s = .next (raiseFailure s c info (some i.mnemonic)) := by
  cases i with
  | udiv | lda | ldxr | stxr => exact ⟨_, _, rfl⟩
  | sdiv d n m => exact ⟨_, _, exec_sdiv_of_zero d n h⟩
  | ldur t n dt | ldurb t n dt | ldurh t n dt | ldursw t n dt =>
    exact ⟨_, _, congrArg Host.Outcome.next (loadOp_of_not_admitted _ t _ h)⟩
  | stur t n dt | sturb t n dt | sturh t n dt | sturw t n dt =>
    exact ⟨_, _, congrArg Host.Outcome.next (storeOp_of_not_admitted _ t h)⟩
  | prnt =>
    obtain ⟨ea, hea⟩ := h
    exact ⟨_, _, execPrnt_of_badAddress hea⟩
  | _ => exact h.elim

/-- An instruction that is none of the fourteen of R197 does not end a run, unless it is `HALT` or `DUMP`. -/
theorem run_of_not_failing {i : Instr} {s t : State} (h : exec i s = .next t) (hm : i.mnemonic ∉ failingMnemonics)
    (hi : ¬ (i = .halt ∨ i = .dump)) : t.run = s.run := by
  rcases (exec_effect h).run_cases with hsame | ⟨hstop, _⟩ | ⟨hmem, _⟩
  · exact hsame
  · exact absurd hstop hi
  · exact absurd hmem hm

/-- An instruction that does not meet its failing condition does not end a run, unless it is `HALT` or `DUMP`. -/
theorem run_of_not_failsIn {i : Instr} {s t : State} (h : exec i s = .next t) (hf : ¬ FailsIn i s)
    (hi : ¬ (i = .halt ∨ i = .dump)) : t.run = s.run := by
  cases i with
  | udiv | lda | ldxr | stxr => exact absurd trivial hf
  | sdiv d n m =>
    rw [exec_sdiv_of_ne_zero d n hf] at h
    cases h
    exact writeReg_run s d _
  | ldur t n dt | ldurb t n dt | ldurh t n dt | ldursw t n dt =>
    cases h
    exact run_loadOp _ t _ (not_not.mp hf)
  | stur t n dt | sturb t n dt | sturh t n dt | sturw t n dt =>
    cases h
    exact run_storeOp _ t (not_not.mp hf)
  | prnt =>
    cases hp : printText s (currentPayload s) with
    | text u =>
      rw [show exec .prnt s = execPrnt s from rfl, execPrnt_of_text hp] at h
      cases h
      rfl
    | badAddress ea => exact absurd ⟨ea, hp⟩ hf
  | _ => exact run_of_not_failing h (by simp [Instr.mnemonic, failingMnemonics]) hi

theorem exec_halt (s : State) : exec .halt s = .next (setRun (emit s (dumpEvent s)) .ended) := rfl

theorem exec_dump (s : State) : exec .dump s = .next (setRun (emit s (dumpEvent s)) .ended) := rfl

/-- An instruction ends the run of a running machine exactly where it is `HALT` or `DUMP` or fails (R188). -/
theorem exec_ends_iff {i : Instr} {s t : State} (h : exec i s = .next t) (hrun : s.run = .running) :
    t.run ≠ .running ↔ i = .halt ∨ i = .dump ∨ FailsIn i s := by
  constructor
  · intro hended
    by_contra hnot
    push Not at hnot
    obtain ⟨hhalt, hdump, hfails⟩ := hnot
    exact hended ((run_of_not_failsIn h hfails (not_or.mpr ⟨hhalt, hdump⟩)).trans hrun)
  · rintro (rfl | rfl | hfails)
    · cases h
      simp
    · cases h
      simp
    · obtain ⟨c, info, hexec⟩ := exec_of_failsIn hfails
      cases h.symm.trans hexec
      simp

/-- A branch to its own index leaves the machine where it was, but for the trace. -/
theorem step_self_branch {s : State} {e : ProgEntry} {a : Nat} (hrun : s.run = .running)
    (he : progEntry s s.pc = some e) (hd : decode e.word s.optab = .instr (.b a)) (ha : a < 2 ^ 26)
    (hpc : s.pc = (a : Int)) : step s = .next (pushTrace s s.pc) := by
  rw [step_of_instr hrun he hd, show exec (.b a) (beginStep s) = .next (setPc (beginStep s) (target26 a)) from rfl,
    target26_eq ha, ← hpc]
  rfl

theorem hostSteps_self_branch {s : State} {e : ProgEntry} {a : Nat} (k : Nat) (hrun : s.run = .running)
    (he : progEntry s s.pc = some e) (hd : decode e.word s.optab = .instr (.b a)) (ha : a < 2 ^ 26)
    (hpc : s.pc = (a : Int)) : ∃ t, hostSteps k s = .next t ∧ t.run = .running ∧ t.pc = s.pc := by
  induction k generalizing s with
  | zero => exact ⟨s, rfl, hrun, rfl⟩
  | succ k ih =>
    rw [hostSteps, step_self_branch hrun he hd ha hpc]
    exact ih (s := pushTrace s s.pc) hrun he hd hpc

/-- Settles O53, by the cases of a step: no entry, an illegal word, or an instruction, for which `exec_ends_iff` says
when it ends the run. -/
theorem runEndsInFourWays : Obligations.RunEndsInFourWays := by
  refine ⟨fun s t hrun hstep => ?_, fun s e a k => hostSteps_self_branch k⟩
  cases he : progEntry s s.pc with
  | none =>
    rw [step_of_out_of_range hrun he] at hstep
    cases hstep
    have hpc := (progEntry_eq_none_iff s s.pc).mp he
    exact ⟨by simp [hpc], fun _ => rfl, fun e he' => by cases he'⟩
  | some e =>
    have hpc : ¬ (s.pc < 0 ∨ s.pc ≥ s.prog.length) := by
      rw [← progEntry_eq_none_iff s s.pc, he]
      simp
    cases hd : decode e.word s.optab with
    | invalid =>
      rw [step_of_invalid hrun he hd] at hstep
      cases hstep
      refine ⟨?_, fun h => absurd h hpc, fun e' he' => ?_⟩
      · simp [raiseInvalidEncoding, hd]
      · cases he'
        simp [hd, tookFailure_raiseInvalidEncoding]
    | instr i =>
      rw [step_of_instr hrun he hd] at hstep
      refine ⟨?_, fun h => absurd h hpc, fun e' he' => ?_⟩
      · rw [exec_ends_iff hstep hrun]
        simp [hpc, hd]
      · cases he'
        refine ⟨fun hstop => ?_, fun hinvalid => by simp [hd] at hinvalid, fun j hj hfails => ?_⟩
        · rw [hd] at hstop
          rcases hstop with hi | hi
          · cases hi
            cases hstep
            rfl
          · cases hi
            cases hstep
            rfl
        · cases hd.symm.trans hj
          obtain ⟨c, info, hexec⟩ := exec_of_failsIn hfails
          cases hstep.symm.trans hexec
          exact ⟨c, info, tookFailure_raiseFailure _ c info _⟩

end Sys2Proof.Machine

/-! ## The family 'other': the R, I and IM formats -/

namespace Sys2Proof.Machine

/-! ### The shared shapes (R97) -/

theorem writesOnly_regImmOp (f : Word → Word → Word) (rd rn : Reg) (b : Word) (s : State) :
    WritesOnly rd (f (readReg s rn) b) s (regImmOp f rd rn b s) :=
  writesOnly_writeReg rd _ s

/-- The flags come from the operands as read before the register is written (R97). -/
theorem writesOnlyWithFlags_regRegFlagsOp (f : Word → Word → Word) (rd rn rm : Reg) (s : State) :
    WritesOnlyWithFlags rd (f (readReg s rn) (readReg s rm))
      (setFlags (f (readReg s rn) (readReg s rm)).toInt (readReg s rn).toInt (readReg s rm).toInt) s
      (regRegFlagsOp f rd rn rm s) :=
  writesOnlyWithFlags_writeReg rd _ _ s

/-- The right operand of the flags is the immediate itself, never negative (R60, R92). -/
theorem writesOnlyWithFlags_regImmFlagsOp (f : Word → Word → Word) (rd rn : Reg) {imm : Nat} (h : imm < 4096)
    (s : State) :
    WritesOnlyWithFlags rd (f (readReg s rn) (imm12Operand imm))
      (setFlags (f (readReg s rn) (imm12Operand imm)).toInt (readReg s rn).toInt (imm : Int)) s
      (regImmFlagsOp f rd rn (imm12Operand imm) s) := by
  rw [← imm12Operand_toInt h]
  exact writesOnlyWithFlags_writeReg rd _ _ s

theorem writesOnlyFlags_compareOp_aluSub (a b : Word) (s : State) :
    WritesOnlyFlags (setFlags (a - b).toInt a.toInt b.toInt) s (compareOp aluSub a b s) := by
  rw [← aluSub_eq]
  exact writesOnlyFlags_writeFlags _ s

/-- The bits of an immediate that fits its field: those above the field read as 0. -/
theorem imm12Operand_getLsbD {imm k : Nat} (h : imm < 4096) (hk : k < 64) :
    (imm12Operand imm).getLsbD k = imm.testBit k := by
  rw [imm12Operand_eq h, BitVec.getLsbD_ofNat, decide_eq_true hk, Bool.true_and]

/-! ### Logic, shifts and moves -/

/-- Settles O2. -/
theorem bitwiseRegisterForms : Obligations.BitwiseRegisterForms := by
  intro rd rn rm s
  refine ⟨?_, ?_, ?_⟩
  · exact ⟨_, _, rfl, writesOnly_regRegOp aluAnd rd rn rm s, fun k => BitVec.getLsbD_and⟩
  · exact ⟨_, _, rfl, writesOnly_regRegOp aluOrr rd rn rm s, fun k => BitVec.getLsbD_or⟩
  · exact ⟨_, _, rfl, writesOnly_regRegOp aluEor rd rn rm s, fun k => BitVec.getLsbD_xor⟩

/-- Settles O14. -/
theorem immediateLogicForms : Obligations.ImmediateLogicForms := by
  intro rd rn imm s himm
  refine ⟨?_, ?_, ?_⟩
  · refine ⟨_, _, rfl, writesOnly_regImmOp aluAnd rd rn (imm12Operand imm) s, fun k hk => ?_⟩
    rw [aluAnd, BitVec.getLsbD_and, imm12Operand_getLsbD himm hk]
  · refine ⟨_, _, rfl, writesOnly_regImmOp aluOrr rd rn (imm12Operand imm) s, fun k hk => ?_⟩
    rw [aluOrr, BitVec.getLsbD_or, imm12Operand_getLsbD himm hk]
  · refine ⟨_, _, rfl, writesOnly_regImmOp aluEor rd rn (imm12Operand imm) s, fun k hk => ?_⟩
    rw [aluEor, BitVec.getLsbD_xor, imm12Operand_getLsbD himm hk]

theorem aluLsl_getLsbD (a : Word) (n : Nat) {k : Nat} (hk : k < 64) :
    (aluLsl a n).getLsbD k = (decide (n ≤ k) && a.getLsbD (k - n)) := by
  rw [aluLsl, BitVec.getLsbD_ofNat, Nat.testBit_mul_two_pow, decide_eq_true hk, Bool.true_and]
  rfl

/-- A logical shift: above bit 63 there is nothing to shift in (decision D14). -/
theorem aluLsr_getLsbD (a : Word) (n : Nat) {k : Nat} (hk : k < 64) :
    (aluLsr a n).getLsbD k = (decide (k + n < 64) && a.getLsbD (k + n)) := by
  rw [aluLsr, BitVec.getLsbD_ofNat, Nat.testBit_div_two_pow, decide_eq_true hk, Bool.true_and]
  by_cases h : k + n < 64
  · rw [decide_eq_true h, Bool.true_and]
    rfl
  · rw [decide_eq_false h, Bool.false_and]
    exact BitVec.getLsbD_of_ge a _ (by omega)

/-- Settles O8. -/
theorem shiftForms : Obligations.ShiftForms := by
  intro rd rn n s hn
  refine ⟨⟨_, _, rfl, writesOnly_writeReg rd _ s, fun k hk => ?_⟩,
    ⟨_, _, rfl, writesOnly_writeReg rd _ s, fun k hk => ?_⟩⟩
  · rw [shiftDistance_eq hn, aluLsl_getLsbD _ n hk]
  · rw [shiftDistance_eq hn, aluLsr_getLsbD _ n hk]

/-- The mask of `MOVK` is the low 16 bits. -/
theorem lowHalf_getLsbD {k : Nat} (hk : k < 64) : (0xFFFF : Word).getLsbD k = decide (k < 16) := by
  rw [show (0xFFFF : Word) = BitVec.ofNat 64 (2 ^ 16 - 1) from rfl, BitVec.getLsbD_ofNat, Nat.testBit_two_pow_sub_one,
    decide_eq_true hk, Bool.true_and]

/-- `MOVK` bit by bit (R132). -/
theorem movk_getLsbD (old : Word) {imm k : Nat} (himm : imm < 65536) (hk : k < 64) :
    ((old &&& ~~~ (0xFFFF : Word)) ||| imm16Operand imm).getLsbD k =
      if k < 16 then imm.testBit k else old.getLsbD k := by
  rw [imm16Operand_eq himm, BitVec.getLsbD_or, BitVec.getLsbD_and, BitVec.getLsbD_not, lowHalf_getLsbD hk,
    BitVec.getLsbD_ofNat, decide_eq_true hk]
  by_cases h : k < 16
  · simp [h]
  · have hbit : imm.testBit k = false :=
      Nat.testBit_lt_two_pow (himm.trans_le (show 2 ^ 16 ≤ 2 ^ k from Nat.pow_le_pow_right (by decide) (by omega)))
    simp [h, hbit]

/-- Settles O11. -/
theorem moveForms : Obligations.MoveForms := by
  intro rd rn imm s himm
  refine ⟨?_, ?_, ?_⟩
  · exact ⟨_, rfl, writesOnly_writeReg rd _ s⟩
  · refine ⟨_, _, rfl, writesOnly_writeReg rd _ s, ?_⟩
    rw [imm16Operand_eq himm, BitVec.toNat_ofNat]
    omega
  · exact ⟨_, _, rfl, writesOnly_writeReg rd _ s, fun k hk => movk_getLsbD _ himm hk⟩

/-! ### Arithmetic and flags -/

/-- Settles O13. -/
theorem immediateArithmeticForms : Obligations.ImmediateArithmeticForms := by
  intro rd rn imm s himm
  refine ⟨?_, ?_⟩
  · refine ⟨_, _, rfl, writesOnly_regImmOp aluAdd rd rn (imm12Operand imm) s, ?_⟩
    rw [aluAdd_toInt, imm12Operand_toInt himm]
  · refine ⟨_, _, rfl, writesOnly_regImmOp aluSub rd rn (imm12Operand imm) s, ?_⟩
    rw [aluSub_toInt, imm12Operand_toInt himm]

/-- Settles O5. -/
theorem flagSettingRegisterForms : Obligations.FlagSettingRegisterForms := by
  intro rd rn rm s
  refine ⟨?_, ?_, ?_⟩
  · exact ⟨_, _, rfl, aluAdd_eq _ _, writesOnlyWithFlags_regRegFlagsOp aluAdd rd rn rm s⟩
  · exact ⟨_, _, rfl, aluSub_eq _ _, writesOnlyWithFlags_regRegFlagsOp aluSub rd rn rm s⟩
  · exact ⟨_, _, rfl, rfl, writesOnlyWithFlags_regRegFlagsOp aluAnd rd rn rm s⟩

/-- Settles O15. -/
theorem flagSettingImmediateForms : Obligations.FlagSettingImmediateForms := by
  intro rd rn imm s himm
  rw [← imm12Operand_eq himm]
  refine ⟨?_, ?_, ?_⟩
  · exact ⟨_, _, rfl, aluAdd_eq _ _, writesOnlyWithFlags_regImmFlagsOp aluAdd rd rn himm s⟩
  · exact ⟨_, _, rfl, aluSub_eq _ _, writesOnlyWithFlags_regImmFlagsOp aluSub rd rn himm s⟩
  · exact ⟨_, _, rfl, rfl, writesOnlyWithFlags_regImmFlagsOp aluAnd rd rn himm s⟩

/-- Settles O10. -/
theorem compareForms : Obligations.CompareForms := by
  intro rd rn imm s himm
  refine ⟨⟨_, rfl, writesOnlyFlags_compareOp_aluSub _ _ s⟩, ⟨_, rfl, ?_⟩⟩
  rw [← imm12Operand_eq himm, ← imm12Operand_toInt himm]
  exact writesOnlyFlags_compareOp_aluSub _ _ s

/-- Settles O9: the bound of the model is 2^53 - 1. -/
theorem branchRegisterClamps : Obligations.BranchRegisterClamps := by
  intro rd s
  have hclamp : clampIndex (readSigned s rd) = max (-(2 ^ 53 - 1)) (min (2 ^ 53 - 1) (readReg s rd).toInt) := by
    simp only [clampIndex, Config.safeMax, readSigned]
    omega
  rw [← hclamp]
  exact ⟨_, rfl, writesOnlyPc_setPc _ s⟩

/-- Settles O12. -/
theorem stubsAlwaysFail : Obligations.StubsAlwaysFail := by
  intro a b c dt s
  have hstub : ∀ mn, TookFailure .unimplemented (s.pc - 1) (some mn) s (raiseUnimplemented s mn) := fun mn =>
    tookFailure_raiseFailure s .unimplemented _ (some mn)
  exact ⟨⟨_, rfl, hstub _⟩, ⟨_, rfl, hstub _⟩, ⟨_, rfl, hstub _⟩, ⟨_, rfl, hstub _⟩⟩

/-! ### Division (R94) -/

/-- Settles O4. -/
theorem sdivByZeroFails : Obligations.SdivByZeroFails :=
  fun rd rn _ s h => ⟨_, exec_sdiv_of_zero rd rn h, tookFailure_raiseFailure s _ _ _⟩

/-- The remainder has the sign of the dividend, or is 0. -/
theorem tmod_pos_iff {a b : Int} (h : a.tmod b ≠ 0) : 0 < a.tmod b ↔ 0 < a := by
  by_cases ha : 0 ≤ a
  · have hnonneg := Int.tmod_nonneg b ha
    have hne : a ≠ 0 := fun e => h (by rw [e, Int.zero_tmod])
    omega
  · have hnonneg := Int.tmod_nonneg b (a := -a) (by omega)
    rw [Int.neg_tmod] at hnonneg
    omega

theorem tmod_natAbs_lt (a : Int) {b : Int} (h : b ≠ 0) : (a.tmod b).natAbs < b.natAbs := by
  rw [Int.natAbs_tmod]
  exact Nat.mod_lt _ (Int.natAbs_pos.mpr h)

/-- The one quotient of 64-bit operands that 64 bits do not hold is that of -2^63 by -1. -/
theorem tdiv_range {a b : Int} (hlow : -2 ^ 63 ≤ a) (hhigh : a < 2 ^ 63) (hb : b ≠ 0)
    (hfits : ¬ (a = -2 ^ 63 ∧ b = -1)) : -2 ^ 63 ≤ a.tdiv b ∧ a.tdiv b < 2 ^ 63 := by
  have hle := Int.natAbs_tdiv_le_natAbs a b
  have hrem := tmod_natAbs_lt a hb
  have hdiv := Int.tdiv_mul_add_tmod a b
  have hne : a.tdiv b ≠ 2 ^ 63 := by
    intro hq
    rw [hq] at hdiv
    omega
  omega

/-- Settles O3: the quotient is `Int.tdiv`, and wrapping changes it only where it does not fit (`tdiv_range`). -/
theorem sdivRoundsTowardZero : Obligations.SdivRoundsTowardZero := by
  intro rd rn rm s hne
  refine ⟨_, _, exec_sdiv_of_ne_zero rd rn hne, writesOnly_regRegOp aluSdiv rd rn rm s, ?_, fun hfits => ?_⟩
  · rintro ⟨ha, hb⟩
    rw [aluSdiv, ha, hb]
    decide
  · have hb : (readReg s rm).toInt ≠ 0 := fun e => hne ((toInt_eq_zero_iff _).mp e)
    obtain ⟨hlow, hhigh⟩ := tdiv_range (BitVec.le_toInt _) (BitVec.toInt_lt (x := readReg s rn)) hb hfits
    have hq : (aluSdiv (readReg s rn) (readReg s rm)).toInt = (readReg s rn).toInt.tdiv (readReg s rm).toInt := by
      rw [aluSdiv, wrap64_toInt]
      exact Int.bmod_eq_of_le (by simpa using hlow) (by simpa using hhigh)
    refine ⟨(readReg s rn).toInt.tmod (readReg s rm).toInt, ?_, tmod_natAbs_lt _ hb, tmod_pos_iff⟩
    rw [hq, Int.tdiv_mul_add_tmod]

/-! ### Carry and overflow (R92, R93) -/

/-- Settles O6. -/
theorem setFlagsFormulas : Obligations.SetFlagsFormulas := by
  intro res l r
  simp [setFlags, carryFlag, overflowFlag, and_assoc]

section Table
variable (res a b : Word)

theorem flagsOf_c_iff : (flagsOf res a b).c = true ↔
    (a.toInt > 0 ∧ b.toInt > 0 ∧ res.toInt < a.toInt ∧ res.toInt < b.toInt) ∨
      (a.toInt < 0 ∧ b.toInt < 0 ∧ res.toInt > a.toInt ∧ res.toInt > b.toInt) := by
  obtain ⟨-, -, hc, -⟩ := setFlagsFormulas res.toInt a.toInt b.toInt
  exact hc

theorem flagsOf_v_iff : (flagsOf res a b).v = true ↔
    (a.toInt > 0 ∧ b.toInt > 0 ∧ res.toInt < 0) ∨ (a.toInt < 0 ∧ b.toInt < 0 ∧ res.toInt > 0) := by
  obtain ⟨-, -, -, hv⟩ := setFlagsFormulas res.toInt a.toInt b.toInt
  exact hv

theorem flagsOf_c_eq_false_iff : (flagsOf res a b).c = false ↔
    ¬ ((a.toInt > 0 ∧ b.toInt > 0 ∧ res.toInt < a.toInt ∧ res.toInt < b.toInt) ∨
      (a.toInt < 0 ∧ b.toInt < 0 ∧ res.toInt > a.toInt ∧ res.toInt > b.toInt)) := by
  rw [← flagsOf_c_iff, Bool.not_eq_true]

theorem flagsOf_v_eq_false_iff : (flagsOf res a b).v = false ↔
    ¬ ((a.toInt > 0 ∧ b.toInt > 0 ∧ res.toInt < 0) ∨ (a.toInt < 0 ∧ b.toInt < 0 ∧ res.toInt > 0)) := by
  rw [← flagsOf_v_iff, Bool.not_eq_true]

/-- The sum of two words is the exact one, or off by 2^64 where that does not fit. -/
theorem toInt_add_cases :
    (a + b).toInt = if a.toInt + b.toInt < -2 ^ 63 then a.toInt + b.toInt + 2 ^ 64
      else if a.toInt + b.toInt ≥ 2 ^ 63 then a.toInt + b.toInt - 2 ^ 64 else a.toInt + b.toInt := by
  have ha := BitVec.le_toInt a
  have ha' := BitVec.toInt_lt (x := a)
  have hb := BitVec.le_toInt b
  have hb' := BitVec.toInt_lt (x := b)
  rw [BitVec.toInt_add, Int.bmod_def]
  omega

theorem toInt_sub_of_same_sign (h : (a.toInt > 0 ∧ b.toInt > 0) ∨ (a.toInt < 0 ∧ b.toInt < 0)) :
    (a - b).toInt = a.toInt - b.toInt := by
  have ha := BitVec.le_toInt a
  have ha' := BitVec.toInt_lt (x := a)
  have hb := BitVec.le_toInt b
  have hb' := BitVec.toInt_lt (x := b)
  rw [BitVec.toInt_sub, Int.bmod_def]
  omega

theorem toInt_and_nonneg (h : 0 < a.toInt) : 0 ≤ (a &&& b).toInt := by
  have hle : (a &&& b).toNat ≤ a.toNat := by
    rw [BitVec.toNat_and]
    exact Nat.and_le_left
  have ha := a.isLt
  rw [BitVec.toInt_eq_toNat_cond] at h ⊢
  split at h <;> split <;> omega

/-- Both sign bits set: the conjunction keeps the sign, and clears bits of both operands. -/
theorem toInt_and_le_of_neg (ha : a.toInt < 0) (hb : b.toInt < 0) : (a &&& b).toInt ≤ a.toInt := by
  have hle : (a &&& b).toNat ≤ a.toNat := by
    rw [BitVec.toNat_and]
    exact Nat.and_le_left
  have hmsb : a.msb = true ∧ b.msb = true := by
    simp only [BitVec.msb_eq_toInt, decide_eq_true_eq]
    exact ⟨ha, hb⟩
  rw [BitVec.toInt_eq_msb_cond, BitVec.toInt_eq_msb_cond a, BitVec.msb_and, hmsb.1, hmsb.2]
  simpa using hle

end Table

/-- Settles O7: each row of R93 is the formula of the flag at the exact sum or difference, or at a conjunction whose
sign and bound are known. -/
theorem carryOverflowTable : Obligations.CarryOverflowTable := by
  intro a b
  refine ⟨fun hmixed res => ?_, fun ha hb => ?_, fun ha hb => ?_⟩
  · have hsigns : ¬ (a.toInt > 0 ∧ b.toInt > 0) ∧ ¬ (a.toInt < 0 ∧ b.toInt < 0) := by
      rw [← toInt_eq_zero_iff a, ← toInt_eq_zero_iff b] at hmixed
      omega
    rw [flagsOf_c_eq_false_iff, flagsOf_v_eq_false_iff]
    omega
  · have hadd := toInt_add_cases a b
    have hsub := toInt_sub_of_same_sign a b (.inl ⟨ha, hb⟩)
    have hand := toInt_and_nonneg a b ha
    have hlt := BitVec.toInt_lt (x := a)
    have hlt' := BitVec.toInt_lt (x := b)
    simp only [flagsOf_c_eq_false_iff, flagsOf_v_eq_false_iff, flagsOf_c_iff, flagsOf_v_iff, ← BitVec.toInt_inj, hsub]
    omega
  · have hadd := toInt_add_cases a b
    have hsub := toInt_sub_of_same_sign a b (.inr ⟨ha, hb⟩)
    have hand := toInt_and_le_of_neg a b ha hb
    have hge := BitVec.le_toInt a
    have hge' := BitVec.le_toInt b
    simp only [flagsOf_c_eq_false_iff, flagsOf_v_eq_false_iff, flagsOf_c_iff, flagsOf_v_iff, ← BitVec.toInt_inj, hsub]
    omega

end Sys2Proof.Machine

/-! ## The family 'other': the D, B, CB and Z formats -/

namespace Sys2Proof.Machine

/-! ### Loads and stores (R32 to R36, R135) -/

/-- Bit `k` of the value that an access of `n` bytes reads is a bit of its byte `k / 8` (R33). -/
theorem readBytes_testBit (s : State) (a : Nat) {n k : Nat} (hk : k < 8 * n) :
    (valueOfBytes (Memory.readBytes s.mem a n)).testBit k = (readByte s (a + k / 8)).getLsbD (k % 8) := by
  rw [valueOfBytes_testBit, Memory.readBytes_getD _ _ _ (by omega)]
  rfl

/-- An admitted load writes its register with the extended value, and nothing else. -/
theorem writesOnly_loadOp {s : State} {rn : Reg} {dt n : Nat} (mn : Mnemonic) (rt : Reg) (ext : Nat → Word)
    (h : admitted s (effectiveAddress s rn dt) n) :
    WritesOnly rt (ext (valueOfBytes (Memory.readBytes s.mem (effectiveAddress s rn dt).toNat n))) s
      (loadOp mn n ext rt rn dt s) := by
  rw [loadOp_of_admitted mn rt ext h]
  exact writesOnly_writeReg rt _ s

/-- Settles O17. -/
theorem admittedLoadsReadBytes : Obligations.AdmittedLoadsReadBytes := by
  intro rt rn dt s ea hdt hea hlow
  rw [← effectiveAddress_eq s rn hdt] at hea
  subst hea
  refine ⟨fun hend => ?_, fun hend => ?_, fun hend => ?_, fun hend => ?_⟩
  · refine ⟨_, _, rfl, writesOnly_loadOp .ldur rt (zext 64) ⟨hlow, hend⟩, fun k hk => ?_⟩
    rw [zext_getLsbD _ _ hk, readBytes_testBit s _ hk, decide_eq_true hk, Bool.true_and]
  · refine ⟨_, _, rfl, writesOnly_loadOp .ldurb rt (zext 8) ⟨hlow, hend⟩, fun k hk => ?_⟩
    rw [zext_getLsbD _ _ hk]
    by_cases h8 : k < 8
    · rw [readBytes_testBit s _ h8, Nat.div_eq_of_lt h8, Nat.mod_eq_of_lt h8, Nat.add_zero]
    · simp [h8]
  · refine ⟨_, _, rfl, writesOnly_loadOp .ldurh rt (zext 16) ⟨hlow, hend⟩, fun k hk => ?_⟩
    rw [zext_getLsbD _ _ hk]
    by_cases h16 : k < 16
    · rw [readBytes_testBit s _ h16]
    · simp [h16]
  · refine ⟨_, _, rfl, writesOnly_loadOp .ldursw rt (sext 32) ⟨hlow, hend⟩, fun k hk => ?_⟩
    rw [sext32_getLsbD _ hk]
    split
    · next h32 => rw [readBytes_testBit s _ h32]
    · exact readBytes_testBit s _ (by decide)

/-- Settles O18. -/
theorem admittedStoresWriteBytes : Obligations.AdmittedStoresWriteBytes := by
  intro rt rn dt s _ hwf hlow
  have hstore : ∀ (mn : Mnemonic) (n : Nat), effectiveAddress s rn dt + (n : Int) ≤ s.memSize →
      StoresOnly (effectiveAddress s rn dt) n (readReg s rt) s (storeOp mn n rt rn dt s) := fun mn n hend => by
    rw [storeOp_of_admitted mn rt ⟨hlow, hend⟩]
    exact storesOnly_setMem hwf ⟨hlow, hend⟩ _
  exact ⟨fun hend => ⟨_, rfl, hstore _ 8 hend⟩, fun hend => ⟨_, rfl, hstore _ 1 hend⟩,
    fun hend => ⟨_, rfl, hstore _ 2 hend⟩, fun hend => ⟨_, rfl, hstore _ 4 hend⟩⟩

/-- Settles O19: an address that is not admitted makes a load and a store fail alike. -/
theorem accessOutsideMemoryFails : Obligations.AccessOutsideMemoryFails := by
  intro rt rn dt s ea hdt hea
  rw [← effectiveAddress_eq s rn hdt] at hea
  subst hea
  have hload : ∀ (mn : Mnemonic) (n : Nat) (ext : Nat → Word),
      effectiveAddress s rn dt < 0 ∨ effectiveAddress s rn dt + (n : Int) > s.memSize →
      TookFailure .addressOutOfRange (effectiveAddress s rn dt) (some mn) s (loadOp mn n ext rt rn dt s) :=
    fun mn n ext hout => by
      rw [loadOp_of_not_admitted mn rt ext (by rintro ⟨hlow, hend⟩; omega)]
      exact tookFailure_raiseFailure s _ _ _
  have hstore : ∀ (mn : Mnemonic) (n : Nat),
      effectiveAddress s rn dt < 0 ∨ effectiveAddress s rn dt + (n : Int) > s.memSize →
      TookFailure .addressOutOfRange (effectiveAddress s rn dt) (some mn) s (storeOp mn n rt rn dt s) :=
    fun mn n hout => by
      rw [storeOp_of_not_admitted mn rt (by rintro ⟨hlow, hend⟩; omega)]
      exact tookFailure_raiseFailure s _ _ _
  exact ⟨fun hout => ⟨⟨_, rfl, hload _ 8 _ hout⟩, ⟨_, rfl, hstore _ 8 hout⟩⟩,
    fun hout => ⟨⟨_, rfl, hload _ 1 _ hout⟩, ⟨_, rfl, hstore _ 1 hout⟩⟩,
    fun hout => ⟨⟨_, rfl, hload _ 2 _ hout⟩, ⟨_, rfl, hstore _ 2 hout⟩⟩,
    fun hout => ⟨⟨_, rfl, hload _ 4 _ hout⟩, ⟨_, rfl, hstore _ 4 hout⟩⟩⟩

/-- What stands in a register after a store of `n` bytes and a load of `m` bytes. -/
theorem load_of_store {s : State} {rt ru rn : Reg} {dt dt' n m : Nat} (mn mn' : Mnemonic) (ext : Nat → Word)
    (hru : ru ≠ 31) (ha : admitted s (effectiveAddress s rn dt) n) (ha' : admitted s (effectiveAddress s rn dt') m) :
    readReg (loadOp mn' m ext ru rn dt' (storeOp mn n rt rn dt s)) ru =
      ext (valueOfBytes (Memory.readBytes (storeOp mn n rt rn dt s).mem (effectiveAddress s rn dt').toNat m)) := by
  rw [storeOp_of_admitted mn rt ha]
  generalize Memory.writeBytes s.mem _ _ = mem
  rw [loadOp_of_admitted (s := setMem s mem) mn' ru ext ha', readReg_writeReg_same _ hru]
  rfl

/-- After a store, bit `k` of the bytes read from its `j`-th byte up is bit `8 * j + k` of the register stored. -/
theorem readBytes_storeOp_testBit {s : State} (rt : Reg) {rn : Reg} {dt n : Nat} (mn : Mnemonic) (hwf : Memory.wf s.mem)
    (ha : admitted s (effectiveAddress s rn dt) n) {j k m : Nat} (hkm : k < 8 * m) (hjm : j + m ≤ n) :
    (valueOfBytes (Memory.readBytes (storeOp mn n rt rn dt s).mem ((effectiveAddress s rn dt).toNat + j) m)).testBit k =
      (readReg s rt).getLsbD (8 * j + k) := by
  obtain ⟨hbytes, -⟩ := storesOnly_setMem hwf ha (readReg s rt)
  rw [readBytes_testBit _ _ hkm, storeOp_of_admitted mn rt ha, Nat.add_assoc, hbytes _ (by omega),
    byteOf_getLsbD _ _ (Nat.mod_lt _ (by decide))]
  congr 1
  omega

section StoreThenLoad
variable {s : State} {rt ru rn : Reg} {dt n : Nat} (mn mn' : Mnemonic) (hru : ru ≠ 31) (hwf : Memory.wf s.mem)
include hru hwf

/-- A zero-extending load of the width just stored gives the low bytes of the register stored (R147). -/
theorem load_zext_of_store (ha : admitted s (effectiveAddress s rn dt) n) :
    readReg (loadOp mn' n (zext (8 * n)) ru rn dt (storeOp mn n rt rn dt s)) ru =
      ((readReg s rt).setWidth (8 * n)).setWidth 64 := by
  apply BitVec.eq_of_getLsbD_eq
  intro k hk
  rw [load_of_store mn mn' _ hru ha ha, zext_getLsbD _ _ hk, BitVec.getLsbD_setWidth, BitVec.getLsbD_setWidth,
    decide_eq_true hk, Bool.true_and]
  by_cases hkn : k < 8 * n
  · have hbit := readBytes_storeOp_testBit (j := 0) rt mn hwf ha hkn (by omega)
    rw [Nat.add_zero, Nat.mul_zero, Nat.zero_add] at hbit
    rw [hbit]
  · simp [hkn]

/-- A sign-extending load of the word just stored (R139, R147). -/
theorem load_sext_of_store (ha : admitted s (effectiveAddress s rn dt) 4) :
    readReg (loadOp mn' 4 (sext 32) ru rn dt (storeOp mn 4 rt rn dt s)) ru =
      ((readReg s rt).setWidth 32).signExtend 64 := by
  have hbit : ∀ k, k < 32 → (valueOfBytes (Memory.readBytes (storeOp mn 4 rt rn dt s).mem
      (effectiveAddress s rn dt).toNat 4)).testBit k = (readReg s rt).getLsbD k := fun k hk => by
    have h := readBytes_storeOp_testBit (j := 0) rt mn hwf ha (m := 4) hk (by omega)
    rwa [Nat.add_zero, Nat.mul_zero, Nat.zero_add] at h
  apply BitVec.eq_of_getLsbD_eq
  intro k hk
  rw [load_of_store mn mn' _ hru ha ha, sext32_getLsbD _ hk, BitVec.getLsbD_signExtend, decide_eq_true hk,
    Bool.true_and, BitVec.msb_eq_getLsbD_last, BitVec.getLsbD_setWidth, BitVec.getLsbD_setWidth]
  split
  · next h32 => simp [h32, hbit]
  · simp [hbit]

end StoreThenLoad

/-- Settles O20. -/
theorem storeThenLoadGivesValue : Obligations.StoreThenLoadGivesValue := by
  intro rt ru rn dt s hru hwf hlow
  refine ⟨fun hend => ⟨_, _, rfl, rfl, ?_⟩, fun hend => ⟨_, _, rfl, rfl, ?_⟩, fun hend => ⟨_, _, rfl, rfl, ?_⟩,
    fun hend => ⟨_, _, rfl, rfl, ?_⟩⟩
  · have hload := load_zext_of_store (n := 8) (rt := rt) .stur .ldur hru hwf ⟨hlow, hend⟩
    rwa [BitVec.setWidth_eq, BitVec.setWidth_eq] at hload
  · exact load_zext_of_store (n := 1) .sturb .ldurb hru hwf ⟨hlow, hend⟩
  · exact load_zext_of_store (n := 2) .sturh .ldurh hru hwf ⟨hlow, hend⟩
  · exact load_sext_of_store .sturw .ldursw hru hwf ⟨hlow, hend⟩

/-- Settles O21: the byte load is an access inside the eight bytes stored. -/
theorem byteLoadSeesByteOfStore : Obligations.ByteLoadSeesByteOfStore := by
  intro rt ru rn dt j s hru hwf hdt hj hlow hend
  have hea : effectiveAddress s rn (dt + j) = effectiveAddress s rn dt + (j : Int) := by
    rw [effectiveAddress_eq s rn hdt, effectiveAddress_eq s rn (by omega)]
    push_cast
    ring
  have ha : admitted s (effectiveAddress s rn dt) 8 := ⟨hlow, hend⟩
  have ha' : admitted s (effectiveAddress s rn (dt + j)) 1 := by
    constructor <;> omega
  have haddr : (effectiveAddress s rn (dt + j)).toNat = (effectiveAddress s rn dt).toNat + j := by omega
  refine ⟨_, _, rfl, rfl, ?_⟩
  apply BitVec.eq_of_getLsbD_eq
  intro k hk
  have hload := load_of_store (rt := rt) .stur .ldurb (zext 8) hru ha ha'
  rw [show readReg _ ru = _ from hload, zext_getLsbD _ _ hk, haddr, BitVec.getLsbD_setWidth, BitVec.getLsbD_setWidth,
    BitVec.getLsbD_ushiftRight, decide_eq_true hk, Bool.true_and]
  by_cases h8 : k < 8
  · rw [readBytes_storeOp_testBit rt .stur hwf ha (m := 1) h8 (by omega)]
  · simp [h8]

/-! ### Branches (R150 to R158) -/

/-- Settles O22. -/
theorem jumpAndCallForms : Obligations.JumpAndCallForms := by
  intro a s ha
  have htarget := target26_eq ha
  refine ⟨⟨_, rfl, ?_⟩, ⟨_, rfl, ?_⟩⟩
  · rw [← htarget]
    exact writesOnlyPc_setPc _ s
  · obtain ⟨hlink, hothers, hflags, -, hmem, hcontrol⟩ := writesOnly_writeReg linkReg (wrap64 s.pc) s
    exact ⟨hlink, hothers, hflags, htarget, hmem, hcontrol⟩

/-- A conditional branch writes `pc` alone, by its predicate `p` of the table (R155, R158). -/
theorem writesOnlyPc_branchIf_target19 {a : Nat} (ha : a < 2 ^ 19) (s : State) {c : Bool} {p : Prop} [Decidable p]
    (hp : c = decide p) : WritesOnlyPc (if p then (a : Int) else s.pc) s (branchIf c (target19 a) s) := by
  have h := writesOnlyPc_branchIf c (target19 a) s
  simpa only [hp, decide_eq_true_eq, target19_eq ha] using h

/-- The same where the predicate says when the branch is not taken. -/
theorem writesOnlyPc_branchIf_target19_not {a : Nat} (ha : a < 2 ^ 19) (s : State) {c : Bool} {p : Prop} [Decidable p]
    (hp : c = !decide p) : WritesOnlyPc (if p then s.pc else (a : Int)) s (branchIf c (target19 a) s) := by
  rw [← ite_not]
  exact writesOnlyPc_branchIf_target19 ha s (by rw [hp, decide_not])

/-- Settles O24. -/
theorem compareAndBranchForms : Obligations.CompareAndBranchForms := by
  intro rt a s ha
  exact ⟨⟨_, rfl, writesOnlyPc_branchIf_target19 ha s rfl⟩,
    ⟨_, rfl, writesOnlyPc_branchIf_target19_not ha s (decide_not)⟩⟩

/-- Settles O25: each predicate of the table is the model's condition on `Z` and `N`. -/
theorem conditionalBranchTable : Obligations.ConditionalBranchTable := by
  intro a s ha
  have htaken : ∀ (c : Cond) (p : Prop) [Decidable p], condHolds c s.flags = decide p →
      WritesOnlyPc (if p then (a : Int) else s.pc) s (branchCond c a s) := fun c p _ hp =>
    writesOnlyPc_branchIf_target19 ha s hp
  have hnotTaken : ∀ (c : Cond) (p : Prop) [Decidable p], condHolds c s.flags = (!decide p) →
      WritesOnlyPc (if p then s.pc else (a : Int)) s (branchCond c a s) := fun c p _ hp =>
    writesOnlyPc_branchIf_target19_not ha s hp
  refine ⟨⟨_, rfl, htaken .eq _ ?_⟩, ⟨_, rfl, hnotTaken .ne _ ?_⟩, ⟨_, rfl, htaken .lt _ ?_⟩, ⟨_, rfl, htaken .lo _ ?_⟩,
    ⟨_, rfl, htaken .le _ ?_⟩, ⟨_, rfl, htaken .ls _ ?_⟩, ⟨_, rfl, htaken .gt _ ?_⟩, ⟨_, rfl, htaken .hi _ ?_⟩,
    ⟨_, rfl, htaken .ge _ ?_⟩, ⟨_, rfl, htaken .hs _ ?_⟩, ⟨_, rfl, hnotTaken .pl _ ?_⟩, ⟨_, rfl, htaken .mi _ ?_⟩⟩ <;>
    simp [condHolds]

/-- Settles O23: `BL` links the index after itself, which is inside the safe range, so `BR` does not clamp it. -/
theorem callThenReturn : Obligations.CallThenReturn := by
  intro s e e' a hrun ha he hd he' hd' hpc
  obtain ⟨hnonneg, -, -⟩ := progEntry_some he
  have hstep := step_of_instr hrun he hd
  have hcall : exec (.bl a) (beginStep s) =
      .next (setPc (writeReg (beginStep s) linkReg (wrap64 (s.pc + 1))) (a : Int)) := by
    rw [← target26_eq ha]
    rfl
  rw [hcall] at hstep
  generalize ht : setPc (writeReg (beginStep s) linkReg (wrap64 (s.pc + 1))) (a : Int) = t at hstep
  have htpc : t.pc = (a : Int) := by rw [← ht]; rfl
  have htrun : t.run = .running := by rw [← ht]; simp [hrun]
  have htab : t.optab = s.optab := by rw [← ht]; simp
  have hlink : readReg t 30 = wrap64 (s.pc + 1) := by
    rw [← ht, readReg_setPc]
    exact readReg_writeReg_same _ (by decide) _
  have hentry : progEntry t t.pc = some e' := by
    rw [htpc, ← he']
    exact progEntry_congr (by rw [← ht]; simp) _
  have hreturn : exec (.br 30) (beginStep t) = .next (setPc (beginStep t) (clampIndex (readReg t 30).toInt)) := rfl
  have hclamp : clampIndex (readReg t 30).toInt = s.pc + 1 := by
    rw [hlink, wrap64_toInt, Int.bmod_eq_of_le (by omega) (by omega)]
    simp only [clampIndex, Config.safeMax]
    omega
  rw [hclamp] at hreturn
  exact ⟨t, _, hstep, htpc, (step_of_instr htrun hentry (htab ▸ hd')).trans hreturn, rfl, htrun⟩

/-! ### Output and the end of the run (R180 to R182) -/

/-- Settles O27. -/
theorem printLineEmitsBlankLine : Obligations.PrintLineEmitsBlankLine :=
  fun s => ⟨_, rfl, emitsOnly_emit .blankLine s⟩

/-- The dump shows every register as it reads, register 31 as 0 (R181). -/
theorem push_zero_get (s : State) (r : Reg) : (s.regs.push 0).get r = readReg s r := by
  unfold readReg
  rw [Vector.get_eq_getElem, Vector.getElem_push]

/-- Settles O28. -/
theorem haltAndDumpStopAlike : Obligations.HaltAndDumpStopAlike := by
  intro s
  refine ⟨_, s.regs.push 0, s.mem, exec_halt s, exec_dump s, rfl, rfl, push_zero_get s, fun _ => rfl, ?_⟩
  exact ⟨fun _ => rfl, rfl, rfl, fun _ => rfl, rfl, rfl, rfl, rfl, rfl, rfl⟩

/-! ### Reset (R25, R215) -/

theorem readReg_resetWith (n : Nat) (m : Memory) (p : List ProgEntry) (tab : List OpRow) (r : Reg) :
    readReg (State.resetWith n m p tab) r = if r = 28 ∨ r = 29 then BitVec.ofNat 64 n else 0 := by
  unfold readReg
  simp only [resetWith_regs, resetRegs, Fin.ext_iff]
  split
  · rw [Vector.getElem_set, Vector.getElem_set, Vector.getElem_replicate]
    grind
  · rw [if_neg]
    omega

/-- Settles O54. -/
theorem resetValues : Obligations.ResetValues := by
  rintro n m p tab s hn rfl
  have hptr : (BitVec.ofNat 64 n).toInt = n := by
    rw [BitVec.toInt_eq_toNat_cond, BitVec.toNat_ofNat]
    split <;> omega
  refine ⟨?_, ?_, fun r h28 h29 => ?_, rfl, rfl, rfl, fun _ => rfl, rfl, rfl, rfl, rfl, rfl, rfl, rfl⟩
  · rw [readReg_resetWith, if_pos (.inl rfl), hptr]
  · rw [readReg_resetWith, if_pos (.inr rfl), hptr]
  · rw [readReg_resetWith, if_neg (not_or.mpr ⟨h28, h29⟩)]

end Sys2Proof.Machine

/-! ## The family 'other': the opcode map and the decoder -/

namespace Sys2Proof

/-! ### Words that decode (R62, R64) -/

/-- Settles O41: each of the words is decoded by evaluation. -/
theorem exampleWordsDecode : Obligations.ExampleWordsDecode := by
  unfold Obligations.ExampleWordsDecode
  decide

/-- A word that decodes is selected by one row, and gives that row's instruction. -/
theorem decode_eq_instr {tab : List OpRow} {w : InstrWord} {i : Instr} (h : decode w tab = .instr i) :
    ∃ r, lookup w tab = some r ∧ i = extract r.mn w := by
  unfold decode at h
  split at h
  · next r hr => exact ⟨r, hr, (Decoded.instr.inj h).symm⟩
  · cases h

/-- The fields of a word are in range by their width (R60). -/
theorem extract_wellFormed (m : Mnemonic) (w : InstrWord) : (extract m w).wellFormed = true := by
  cases m with
  | lsl | lsr => exact decide_eq_true (getRange_lt w 10 15)
  | addi | subi | andi | orri | eori | addis | subis | andis | cmpi => exact decide_eq_true (getRange_lt w 10 21)
  | movz | movk => exact decide_eq_true (getRange_lt w 5 20)
  | ldur | ldurb | ldurh | ldursw | stur | sturb | sturh | sturw | lda | ldxr | stxr =>
    exact decide_eq_true (getRange_lt w 12 20)
  | b | bl => exact decide_eq_true (getRange_lt w 0 25)
  | cbz | cbnz | bEQ | bNE | bLT | bLO | bLE | bLS | bGT | bHI | bGE | bHS | bPL | bMI =>
    exact decide_eq_true (getRange_lt w 5 23)
  | _ => rfl

/-! ### Ignored bits (R65) -/

/-- Bits that a mask does not look at do not matter to it. -/
theorem setRange_and {n : Nat} (w m : BitVec n) {lo hi : Nat} (v : Int) (hle : lo ≤ hi) (hlt : hi < n)
    (hm : ∀ k, lo ≤ k → k ≤ hi → m.getLsbD k = false) : setRange w lo hi v &&& m = w &&& m := by
  apply BitVec.eq_of_getLsbD_eq
  intro k _
  rw [BitVec.getLsbD_and, BitVec.getLsbD_and, setRange_getLsbD w v hle hlt]
  split
  · next hk => rw [hm k hk.1 hk.2, Bool.and_false, Bool.and_false]
  · rfl

/-- An ignored range stands below the opcode field, of a mnemonic without an extra condition (R62, R65). -/
theorem ignoredRanges_bounds (m : Mnemonic) : ∀ p ∈ ignoredRanges m,
    p.1 ≤ p.2 ∧ p.2 < 21 + m.format.freeBits ∧ p.2 < 32 ∧ m.extraField = none := by
  cases m <;> decide

/-- The mask of a row that fits R61 does not look at the ignored bits of its mnemonic. -/
theorem admits_setRange_ignored {r : OpRow} (hr : r.fits = true) {p : Nat × Nat} (hp : p ∈ ignoredRanges r.mn)
    (w : InstrWord) (v : Int) : r.admits (setRange w p.1 p.2 v) = r.admits w := by
  obtain ⟨hle, hbelow, hlt, hextra⟩ := ignoredRanges_bounds r.mn p hp
  obtain ⟨-, -, -, opcode, field, -, rfl, hrow⟩ := fits_cases hr
  have hmask : r.mask = setRange 0 (21 + r.mn.format.freeBits) 31 (-1) := by
    rcases hrow with ⟨-, hmask⟩ | ⟨lo, hi, hsome, -⟩
    · exact hmask
    · simp [hextra] at hsome
  have hk : r.mn.format.freeBits ≤ 5 := by cases r.mn.format <;> decide
  rw [OpRow.admits, OpRow.admits, setRange_and w _ v hle hlt]
  intro k _ hkhi
  rw [hmask, setRange_getLsbD _ _ (by omega) (by decide), if_neg (by omega)]
  exact BitVec.getLsbD_zero

/-- The operand fields of an instruction lie beside the ranges that it ignores. -/
theorem extract_setRange_ignored {m : Mnemonic} {p : Nat × Nat} (hp : p ∈ ignoredRanges m) (w : InstrWord) (v : Int) :
    extract m (setRange w p.1 p.2 v) = extract m w := by
  cases m with
  | br =>
    obtain rfl | rfl | rfl : p = (16, 20) ∨ p = (10, 15) ∨ p = (5, 9) := by simpa [ignoredRanges] using hp
    all_goals simp [extract, fieldRd, getRange_setRange_of_disjoint]
  | cmp | mov =>
    obtain rfl | rfl : p = (16, 20) ∨ p = (10, 15) := by simpa [ignoredRanges] using hp
    all_goals simp [extract, fieldRd, fieldRn, getRange_setRange_of_disjoint]
  | lsl | lsr | add | sub | and | orr | eor | mul | adds | subs | ands =>
    rw [List.mem_singleton.mp hp]
    simp [extract, fieldRd, fieldRn, fieldRm, fieldShamt, getRange_setRange_of_disjoint]
  | cmpi | movz | movk | ldur | ldurb | ldurh | ldursw | stur | sturb | sturh | sturw | lda | ldxr | stxr =>
    rw [List.mem_singleton.mp hp]
    simp [extract, fieldRd, fieldRn, fieldImm12, fieldImm16, fieldDt, getRange_setRange_of_disjoint]
  | prnt | prnl | halt | dump => rfl
  | _ => cases hp

/-- Settles O40: with other ignored bits the word is still selected by the same row, and the operand fields read as
before. -/
theorem ignoredBitsDoNotMatter : Obligations.IgnoredBitsDoNotMatter := by
  intro tab htab w i h p hp v
  obtain ⟨r, hlookup, rfl⟩ := decode_eq_instr h
  rw [extract_mnemonic] at hp
  obtain ⟨hr, hadmits, -⟩ := lookup_some hlookup
  rw [← admits_setRange_ignored (htab.rowsFit r hr) hp w v] at hadmits
  rw [decode, lookup_of_admits htab hr hadmits, ← extract_setRange_ignored hp w v]

/-! ### What the rows of the default table select (R61 to R63) -/

/-- A mask of one whole field. -/
theorem and_field_eq_iff (w : InstrWord) {lo hi x : Nat} (hle : lo ≤ hi) (hlt : hi < 32) (hx : x < 2 ^ (hi - lo + 1)) :
    w &&& setRange 0 lo hi (-1) = setRange 0 lo hi (x : Int) ↔ getRange w lo hi = x := by
  rw [and_setRange_neg_one _ _ hle hlt, show w &&& 0 = 0 from BitVec.and_zero]
  constructor
  · intro h
    have hget := congrArg (getRange · lo hi) h
    simpa only [getRange_setRange_of_lt _ hle hlt (getRange_lt w lo hi), getRange_setRange_of_lt _ hle hlt hx] using hget
  · rintro rfl
    rfl

/-- A mask of two fields side by side. -/
theorem and_two_fields_eq_iff (w : InstrWord) {lo hi x lo' hi' y : Nat} (hle : lo ≤ hi) (hlt : hi < 32)
    (hx : x < 2 ^ (hi - lo + 1)) (hle' : lo' ≤ hi') (hlt' : hi' < lo) (hy : y < 2 ^ (hi' - lo' + 1)) :
    w &&& setRange (setRange 0 lo hi (-1)) lo' hi' (-1) = setRange (setRange 0 lo hi (x : Int)) lo' hi' (y : Int) ↔
      getRange w lo hi = x ∧ getRange w lo' hi' = y := by
  have hlt'' : hi' < 32 := by omega
  rw [and_setRange_neg_one _ _ hle' hlt'', and_setRange_neg_one _ _ hle hlt, show w &&& 0 = 0 from BitVec.and_zero]
  constructor
  · intro h
    have hhigh := congrArg (getRange · lo hi) h
    have hlow := congrArg (getRange · lo' hi') h
    simp only [getRange_setRange_of_disjoint _ _ hle' hlt'' hle (.inr hlt'),
      getRange_setRange_of_lt _ hle hlt (getRange_lt w lo hi), getRange_setRange_of_lt _ hle hlt hx] at hhigh
    simp only [getRange_setRange_of_lt _ hle' hlt'' (getRange_lt w lo' hi'),
      getRange_setRange_of_lt _ hle' hlt'' hy] at hlow
    exact ⟨hhigh, hlow⟩
  · rintro ⟨rfl, rfl⟩
    rfl

/-- An aligned range of opcodes is the values that agree above the free bits (R61). -/
theorem shiftRight_eq_iff_range {op lo hi k : Nat} (halign : lo % 2 ^ k = 0) (hlen : hi + 1 = lo + 2 ^ k) :
    op >>> k = lo >>> k ↔ lo ≤ op ∧ op ≤ hi := by
  have hpos : 0 < 2 ^ k := Nat.two_pow_pos k
  obtain ⟨q, rfl⟩ := Nat.dvd_of_mod_eq_zero halign
  rw [Nat.shiftRight_eq_div_pow, Nat.shiftRight_eq_div_pow, Nat.mul_div_cancel_left q hpos, Nat.div_eq_iff hpos,
    Nat.mul_comm q]
  omega

/-- The field of an extra condition stands below every opcode field. -/
theorem extraField_below {m : Mnemonic} {lo hi : Nat} (h : m.extraField = some (lo, hi)) : lo ≤ hi ∧ hi < 21 := by
  cases m <;> cases h <;> decide

/-- A row that fits R61 and tests the extra field of its mnemonic, if it has one, selects by opcode and extra field. -/
theorem admits_iff_of_fits {r : OpRow} (hr : r.fits = true)
    (htests : r.mask = setRange 0 (21 + r.mn.format.freeBits) 31 (-1) → r.mn.extraField = none) (w : InstrWord) :
    r.admits w = true ↔ (r.op11Min ≤ op11 w ∧ op11 w ≤ r.op11Max) ∧
      ∀ lo hi, r.mn.extraField = some (lo, hi) → getRange w lo hi = getRange r.mtch lo hi := by
  obtain ⟨halign, hlen, hmax, opcode, field, rfl, rfl, hrow⟩ := fits_cases hr
  have hk : r.mn.format.freeBits ≤ 5 := by cases r.mn.format <;> decide
  have hop : r.op11Min >>> r.mn.format.freeBits < 2 ^ (31 - (21 + r.mn.format.freeBits) + 1) := by
    have hpos : 0 < 2 ^ r.mn.format.freeBits := Nat.two_pow_pos _
    rw [Nat.shiftRight_eq_div_pow]
    apply Nat.div_lt_of_lt_mul
    rw [← pow_add, show r.mn.format.freeBits + (31 - (21 + r.mn.format.freeBits) + 1) = 11 by omega]
    omega
  have hfield : getRange w (21 + r.mn.format.freeBits) 31 = op11 w >>> r.mn.format.freeBits :=
    getRange_add_left w (by omega)
  rw [admits_iff, ← shiftRight_eq_iff_range halign hlen, ← hfield]
  rcases hrow with ⟨hmtch, hmask⟩ | ⟨lo, hi, hextra, hmtch, hmask⟩
  · rw [hmtch, hmask, and_field_eq_iff w (by omega) (by decide) hop]
    simp [htests hmask]
  · obtain ⟨hle, hbelow⟩ := extraField_below hextra
    have htwo := and_two_fields_eq_iff w (by omega) (by decide) hop hle (by omega) (getRange_lt r.mtch lo hi)
    rw [← hmtch, ← hmask] at htwo
    rw [htwo, hextra]
    simp

/-- In the default table a row of a mnemonic with an extra field tests it. -/
theorem optab_testsExtra : ∀ r ∈ optab,
    r.mask = setRange 0 (21 + r.mn.format.freeBits) 31 (-1) → r.mn.extraField = none := by
  decide +kernel

/-- The discriminating value of a mnemonic in the default table (R62, R63). -/
def discriminant : Mnemonic → Option Nat
  | .sdiv => some 2
  | .udiv => some 3
  | m =>
    match Machine.formOf m with
    | .condJump c => some (condCode c)
    | _ => none

/-- The extra field of a row of the default table holds the discriminating value. -/
theorem optab_discriminant : ∀ r ∈ optab, ∀ p ∈ r.mn.extraField, discriminant r.mn = some (getRange r.mtch p.1 p.2) := by
  decide +kernel

theorem fieldRd_val (w : InstrWord) : (fieldRd w).val = getRange w 0 4 :=
  Nat.mod_eq_of_lt (getRange_lt w 0 4)

/-- The discriminating field of a word holds the value of the mnemonic, in the words of R62 and R63. -/
def Discriminates (m : Mnemonic) (w : InstrWord) : Prop :=
  (m = .sdiv → fieldShamt w = 2) ∧ (m = .udiv → fieldShamt w = 3) ∧
    ∀ c, Machine.formOf m = .condJump c → (fieldRd w).val = condCode c

theorem discriminates_iff (m : Mnemonic) (w : InstrWord) :
    Discriminates m w ↔ ∀ lo hi, m.extraField = some (lo, hi) → discriminant m = some (getRange w lo hi) := by
  simp only [Discriminates, fieldRd_val]
  cases m <;> simp [Mnemonic.extraField, discriminant, Machine.formOf, fieldShamt, eq_comm]

/-- A row of the default table selects the words of its range with its discriminating value. -/
theorem optab_admits_iff {r : OpRow} (hr : r ∈ optab) (w : InstrWord) :
    r.admits w = true ↔ (r.op11Min ≤ op11 w ∧ op11 w ≤ r.op11Max) ∧ Discriminates r.mn w := by
  rw [admits_iff_of_fits (optab_rowsFit r hr) (optab_testsExtra r hr), discriminates_iff]
  refine and_congr_right fun _ => forall₃_congr fun lo hi he => ?_
  rw [optab_discriminant r hr (lo, hi) he, Option.some.injEq, eq_comm]

/-- Settles O38. -/
theorem rowsSelectByOp11 : Obligations.RowsSelectByOp11 := by
  intro w r hr
  rw [← admits_iff, optab_admits_iff hr, and_assoc]
  rfl

/-! ### Illegal words (R66) -/

theorem lookup_eq_none_iff {tab : List OpRow} (h : OptabOk tab) (w : InstrWord) :
    lookup w tab = none ↔ ∀ r ∈ tab, r.admits w ≠ true := by
  constructor
  · intro hnone r hr hadmits
    rw [lookup_of_admits h hr hadmits] at hnone
    cases hnone
  · intro hall
    cases hl : lookup w tab with
    | none => rfl
    | some r =>
      obtain ⟨hr, hadmits, -⟩ := lookup_some hl
      exact absurd hadmits (hall r hr)

theorem decode_eq_invalid_iff (w : InstrWord) (tab : List OpRow) : decode w tab = .invalid ↔ lookup w tab = none := by
  unfold decode
  split <;> simp [*]

/-- The twelve conditions (R63). -/
def conditions : List Cond := [.eq, .ne, .hs, .lo, .mi, .pl, .hi, .ls, .ge, .lt, .gt, .le]

/-- The codes that are no condition's (R171). -/
theorem condCode_range : ∀ x : Reg,
    (∃ c ∈ conditions, x.val = condCode c) ↔ ¬ (x.val = 6 ∨ x.val = 7 ∨ 14 ≤ x.val) := by
  decide

/-- The default table has two opcode ranges that several rows share, that of `SDIV` and `UDIV` (D4) and that of
`B.cond` (D5); every other row has its range alone and no discriminating field. -/
theorem optab_row_cases : ∀ r ∈ optab,
    (r.op11Min = 0x4D6 ∧ r.op11Max = 0x4D6 ∧ (r.mn = .sdiv ∨ r.mn = .udiv)) ∨
    (r.op11Min = 0x2A0 ∧ r.op11Max = 0x2A7 ∧ ∃ c ∈ conditions, Machine.formOf r.mn = .condJump c) ∨
    (r.mn.extraField = none ∧ ¬ (r.op11Min ≤ 0x4D6 ∧ 0x4D6 ≤ r.op11Max) ∧
      ¬ (r.op11Min ≤ 0x2A7 ∧ 0x2A0 ≤ r.op11Max)) := by
  decide +kernel

/-- The shared ranges have a row for each mnemonic and for each condition. -/
theorem optab_shared_rows :
    (∃ r ∈ optab, r.op11Min = 0x4D6 ∧ r.op11Max = 0x4D6 ∧ r.mn = .sdiv) ∧
    (∃ r ∈ optab, r.op11Min = 0x4D6 ∧ r.op11Max = 0x4D6 ∧ r.mn = .udiv) ∧
    ∀ c ∈ conditions, ∃ r ∈ optab, r.op11Min = 0x2A0 ∧ r.op11Max = 0x2A7 ∧ Machine.formOf r.mn = .condJump c := by
  decide +kernel

theorem discriminates_sdiv (w : InstrWord) : Discriminates .sdiv w ↔ fieldShamt w = 2 := by
  simp [Discriminates, Machine.formOf]

theorem discriminates_udiv (w : InstrWord) : Discriminates .udiv w ↔ fieldShamt w = 3 := by
  simp [Discriminates, Machine.formOf]

theorem discriminates_condJump {m : Mnemonic} {c : Cond} (h : Machine.formOf m = .condJump c) (w : InstrWord) :
    Discriminates m w ↔ (fieldRd w).val = condCode c := by
  have hsdiv : m ≠ .sdiv := by rintro rfl; cases h
  have hudiv : m ≠ .udiv := by rintro rfl; cases h
  simp [Discriminates, hsdiv, hudiv, h]

theorem discriminates_of_extraField_none {m : Mnemonic} (h : m.extraField = none) (w : InstrWord) :
    Discriminates m w :=
  (discriminates_iff m w).mpr fun lo hi hsome => by simp [h] at hsome

/-- With the default table a word is illegal when every row whose range holds its `op11` wants another discriminating
value. -/
theorem decode_invalid_iff_discriminates (w : InstrWord) : decode w = .invalid ↔
    ∀ r ∈ optab, r.op11Min ≤ op11 w ∧ op11 w ≤ r.op11Max → ¬ Discriminates r.mn w := by
  rw [decode_eq_invalid_iff, lookup_eq_none_iff optabOk_default]
  refine forall₂_congr fun r hr => ?_
  rw [Ne, optab_admits_iff hr, not_and]

/-- Settles O39: by the kinds of row (`optab_row_cases`), of which two share their range. -/
theorem illegalWords : Obligations.IllegalWords := by
  intro w
  rw [decode_invalid_iff_discriminates]
  constructor
  · intro hall
    by_cases hrange : ∀ r ∈ optab, ¬ (r.op11Min ≤ op11 w ∧ op11 w ≤ r.op11Max)
    · exact .inl hrange
    · push Not at hrange
      obtain ⟨r, hr, hlow, hhigh⟩ := hrange
      obtain ⟨⟨q, hq, hqmin, hqmax, hsdiv⟩, ⟨q', hq', hqmin', hqmax', hudiv⟩, hcond⟩ := optab_shared_rows
      rcases optab_row_cases r hr with ⟨hmin, hmax, -⟩ | ⟨hmin, hmax, -⟩ | ⟨hextra, -, -⟩
      · have h2 := hall q hq (by omega)
        have h3 := hall q' hq' (by omega)
        rw [hsdiv, discriminates_sdiv] at h2
        rw [hudiv, discriminates_udiv] at h3
        exact .inr (.inl ⟨by omega, h2, h3⟩)
      · have hcode : ¬ ∃ c ∈ conditions, (fieldRd w).val = condCode c := by
          rintro ⟨c, hc, hval⟩
          obtain ⟨x, hx, hxmin, hxmax, hform⟩ := hcond c hc
          exact hall x hx (by omega) ((discriminates_condJump hform w).mpr hval)
        rw [condCode_range, not_not] at hcode
        exact .inr (.inr ⟨by omega, by omega, hcode⟩)
      · exact absurd (discriminates_of_extraField_none hextra w) (hall r hr ⟨hlow, hhigh⟩)
  · intro hcases r hr hin hdisc
    rcases hcases with hrange | ⟨hop, h2, h3⟩ | ⟨hlow, hhigh, hval⟩
    · exact hrange r hr hin
    · rcases optab_row_cases r hr with ⟨-, -, hmn | hmn⟩ | ⟨hmin, hmax, -⟩ | ⟨-, hout, -⟩
      · rw [hmn, discriminates_sdiv] at hdisc
        exact h2 hdisc
      · rw [hmn, discriminates_udiv] at hdisc
        exact h3 hdisc
      · omega
      · omega
    · rcases optab_row_cases r hr with ⟨hmin, hmax, -⟩ | ⟨-, -, c, hc, hform⟩ | ⟨-, -, hout⟩
      · omega
      · rw [discriminates_condJump hform] at hdisc
        exact (condCode_range (fieldRd w)).mp ⟨c, hc, hdisc⟩ hval
      · omega

end Sys2Proof

/-! ## The family 'other': what no instruction reads -/

namespace Sys2Proof.Machine

/-- The state with other values of `C` and `V`, of the program and of the opcode map: no meaning reads them, but for
the payload of `PRNT`. -/
def State.withUnread (s : State) (c v : Bool) (p : List ProgEntry) (tab : List OpRow) : State :=
  { s with flags := { s.flags with c := c, v := v }, prog := p, optab := tab }

section Unread
variable (s : State) (c v : Bool) (p : List ProgEntry) (tab : List OpRow)

/-! ### The shared operations on such a state -/

theorem writeReg_withUnread (d : Reg) (w : Word) :
    writeReg (s.withUnread c v p tab) d w = (writeReg s d w).withUnread c v p tab := by
  unfold writeReg
  split <;> rfl

theorem loadOp_withUnread (mn : Mnemonic) (n : Nat) (ext : Nat → Word) (rt rn : Reg) (dt : Nat) :
    loadOp mn n ext rt rn dt (s.withUnread c v p tab) = (loadOp mn n ext rt rn dt s).withUnread c v p tab := by
  by_cases h : admitted s (effectiveAddress s rn dt) n
  · have h' : admitted (s.withUnread c v p tab) (effectiveAddress (s.withUnread c v p tab) rn dt) n := h
    rw [loadOp_of_admitted mn rt ext h, loadOp_of_admitted mn rt ext h', writeReg_withUnread]
    rfl
  · have h' : ¬ admitted (s.withUnread c v p tab) (effectiveAddress (s.withUnread c v p tab) rn dt) n := h
    rw [loadOp_of_not_admitted mn rt ext h, loadOp_of_not_admitted mn rt ext h']
    rfl

theorem storeOp_withUnread (mn : Mnemonic) (n : Nat) (rt rn : Reg) (dt : Nat) :
    storeOp mn n rt rn dt (s.withUnread c v p tab) = (storeOp mn n rt rn dt s).withUnread c v p tab := by
  by_cases h : admitted s (effectiveAddress s rn dt) n
  · have h' : admitted (s.withUnread c v p tab) (effectiveAddress (s.withUnread c v p tab) rn dt) n := h
    rw [storeOp_of_admitted mn rt h, storeOp_of_admitted mn rt h']
    rfl
  · have h' : ¬ admitted (s.withUnread c v p tab) (effectiveAddress (s.withUnread c v p tab) rn dt) n := h
    rw [storeOp_of_not_admitted mn rt h, storeOp_of_not_admitted mn rt h']
    rfl

theorem branchIf_withUnread (taken : Bool) (t : Int) :
    branchIf taken t (s.withUnread c v p tab) = (branchIf taken t s).withUnread c v p tab := by
  cases taken <;> rfl

/-- The predicates of `B.cond` look at `Z` and `N` alone (R158). -/
theorem branchCond_withUnread (k : Cond) (a : Nat) :
    branchCond k a (s.withUnread c v p tab) = (branchCond k a s).withUnread c v p tab := by
  have hcond : condHolds k (s.withUnread c v p tab).flags = condHolds k s.flags := by cases k <;> rfl
  rw [branchCond, hcond, branchIf_withUnread]
  rfl

theorem piecesText_withUnread (ps : List Piece) : piecesText (s.withUnread c v p tab) ps = piecesText s ps := by
  induction ps with
  | nil => rfl
  | cons q qs ih =>
    have hq : pieceText (s.withUnread c v p tab) q = pieceText s q := rfl
    simp only [piecesText, hq, ih]

theorem printText_withUnread (q : Text) : printText (s.withUnread c v p tab) q = printText s q := by
  simp only [printText, scanText, piecesText_withUnread]
  rfl

theorem execPrnt_withUnread (hpayload : currentPayload (s.withUnread c v p tab) = currentPayload s) {t : State}
    (h : execPrnt s = .next t) : execPrnt (s.withUnread c v p tab) = .next (t.withUnread c v p tab) := by
  have hprint := printText_withUnread s c v p tab (currentPayload s)
  cases hp : printText s (currentPayload s) with
  | text u =>
    rw [execPrnt_of_text hp] at h
    cases h
    rw [execPrnt_of_text (by rw [hpayload, hprint, hp])]
    rfl
  | badAddress ea =>
    rw [execPrnt_of_badAddress hp] at h
    cases h
    rw [execPrnt_of_badAddress (by rw [hpayload, hprint, hp])]
    rfl

/-- The flags of an operation replace all four. -/
theorem regRegFlagsOp_withUnread (f : Word → Word → Word) (rd rn rm : Reg) :
    regRegFlagsOp f rd rn rm (s.withUnread c v p tab) =
      (regRegFlagsOp f rd rn rm s).withUnread (regRegFlagsOp f rd rn rm s).flags.c
        (regRegFlagsOp f rd rn rm s).flags.v p tab := by
  rw [regRegFlagsOp, regRegOp, writeReg_withUnread]
  rfl

theorem regImmFlagsOp_withUnread (f : Word → Word → Word) (rd rn : Reg) (b : Word) :
    regImmFlagsOp f rd rn b (s.withUnread c v p tab) =
      (regImmFlagsOp f rd rn b s).withUnread (regImmFlagsOp f rd rn b s).flags.c
        (regImmFlagsOp f rd rn b s).flags.v p tab := by
  rw [regImmFlagsOp, regImmOp, writeReg_withUnread]
  rfl

end Unread

/-! ### The instructions on such a state -/

section Exec
variable {i : Instr} {s t : State} (c v : Bool) (p : List ProgEntry) (tab : List OpRow)

/-- An instruction that writes no flags goes on alike and leaves `C` and `V` as they are. -/
theorem exec_withUnread_of_not_writer (hf : i.mnemonic ∉ flagWriters)
    (hpayload : currentPayload (s.withUnread c v p tab) = currentPayload s) (h : exec i s = .next t) :
    exec i (s.withUnread c v p tab) = .next (t.withUnread c v p tab) := by
  cases i with
  | add | sub | and | orr | eor | mul | lsl | lsr | mov | addi | subi | andi | orri | eori | movz | movk =>
    cases h
    exact congrArg Host.Outcome.next (writeReg_withUnread s c v p tab _ _)
  | sdiv d n m =>
    by_cases hm : readReg s m = 0
    · have hm' : readReg (s.withUnread c v p tab) m = 0 := hm
      rw [exec_sdiv_of_zero d n hm] at h
      cases h
      rw [exec_sdiv_of_zero d n hm']
      rfl
    · have hm' : readReg (s.withUnread c v p tab) m ≠ 0 := hm
      rw [exec_sdiv_of_ne_zero d n hm] at h
      cases h
      rw [exec_sdiv_of_ne_zero d n hm']
      exact congrArg Host.Outcome.next (writeReg_withUnread s c v p tab _ _)
  | bl a =>
    cases h
    exact congrArg (fun u => Host.Outcome.next (setPc u (target26 a))) (writeReg_withUnread s c v p tab _ _)
  | ldur | ldurb | ldurh | ldursw =>
    cases h
    exact congrArg Host.Outcome.next (loadOp_withUnread s c v p tab _ _ _ _ _ _)
  | stur | sturb | sturh | sturw =>
    cases h
    exact congrArg Host.Outcome.next (storeOp_withUnread s c v p tab _ _ _ _ _)
  | cbz | cbnz =>
    cases h
    exact congrArg Host.Outcome.next (branchIf_withUnread s c v p tab _ _)
  | bEQ | bNE | bLT | bLO | bLE | bLS | bGT | bHI | bGE | bHS | bPL | bMI =>
    cases h
    exact congrArg Host.Outcome.next (branchCond_withUnread s c v p tab _ _)
  | prnt => exact execPrnt_withUnread s c v p tab hpayload h
  | br | udiv | lda | ldxr | stxr | b | prnl | halt | dump =>
    cases h
    rfl
  | adds | subs | ands | cmp | addis | subis | andis | cmpi => simp [Instr.mnemonic, flagWriters] at hf

/-- A flag writer goes on alike and writes `C` and `V` anew. -/
theorem exec_withUnread_of_writer (hf : i.mnemonic ∈ flagWriters) (h : exec i s = .next t) :
    exec i (s.withUnread c v p tab) = .next (t.withUnread t.flags.c t.flags.v p tab) := by
  cases i with
  | adds | subs | ands =>
    cases h
    exact congrArg Host.Outcome.next (regRegFlagsOp_withUnread s c v p tab _ _ _ _)
  | addis | subis | andis =>
    cases h
    exact congrArg Host.Outcome.next (regImmFlagsOp_withUnread s c v p tab _ _ _ _)
  | cmp | cmpi =>
    cases h
    rfl
  | _ => simp [Instr.mnemonic, flagWriters] at hf

end Exec

/-- Settles O26: `C` and `V` alone are other values here, and the next states agree by whether the instruction writes
flags. -/
theorem noInstructionReadsCarryOrOverflow : Obligations.NoInstructionReadsCarryOrOverflow := by
  intro i s t c v h
  obtain ⟨hprog, -, -, htab⟩ := (exec_effect h).sameConfig
  have hback : ∀ c' v', writeFlags (t.withUnread c' v' s.prog s.optab) t.flags = t := fun c' v' => by
    rw [← hprog, ← htab]
    rfl
  by_cases hf : i.mnemonic ∈ flagWriters
  · exact ⟨_, exec_withUnread_of_writer c v s.prog s.optab hf h, hback _ _, rfl, rfl⟩
  · exact ⟨_, exec_withUnread_of_not_writer c v s.prog s.optab hf rfl h, hback _ _, rfl, rfl⟩

/-! ### Another opcode map (R5, R62) -/

/-- An instruction takes two machines that differ in program and opcode map alone to two such machines. -/
theorem exec_with_program {i : Instr} {s t : State} (p : List ProgEntry) (tab : List OpRow)
    (hpayload : currentPayload { s with prog := p, optab := tab } = currentPayload s) (h : exec i s = .next t) :
    exec i { s with prog := p, optab := tab } = .next { t with prog := p, optab := tab } := by
  by_cases hf : i.mnemonic ∈ flagWriters
  · exact exec_withUnread_of_writer s.flags.c s.flags.v p tab hf h
  · have hflags := (exec_effect h).flags_of_not_writer hf
    have hsame : t.withUnread s.flags.c s.flags.v p tab = { t with prog := p, optab := tab } := by
      rw [← hflags]
      rfl
    rw [← hsame]
    exact exec_withUnread_of_not_writer s.flags.c s.flags.v p tab hf hpayload h

theorem progEntry_isSome_congr {s t : State} (hlen : t.prog.length = s.prog.length) {i : Int} {e : ProgEntry}
    (h : progEntry s i = some e) : ∃ e', progEntry t i = some e' := by
  cases he : progEntry t i with
  | some e' => exact ⟨e', rfl⟩
  | none =>
    rw [progEntry_eq_none_iff, hlen, ← progEntry_eq_none_iff, h] at he
    cases he

/-- The payload of the instruction that a step executes is that of the entry it fetched. -/
theorem currentPayload_beginStep {s : State} {e : ProgEntry} (h : progEntry s s.pc = some e) :
    currentPayload (beginStep s) = e.payload := by
  have hindex : currentIndex (beginStep s) = s.pc := by simp [currentIndex]
  rw [currentPayload, hindex, progEntry_congr (t := beginStep s) (s := s) rfl, h]

/-- Two machines whose words decode alike, entry by entry with the same payloads, take the same steps. -/
theorem step_with_program {s t : State} {p : List ProgEntry} {tab : List OpRow} (hlen : p.length = s.prog.length)
    (hdecode : ∀ (k : Nat) (e e' : ProgEntry), s.prog[k]? = some e → p[k]? = some e' →
      e'.payload = e.payload ∧ decode e'.word tab = decode e.word s.optab)
    (h : step s = .next t) : step { s with prog := p, optab := tab } = .next { t with prog := p, optab := tab } := by
  have hentry : ∀ {e : ProgEntry}, progEntry s s.pc = some e →
      ∃ e', progEntry { s with prog := p, optab := tab } s.pc = some e' ∧ e'.payload = e.payload ∧
        decode e'.word tab = decode e.word s.optab := fun {e} he => by
    obtain ⟨e', he'⟩ := progEntry_isSome_congr (t := { s with prog := p, optab := tab }) hlen he
    obtain ⟨-, -, hk⟩ := progEntry_some he
    obtain ⟨-, -, hk'⟩ := progEntry_some he'
    exact ⟨e', he', hdecode _ e e' hk hk'⟩
  rcases step_cases h with ⟨hrun, rfl⟩ | ⟨hrun, he, rfl⟩ | ⟨hrun, e, i, he, hd, hexec⟩ | ⟨hrun, e, he, hd, rfl⟩
  · exact step_of_not_running hrun
  · refine step_of_out_of_range hrun ?_
    rw [progEntry_eq_none_iff] at he ⊢
    rwa [hlen]
  · obtain ⟨e', he', hpayload, hsame⟩ := hentry he
    rw [step_of_instr (s := { s with prog := p, optab := tab }) hrun he' (hsame.trans hd)]
    refine exec_with_program (s := beginStep s) p tab ?_ hexec
    rw [currentPayload_beginStep he, ← hpayload]
    exact currentPayload_beginStep he'
  · obtain ⟨e', he', -, hsame⟩ := hentry he
    exact step_of_invalid (s := { s with prog := p, optab := tab }) hrun he' (hsame.trans hd)

/-- Settles O37: a word that decodes has the row that `lookup` found, alone; and a step looks at the program through
the decoder and the payload only (`step_with_program`). -/
theorem decodedWordHasOneRow : Obligations.DecodedWordHasOneRow := by
  refine ⟨fun tab w i h => ?_, fun s t p tab hlen hdecode => step_with_program hlen hdecode⟩
  obtain ⟨r, hlookup, rfl⟩ := decode_eq_instr h
  obtain ⟨hr, hadmits, hunique⟩ := lookup_some hlookup
  refine ⟨extract_wellFormed r.mn w, r, hr, (extract_mnemonic r.mn w).symm, admits_iff.mp hadmits, fun q hq hsel => ?_⟩
  exact hunique q hq (admits_iff.mpr hsel)

end Sys2Proof.Machine

/-! ## The family 'other': numbers and names as text -/

namespace Sys2Proof

/-! ### Decimal numbers (R177) -/

theorem digitValue_digitChar : ∀ d < 10, digitValue (digitChar d) = some d := by decide

theorem digitChar_ne_minus : ∀ d < 10, digitChar d ≠ '-' := by decide

theorem digitChar_eq_zero : ∀ d < 10, digitChar d = '0' → d = 0 := by decide

/-- A digit read onto a value. -/
theorem digitsValue_digitChar (acc : Nat) {d : Nat} (hd : d < 10) (rest : Text) :
    digitsValue acc (digitChar d :: rest) = digitsValue (10 * acc + d) rest := by
  simp only [digitsValue, digitValue_digitChar d hd]

/-- The digits written for `n` read back as `n`, whatever digits follow. -/
theorem digitsValue_decDigits {fuel n : Nat} (h : n ≤ fuel) (rest : Text) :
    digitsValue 0 (decDigits fuel n rest) = digitsValue n rest := by
  induction fuel generalizing n rest with
  | zero =>
    obtain rfl : n = 0 := by omega
    exact digitsValue_digitChar 0 (by decide) rest
  | succ fuel ih =>
    unfold decDigits
    split
    · next hsmall => rw [digitsValue_digitChar 0 hsmall, Nat.mul_zero, Nat.zero_add]
    · rw [ih (by omega), digitsValue_digitChar _ (Nat.mod_lt _ (by decide)), Nat.div_add_mod]

/-- The digits written for `n` begin with a digit, which is 0 only where `n` is. -/
theorem decDigits_eq_cons {fuel n : Nat} (h : n ≤ fuel) (rest : Text) :
    ∃ d ds, decDigits fuel n rest = digitChar d :: ds ∧ d < 10 ∧ (0 < n → 0 < d) := by
  induction fuel generalizing n rest with
  | zero => exact ⟨n % 10, rest, rfl, Nat.mod_lt _ (by decide), by omega⟩
  | succ fuel ih =>
    unfold decDigits
    split
    · next hsmall => exact ⟨n, rest, rfl, hsmall, id⟩
    · obtain ⟨d, ds, heq, hd, hpos⟩ := ih (n := n / 10) (by omega) (digitChar (n % 10) :: rest)
      exact ⟨d, ds, heq, hd, fun _ => hpos (by omega)⟩

theorem decNat_eq_cons (n : Nat) : ∃ d ds, decNat n = digitChar d :: ds ∧ d < 10 ∧ (0 < n → 0 < d) :=
  decDigits_eq_cons le_rfl []

theorem parseNat_decNat (n : Nat) : parseNat (decNat n) = some n := by
  obtain ⟨d, ds, heq, -, -⟩ := decNat_eq_cons n
  have hread : digitsValue 0 (decNat n) = some n := digitsValue_decDigits le_rfl []
  rw [heq] at hread ⊢
  exact hread

theorem parseInt_decNat (n : Nat) : parseInt (decNat n) = some (n : Int) := by
  have hread := parseNat_decNat n
  obtain ⟨d, ds, heq, hd, -⟩ := decNat_eq_cons n
  rw [heq] at hread ⊢
  rw [parseInt, if_neg (digitChar_ne_minus d hd), hread]

/-- The first character of a number is a digit, 0 only for the number 0. -/
theorem decNat_head (n : Nat) : (decNat n).head? ≠ some '-' ∧ (0 < n → (decNat n).head? ≠ some '0') := by
  obtain ⟨d, ds, heq, hd, hpos⟩ := decNat_eq_cons n
  rw [heq, List.head?_cons, Ne, Ne, Option.some.injEq, Option.some.injEq]
  refine ⟨digitChar_ne_minus d hd, fun hn hzero => ?_⟩
  have hd0 := digitChar_eq_zero d hd hzero
  have hdpos := hpos hn
  omega

theorem dec_of_nonneg {n : Int} (h : 0 ≤ n) : dec n = decNat n.natAbs := if_neg (by omega)

theorem dec_of_neg {n : Int} (h : n < 0) : dec n = '-' :: decNat n.natAbs := if_pos h

/-- Settles O34, by the sign of the number. -/
theorem decimalReadsBack : Obligations.DecimalReadsBack := by
  intro n
  obtain ⟨hminus, hzero⟩ := decNat_head n.natAbs
  by_cases hn : n < 0
  · rw [dec_of_neg hn]
    refine ⟨?_, by simp [hn], fun hpos => absurd hn (by omega), fun _ => hzero (by omega), rfl⟩
    rw [parseInt, if_pos rfl, parseNat_decNat]
    exact congrArg some (by omega)
  · rw [dec_of_nonneg (by omega)]
    refine ⟨?_, by simp [hn, hminus], fun hpos => hzero (by omega), fun hneg => absurd hneg hn, rfl⟩
    rw [parseInt_decNat]
    exact congrArg some (by omega)

/-! ### Register names (R12, R176) -/

theorem parseReg_regName : ∀ r : Reg, parseReg (regName r) = some r := by decide

/-- Settles O58: there are 32 names and six aliases. -/
theorem registerNamesParse : Obligations.RegisterNamesParse := by
  have hlower : ∀ r : Reg, parseReg ((regName r).map Char.toLower) = some r := by decide
  have halias : ∀ r : Reg, ∀ a ∈ regAlias r, parseReg a = some r ∧ parseReg (a.map Char.toLower) = some r := by decide
  exact fun r => ⟨parseReg_regName r, hlower r, halias r⟩

theorem digitValue_some {c : Char} {d : Nat} (h : digitValue c = some d) : c.toNat ≤ '9'.toNat := by
  unfold digitValue at h
  split at h
  · next hrange => exact hrange.2
  · cases h

theorem digitsValue_some {acc n : Nat} {t : Text} (h : digitsValue acc t = some n) : ∀ c ∈ t, c.toNat ≤ '9'.toNat := by
  induction t generalizing acc with
  | nil => simp
  | cons c cs ih =>
    rw [digitsValue] at h
    split at h
    · next d hd =>
      intro x hx
      rcases List.mem_cons.mp hx with rfl | hx
      · exact digitValue_some hd
      · exact ih h x hx
    · cases h

theorem parseNat_some {n : Nat} {t : Text} (h : parseNat t = some n) : ∀ c ∈ t, c.toNat ≤ '9'.toNat := by
  cases t with
  | nil => cases h
  | cons c cs => exact digitsValue_some h

/-- In upper case a register name has no character after `Z`. -/
theorem parseReg_some {t : Text} {r : Reg} (h : parseReg t = some r) : ∀ c ∈ upper t, c.toNat ≤ 'Z'.toNat := by
  unfold parseReg at h
  generalize upper t = u at h
  simp only at h
  split_ifs at h with h1 h2 h3 h4 h5 h6
  · simp [h1]
  · simp [h2]
  · simp [h3]
  · simp [h4]
  · simp [h5]
  · simp [h6]
  · split at h
    · cases h
    · next c cs =>
      split_ifs at h with hX
      split at h
      · next n hn =>
        intro x hx
        rcases List.mem_cons.mp hx with rfl | hx
        · rw [hX]; decide
        · exact (parseNat_some hn x hx).trans (by decide)
      · cases h

/-- A text with a character whose upper case is after `Z`, such as a bracket, is no register name. -/
theorem parseReg_eq_none {t : Text} {c : Char} (hc : c ∈ t) (h : 'Z'.toNat < (upperChar c).toNat) : parseReg t = none := by
  cases hp : parseReg t with
  | none => rfl
  | some r =>
    have hle := parseReg_some hp (upperChar c) (List.mem_map_of_mem hc)
    omega

end Sys2Proof

/-! ## The family 'other': what `PRNT` prints -/

namespace Sys2Proof.Machine

/-! ### Text in front of other text -/

theorem PrintText.after_after (a b : Text) (r : PrintText) : (r.after b).after a = r.after (a ++ b) := by
  cases r <;> simp [PrintText.after]

theorem scanText_nil (s : State) : scanText s [] = .text [] := rfl

section Scans
variable {s : State} {pre u : Text}

theorem scansTo_nil (s : State) : ScansTo s [] [] := by
  intro rest
  cases h : scanText s rest <;> simp [PrintText.after, h]

/-- What scans to a text scans to it also where nothing follows. -/
theorem ScansTo.scanText_eq (h : ScansTo s pre u) : scanText s pre = .text u := by
  have hnil := h []
  rwa [List.append_nil, scanText_nil, PrintText.after, List.append_nil] at hnil

theorem ScansTo.append (h : ScansTo s pre u) {q v : Text} (hq : ScansTo s q v) : ScansTo s (pre ++ q) (u ++ v) := by
  intro rest
  rw [List.append_assoc, h, hq, PrintText.after_after]

/-- The last piece of a payload may be one that does not stand in front of others. -/
theorem ScansTo.scanText_append (h : ScansTo s pre u) {q v : Text} (hq : scanText s q = .text v) :
    scanText s (pre ++ q) = .text (u ++ v) := by
  rw [h, hq, PrintText.after]

end Scans

/-! ### One piece (R178) -/

theorem piecesText_cons_of_text {s : State} {x : Piece} {v : Text} (h : pieceText s x = .text v) (ps : List Piece) :
    piecesText s (x :: ps) = (piecesText s ps).after v := by
  rw [piecesText, h]
  cases piecesText s ps <;> rfl

theorem piecesText_cons_of_badAddress {s : State} {x : Piece} {ea : Int} (h : pieceText s x = .badAddress ea)
    (ps : List Piece) : piecesText s (x :: ps) = .badAddress ea := by
  rw [piecesText, h]

theorem piecesText_singleton (s : State) (x : Piece) : piecesText s [x] = pieceText s x := by
  cases h : pieceText s x with
  | text v => rw [piecesText_cons_of_text h, piecesText, PrintText.after, List.append_nil]
  | badAddress ea => rw [piecesText_cons_of_badAddress h]

theorem scansTo_plain (s : State) {plain : Text} (h : ∀ c ∈ plain, c ≠ openBrace ∧ c ≠ openSquare) :
    ScansTo s plain plain := by
  intro rest
  rw [scanText, scanPayload_plain _ _ h, piecesText_plain, scanText]
  cases piecesText s (scanPayload none rest) <;> rfl

/-- The two opening brackets. -/
def IsOpening (o : Char) : Prop := o = openBrace ∨ o = openSquare

theorem scanPayload_opening {o : Char} (ho : IsOpening o) (cs : Text) :
    scanPayload none (o :: cs) = scanPayload (some (o, [])) cs := if_pos ho

section Items
variable {s : State} {o : Char} {name : Text} (ho : IsOpening o) (hn : closingOf o ∉ name)
include ho hn

theorem scanText_closed (rest : Text) : scanText s (o :: (name ++ closingOf o :: rest)) =
    piecesText s (.item o name true :: scanPayload none rest) := by
  rw [scanText, scanPayload_opening ho, scanPayload_closed o [] name rest hn, List.nil_append]

theorem scansTo_closed {v : Text} (hv : pieceText s (.item o name true) = .text v) :
    ScansTo s (o :: name ++ [closingOf o]) v := by
  intro rest
  rw [List.append_assoc, List.singleton_append, List.cons_append, scanText_closed ho hn, piecesText_cons_of_text hv]
  rfl

theorem scanText_unclosed : scanText s (o :: name) = pieceText s (.item o name false) := by
  rw [scanText, scanPayload_opening ho, scanPayload_unclosed o [] name hn, List.nil_append, piecesText_singleton]

end Items

theorem closingOf_openBrace : closingOf openBrace = closeBrace := by decide

theorem closingOf_openSquare : closingOf openSquare = closeSquare := by decide

section Pieces
variable {s : State} {name : Text}

theorem pieceText_of_none (o : Char) (closed : Bool) (h : parseReg (trim name) = none) :
    pieceText s (.item o name closed) = .text (o :: name ++ if closed then [closingOf o] else []) := by
  simp only [pieceText, h]

theorem pieceText_brace {r : Reg} (closed : Bool) (h : parseReg (trim name) = some r) :
    pieceText s (.item openBrace name closed) = .text (dec (readReg s r).toInt) := by
  simp only [pieceText, h, if_true]
  rfl

theorem memRead_one {a : Int} (h : admitted s a 1) : memRead s a 1 = some (readByte s a.toNat).toNat := by
  rw [memRead_of_admitted h]
  simp [Memory.readBytes, valueOfBytes, readByte]

theorem pieceText_square {r : Reg} (closed : Bool) (h : parseReg (trim name) = some r)
    (ha : admitted s (readReg s r).toInt 1) :
    pieceText s (.item openSquare name closed) = .text (dec ((readByte s (readReg s r).toInt.toNat).toNat : Int)) := by
  have hread : memRead s (readSigned s r) 1 = some (readByte s (readReg s r).toInt.toNat).toNat := memRead_one ha
  have hsquare : openSquare ≠ openBrace := by decide
  simp only [pieceText, h, hread, if_neg hsquare]

theorem pieceText_square_bad {r : Reg} (closed : Bool) (h : parseReg (trim name) = some r)
    (ha : ¬ admitted s (readReg s r).toInt 1) :
    pieceText s (.item openSquare name closed) = .badAddress (readReg s r).toInt := by
  have hread : memRead s (readSigned s r) 1 = none := memRead_of_not_admitted ha
  have hsquare : openSquare ≠ openBrace := by decide
  simp only [pieceText, h, hread, if_neg hsquare]
  rfl

/-- A piece has a bad address only where it is a memory item of a register (R199). -/
theorem pieceText_eq_badAddress {o : Char} (ho : IsOpening o) {closed : Bool} {ea : Int}
    (h : pieceText s (.item o name closed) = .badAddress ea) :
    o = openSquare ∧ ∃ r, parseReg (trim name) = some r ∧ ¬ admitted s (readReg s r).toInt 1 := by
  cases hr : parseReg (trim name) with
  | none =>
    rw [pieceText_of_none o closed hr] at h
    cases h
  | some r =>
    rcases ho with rfl | rfl
    · rw [pieceText_brace closed hr] at h
      cases h
    · refine ⟨rfl, r, rfl, fun ha => ?_⟩
      rw [pieceText_square closed hr ha] at h
      cases h

end Pieces

theorem admitted_one_iff (s : State) (a : Int) : admitted s a 1 ↔ 0 ≤ a ∧ a < s.memSize := by
  unfold admitted
  omega

/-! ### The whole payload -/

theorem wholeRegister_of_parseReg_none {p : Text} (h : parseReg p = none) : wholeRegister p = none := by
  rw [wholeRegister, h, ite_self]

theorem isSpace_iff (c : Char) : isSpace c = true ↔ c = ' ' ∨ c = '\t' := by simp [isSpace]

theorem wholeRegister_of_space {p : Text} (h : ∃ c ∈ p, c = ' ' ∨ c = '\t') : wholeRegister p = none := by
  have hany : p.any isSpace = true := by simpa only [List.any_eq_true, isSpace_iff] using h
  exact if_pos hany

theorem wholeRegister_of_no_space {p : Text} (h : ∀ c ∈ p, c ≠ ' ' ∧ c ≠ '\t') : wholeRegister p = parseReg p := by
  have hnone : ¬ p.any isSpace = true := by
    rw [List.any_eq_true]
    rintro ⟨c, hc, hspace⟩
    rcases (isSpace_iff c).mp hspace with rfl | rfl
    · exact (h _ hc).1 rfl
    · exact (h _ hc).2 rfl
  exact if_neg hnone

/-- A payload with an opening bracket is no register name, so it is scanned. -/
theorem wholeRegister_of_opening {p : Text} (h : ∃ c ∈ p, IsOpening c) : wholeRegister p = none := by
  obtain ⟨c, hc, ho⟩ := h
  apply wholeRegister_of_parseReg_none
  rcases ho with rfl | rfl
  · exact parseReg_eq_none hc (by decide)
  · exact parseReg_eq_none hc (by decide)

theorem printText_of_none {s : State} {p : Text} (h : wholeRegister p = none) : printText s p = scanText s p := by
  simp only [printText, h]

theorem printText_of_some {s : State} {p : Text} {r : Reg} (h : wholeRegister p = some r) :
    printText s p = .text (dec (readReg s r).toInt) := by
  simp only [printText, h]
  rfl

/-- `PRNT` of a payload that prints a text completes with one Print event. -/
theorem exec_prnt_of_text {s : State} {v : Text} (h : printText s (currentPayload s) = .text v) :
    ∃ t, exec .prnt s = .next t ∧ EmitsOnly (.print v) s t :=
  ⟨_, execPrnt_of_text h, emitsOnly_emit _ s⟩

theorem exec_prnt_of_badAddress {s : State} {ea : Int} (h : printText s (currentPayload s) = .badAddress ea) :
    ∃ t, exec .prnt s = .next t ∧ TookFailure .addressOutOfRange ea (some .prnt) s t :=
  ⟨_, execPrnt_of_badAddress h, tookFailure_raiseFailure s _ _ _⟩

/-- Settles O29. -/
theorem printRegisterPayload : Obligations.PrintRegisterPayload := by
  intro s r hspace hr
  exact exec_prnt_of_text (printText_of_some ((wholeRegister_of_no_space hspace).trans hr))

/-- Settles O30: without an opening bracket the scan copies the payload. -/
theorem printPlainPayload : Obligations.PrintPlainPayload := by
  intro s hplain hname
  have hwhole : wholeRegister (currentPayload s) = none :=
    hname.elim wholeRegister_of_space wholeRegister_of_parseReg_none
  exact exec_prnt_of_text ((printText_of_none hwhole).trans (scansTo_plain s hplain).scanText_eq)

/-- An item after a start that scans to a text, closed and in front of other text, or not closed at the end. -/
theorem ScansTo.item {s : State} {pre u name v v' : Text} {o c : Char} (hpre : ScansTo s pre u) (ho : IsOpening o)
    (hc : closingOf o = c) (hname : c ∉ name) (hclosed : pieceText s (.item o name true) = .text v)
    (hopen : pieceText s (.item o name false) = .text v') :
    ScansTo s (pre ++ o :: name ++ [c]) (u ++ v) ∧ scanText s (pre ++ o :: name) = .text (u ++ v') := by
  subst hc
  rw [List.append_assoc]
  exact ⟨hpre.append (scansTo_closed ho hname hclosed),
    hpre.scanText_append ((scanText_unclosed ho hname).trans hopen)⟩

/-- An item whose name is no register stays as it is. -/
theorem ScansTo.item_of_none {s : State} {pre u name : Text} {o c : Char} (hpre : ScansTo s pre u) (ho : IsOpening o)
    (hc : closingOf o = c) (hname : c ∉ name) (hr : parseReg (trim name) = none) :
    ScansTo s (pre ++ o :: name ++ [c]) (u ++ o :: name ++ [c]) ∧
      scanText s (pre ++ o :: name) = .text (u ++ o :: name) := by
  have hitem := hpre.item ho hc hname (pieceText_of_none o true hr) (pieceText_of_none o false hr)
  simpa [hc] using hitem

/-- Settles O31: every piece scans alone (`scansTo_plain`, `ScansTo.item`), and pieces are put one after another
(`ScansTo.append`). -/
theorem printItemPayload : Obligations.PrintItemPayload := by
  intro s
  have hbrace : IsOpening openBrace := .inl rfl
  have hsquare : IsOpening openSquare := .inr rfl
  refine ⟨scansTo_nil s, fun pre u hpre => ⟨hpre.scanText_eq, fun plain hplain => hpre.append (scansTo_plain s hplain),
    fun name hname => ⟨fun r hr => ?_, hpre.item_of_none hbrace closingOf_openBrace hname⟩,
    fun name hname => ⟨fun r hr hlow hhigh => ?_, hpre.item_of_none hsquare closingOf_openSquare hname⟩⟩,
    fun hopen => ?_⟩
  · exact hpre.item hbrace closingOf_openBrace hname (pieceText_brace true hr) (pieceText_brace false hr)
  · have ha := (admitted_one_iff s _).mpr ⟨hlow, hhigh⟩
    exact hpre.item hsquare closingOf_openSquare hname (pieceText_square true hr ha) (pieceText_square false hr ha)
  · have hprint : printText s (currentPayload s) = scanText s (currentPayload s) :=
      printText_of_none (wholeRegister_of_opening hopen)
    cases hscan : scanText s (currentPayload s) with
    | text v => exact exec_prnt_of_text (hprint.trans hscan)
    | badAddress ea => exact exec_prnt_of_badAddress (hprint.trans hscan)

/-! ### The first bad address decides (R199) -/

/-- A memory item with a bad address, closed or not, decides what the text scans to. -/
theorem scanText_bad_item {s : State} {name post : Text} {r : Reg} (hname : closeSquare ∉ name)
    (hpost : post = [] ∨ post.head? = some closeSquare) (hr : parseReg (trim name) = some r)
    (ha : ¬ admitted s (readReg s r).toInt 1) :
    scanText s (openSquare :: (name ++ post)) = .badAddress (readReg s r).toInt := by
  rw [← closingOf_openSquare] at hname hpost
  rcases hpost with rfl | hpost
  · rw [List.append_nil, scanText_unclosed (.inr rfl) hname, pieceText_square_bad false hr ha]
  · obtain ⟨rest, rfl⟩ := List.head?_eq_some_iff.mp hpost
    rw [scanText_closed (.inr rfl) hname, piecesText_cons_of_badAddress (pieceText_square_bad true hr ha)]

/-- Settles O32. -/
theorem printBadAddressFails : Obligations.PrintBadAddressFails := by
  intro s pre u name post r hpre hname hpost hr haddr hpayload
  have ha : ¬ admitted s (readReg s r).toInt 1 := by
    rw [admitted_one_iff]
    omega
  have hopen : ∃ c ∈ currentPayload s, IsOpening c := ⟨openSquare, by rw [hpayload]; simp, .inr rfl⟩
  apply exec_prnt_of_badAddress
  rw [printText_of_none (wholeRegister_of_opening hopen), hpayload, List.append_assoc, List.cons_append, hpre,
    scanText_bad_item hname hpost hr ha, PrintText.after]

/-- The scan meets, after a start that scans to a text, a memory item that names a register with a bad address. -/
def MeetsBadItem (s : State) (p : Text) : Prop :=
  ∃ (pre u name post : Text) (r : Reg), ScansTo s pre u ∧ p = pre ++ openSquare :: name ++ post ∧ closeSquare ∉ name ∧
    (post = [] ∨ post.head? = some closeSquare) ∧ parseReg (trim name) = some r ∧ ¬ admitted s (readReg s r).toInt 1

theorem MeetsBadItem.prepend {s : State} {p q v : Text} (h : MeetsBadItem s p) (hq : ScansTo s q v) :
    MeetsBadItem s (q ++ p) := by
  obtain ⟨pre, u, name, post, r, hpre, rfl, hitem⟩ := h
  exact ⟨q ++ pre, v ++ u, name, post, r, hq.append hpre, by simp, hitem⟩

theorem meetsBadItem_of_item {s : State} {o : Char} {name post : Text} {closed : Bool} {ea : Int} (ho : IsOpening o)
    (hname : closingOf o ∉ name) (hpost : post = [] ∨ post.head? = some (closingOf o))
    (h : pieceText s (.item o name closed) = .badAddress ea) : MeetsBadItem s (o :: (name ++ post)) := by
  obtain ⟨rfl, r, hr, ha⟩ := pieceText_eq_badAddress ho h
  rw [closingOf_openSquare] at hname hpost
  exact ⟨[], [], name, post, r, scansTo_nil s, rfl, hname, hpost, hr, ha⟩

/-- Text that scans on after a start: a bad address is found in the rest. -/
theorem ScansTo.badAddress_rest {s : State} {pre u rest : Text} {ea : Int} (h : ScansTo s pre u)
    (hbad : scanText s (pre ++ rest) = .badAddress ea) : scanText s rest = .badAddress ea := by
  rw [h] at hbad
  cases hrest : scanText s rest with
  | text v =>
    rw [hrest] at hbad
    cases hbad
  | badAddress ea' =>
    rw [hrest] at hbad
    exact hbad

/-- A payload with a bad address has a bad item, by induction on what is left to scan: a plain character, an item that
scans to a text, or the bad item. -/
theorem meetsBadItem_of_scanText {s : State} (n : Nat) {p : Text} (hlen : p.length ≤ n) {ea : Int}
    (h : scanText s p = .badAddress ea) : MeetsBadItem s p := by
  induction n generalizing p with
  | zero =>
    obtain rfl := List.length_eq_zero_iff.mp (Nat.le_zero.mp hlen)
    cases h
  | succ n ih =>
    cases p with
    | nil => cases h
    | cons c cs =>
      rw [List.length_cons] at hlen
      by_cases ho : IsOpening c
      · by_cases hmem : closingOf c ∈ cs
        · obtain ⟨name, rest, rfl, hname⟩ := List.eq_append_cons_of_mem hmem
          cases hpiece : pieceText s (.item c name true) with
          | badAddress ea' => exact meetsBadItem_of_item ho hname (.inr rfl) hpiece
          | text v =>
            have hscans := scansTo_closed ho hname hpiece
            have hsplit : c :: (name ++ closingOf c :: rest) = (c :: name ++ [closingOf c]) ++ rest := by simp
            rw [hsplit] at h ⊢
            refine (ih ?_ (hscans.badAddress_rest h)).prepend hscans
            simp only [List.length_append, List.length_cons] at hlen
            omega
        · rw [scanText_unclosed ho hmem] at h
          have hitem := meetsBadItem_of_item ho hmem (.inl rfl) h
          rwa [List.append_nil] at hitem
      · have hplain : ScansTo s [c] [c] := scansTo_plain s (by simpa [IsOpening] using ho)
        exact (ih (by omega) (hplain.badAddress_rest h)).prepend hplain

/-- Settles O33: a bad address would be that of an item that the scan meets (`meetsBadItem_of_scanText`). -/
theorem printWithoutMemoryItemCompletes : Obligations.PrintWithoutMemoryItemCompletes := by
  intro s hitems
  have htext : ∃ v, printText s (currentPayload s) = .text v := by
    cases hwhole : wholeRegister (currentPayload s) with
    | some r => exact ⟨_, printText_of_some hwhole⟩
    | none =>
      rw [printText_of_none hwhole]
      cases hscan : scanText s (currentPayload s) with
      | text v => exact ⟨v, rfl⟩
      | badAddress ea =>
        obtain ⟨pre, u, name, post, r, hpre, hpayload, hname, hpost, hr, ha⟩ := meetsBadItem_of_scanText _ le_rfl hscan
        exact absurd ((admitted_one_iff s _).mpr (hitems pre u name post r hpre hpayload hname hpost hr)) ha
  obtain ⟨v, hv⟩ := htext
  obtain ⟨t, ht⟩ := exec_prnt_of_text hv
  exact ⟨t, v, ht⟩

end Sys2Proof.Machine

/-! ## The family 'other': the assembler -/

namespace Sys2Proof.Machine

/-! ### A program that assembles drops no line (R76, R82, R84) -/

/-- An entry has the number of its line. -/
theorem assembleLine_line {labels : List (Text × Nat)} {c : Candidate} {tab : List OpRow} {e : ProgEntry}
    (h : assembleLine labels c tab = .ok e) : e.line = c.line := by
  unfold assembleLine at h
  split at h
  · cases h
  · split_ifs at h
    · cases h; rfl
    · split at h
      · cases h
      · split at h
        · cases h
        · split at h
          · cases h
          · cases h; rfl

theorem passTwo_lines {labels : List (Text × Nat)} {tab : List OpRow} {cs : List Candidate}
    (h : (passTwo labels tab cs).2 = []) :
    (passTwo labels tab cs).1.map ProgEntry.line = cs.map Candidate.line := by
  induction cs with
  | nil => rfl
  | cons c cs ih =>
    rw [passTwo] at h ⊢
    cases hline : assembleLine labels c tab with
    | error r =>
      rw [hline] at h
      cases h
    | ok e =>
      rw [hline] at h
      rw [List.map_cons, List.map_cons, ih h, assembleLine_line hline]

/-- Every label is bound to an index up to the count of instructions so far. -/
def LabelsInRange (p : PassOne) : Prop := ∀ l ∈ p.labels, l.2 ≤ p.candidates.length

theorem passOneLine_labelsInRange (n : Nat) (raw : Text) {p : PassOne} (h : LabelsInRange p) :
    LabelsInRange (passOneLine n raw p) := by
  unfold passOneLine
  simp only
  split_ifs
  · exact h
  · intro l hl
    rcases List.mem_append.mp hl with hl | hl
    · exact h l hl
    · rw [List.mem_singleton.mp hl]
  · intro l hl
    rw [List.length_append]
    exact (h l hl).trans (Nat.le_add_right _ _)

theorem passOne_labelsInRange (n : Nat) (ls : List Text) {p : PassOne} (h : LabelsInRange p) :
    LabelsInRange (passOne n ls p) := by
  induction ls generalizing n p with
  | nil => exact h
  | cons raw ls ih => exact ih (n + 1) (passOneLine_labelsInRange n raw h)

/-- A program that assembles is what the two passes give, the second without an error. -/
theorem assemble_eq_program {src : Text} {tab : List OpRow} {p : Program} (h : assemble src tab = .program p) :
    ∃ q, q = passOne 1 (sourceLines [] src) ⟨[], []⟩ ∧ (passTwo q.labels tab q.candidates).2 = [] ∧
      p = ⟨(passTwo q.labels tab q.candidates).1, q.labels⟩ := by
  unfold assemble at h
  simp only at h
  split at h
  · next hnone => exact ⟨_, rfl, hnone, (AsmResult.program.inj h).symm⟩
  · cases h

theorem mem_labelBindings {labels : List (Text × Nat)} {name : Text} {k : Nat} :
    k ∈ labelBindings labels name ↔ (name, k) ∈ labels := by
  simp [labelBindings]

/-- An operand gets one of the bindings of its label. -/
theorem labelIndex_mem {labels : List (Text × Nat)} {name : Text} {k : Nat} (h : labelIndex labels name = some k) :
    k ∈ labelBindings labels name := by
  unfold labelIndex at h
  split at h
  · cases h
  · next l hl =>
    cases h
    rw [hl]
    exact List.mem_singleton.mpr rfl
  · next hl =>
    rw [hl]
    exact List.mem_of_getElem? h

theorem labelIndex_of_bound_once {labels : List (Text × Nat)} {name : Text} {k : Nat}
    (h : labelBindings labels name = [k]) : labelIndex labels name = some k := by
  unfold labelIndex
  rw [h]

/-- Settles O60: the entries have the lines of the candidates (`passTwo_lines`), so pass 1 counted them exactly. -/
theorem assembledProgramDropsNoLine : Obligations.AssembledProgramDropsNoLine := by
  intro src tab p h
  obtain ⟨q, hq, hnone, rfl⟩ := assemble_eq_program h
  have hlines := passTwo_lines hnone
  have hlength : (passTwo q.labels tab q.candidates).1.length = q.candidates.length := by
    simpa only [List.length_map] using congrArg List.length hlines
  have hrange : LabelsInRange q := hq ▸ passOne_labelsInRange 1 _ (fun l hl => by cases hl)
  rw [← hq]
  refine ⟨hlines, fun l hl => ?_, fun name k => ⟨fun hk => mem_labelBindings.mp (labelIndex_mem hk), labelIndex_of_bound_once⟩⟩
  rw [hlength]
  exact hrange l hl

/-! ### Reading a rendered mnemonic (R80) -/

theorem parseMnemonic_spelling_default (m : Mnemonic) : parseMnemonic (spelling m) = some m := by
  cases m <;> decide +kernel

theorem spelling_injective {m m' : Mnemonic} (h : spelling m = spelling m') : m = m' := by
  have hm := parseMnemonic_spelling_default m
  rw [h, parseMnemonic_spelling_default m'] at hm
  exact (Option.some.inj hm).symm

theorem upper_spelling (m : Mnemonic) : upper (spelling m) = spelling m := by
  have hfound := List.find?_some (parseMnemonic_spelling_default m)
  exact (beq_iff_eq.mp hfound).symm

/-- In every table that R62 admits, a spelling names its mnemonic. -/
theorem parseMnemonic_spelling {tab : List OpRow} (h : OptabOk tab) (m : Mnemonic) :
    parseMnemonic (spelling m) tab = some m := by
  obtain ⟨r, hr, hmn, -⟩ := exists_row h m
  rw [parseMnemonic, upper_spelling]
  cases hfind : (tab.map OpRow.mn).find? (fun m' => spelling m' == spelling m) with
  | none =>
    have hnone := List.find?_eq_none.mp hfind m (List.mem_map.mpr ⟨r, hr, hmn⟩)
    exact absurd (beq_self_eq_true (spelling m)) hnone
  | some m' =>
    have hsome := List.find?_some hfind
    rw [spelling_injective (beq_iff_eq.mp hsome)]

/-! ### Rendered operands (R86) -/

/-- An operand as the formatter shows it: a register name, or an immediate. -/
inductive ShownOperand where
  | reg (r : Reg)
  | imm (v : Nat)

def ShownOperand.kind : ShownOperand → OperandKind
  | .reg _ => .reg
  | .imm _ => .imm

def ShownOperand.text : ShownOperand → Text
  | .reg r => showReg r
  | .imm v => showImm v

def ShownOperand.value : ShownOperand → Int
  | .reg r => regValue r
  | .imm v => v

/-- The operands that `showOperands` shows for a form without a label, left to right (`operandTexts_showOperands`). -/
def shownOperands (form : OperandForm) (w : InstrWord) : List ShownOperand :=
  match form with
  | .threeReg => [.reg (fieldRd w), .reg (fieldRn w), .reg (fieldRm w)]
  | .shift => [.reg (fieldRd w), .reg (fieldRn w), .imm (fieldShamt w)]
  | .oneReg => [.reg (fieldRd w)]
  | .twoReg => [.reg (fieldRd w), .reg (fieldRn w)]
  | .regImm => [.reg (fieldRd w), .reg (fieldRn w), .imm (fieldImm12 w)]
  | .compareImm => [.reg (fieldRn w), .imm (fieldImm12 w)]
  | .move => [.reg (fieldRd w), .imm (fieldImm16 w)]
  | .memory => [.reg (fieldRd w), .reg (fieldRn w), .imm (fieldDt w)]
  | .jump | .regJump | .condJump _ | .payload => []

theorem parseOperand_shown (labels : List (Text × Nat)) (x : ShownOperand) :
    parseOperand labels x.kind x.text = .ok x.value := by
  cases x with
  | reg r =>
    have hreg : parseReg (showReg r) = some r := parseReg_regName r
    simp only [ShownOperand.kind, ShownOperand.text, ShownOperand.value, parseOperand, hreg]
  | imm v =>
    have himm : parseImmediate (showImm v) = some (v : Int) := parseInt_decNat v
    simp only [ShownOperand.kind, ShownOperand.text, ShownOperand.value, parseOperand, himm]

theorem parseOperands_shown (labels : List (Text × Nat)) (xs : List ShownOperand) :
    parseOperands labels (xs.map fun x => (x.kind, x.text)) = .ok (xs.map ShownOperand.value) := by
  induction xs with
  | nil => rfl
  | cons x xs ih => simp only [List.map_cons, parseOperands, parseOperand_shown, ih]

/-! ### Cutting a rendered line at its separators (R81) -/

/-- Text without white space and without the separators that may stand after an operand. -/
def IsToken (t : Text) : Prop := ∀ c ∈ t, isSpace c = false ∧ c ≠ ',' ∧ c ≠ ']'

theorem digitChar_isToken : ∀ d < 10, isSpace (digitChar d) = false ∧ digitChar d ≠ ',' ∧ digitChar d ≠ ']' := by
  decide

theorem decDigits_isToken {fuel n : Nat} {rest : Text} (h : IsToken rest) : IsToken (decDigits fuel n rest) := by
  have hcons : ∀ {d : Nat} {t : Text}, d < 10 → IsToken t → IsToken (digitChar d :: t) := fun hd ht c hc => by
    rcases List.mem_cons.mp hc with rfl | hc
    · exact digitChar_isToken _ hd
    · exact ht c hc
  induction fuel generalizing n rest with
  | zero => exact hcons (Nat.mod_lt _ (by decide)) h
  | succ fuel ih =>
    unfold decDigits
    split
    · next hsmall => exact hcons hsmall h
    · exact ih (hcons (Nat.mod_lt _ (by decide)) h)

theorem ShownOperand.text_isToken (x : ShownOperand) : IsToken x.text := by
  have hdec : ∀ n, IsToken (decNat n) := fun n => decDigits_isToken (fun c hc => by cases hc)
  cases x with
  | reg r =>
    intro c hc
    rcases List.mem_cons.mp hc with rfl | hc
    · decide
    · exact hdec r.val c hc
  | imm v =>
    intro c hc
    rcases List.mem_cons.mp hc with rfl | hc
    · decide
    · exact hdec v c hc

theorem trimLeft_of_no_space {t : Text} (h : ∀ c ∈ t, isSpace c = false) : trimLeft t = t := by
  cases t with
  | nil => rfl
  | cons c cs => simp [trimLeft, h c]

theorem trim_of_no_space {t : Text} (h : ∀ c ∈ t, isSpace c = false) : trim t = t := by
  rw [trim, trimLeft_of_no_space h, trimLeft_of_no_space (fun c hc => h c (List.mem_reverse.mp hc)), List.reverse_reverse]

theorem trim_space_cons (t : Text) : trim (' ' :: t) = trim t := rfl

theorem splitAt_append {c : Char} {a : Text} (h : c ∉ a) (b : Text) : splitAt c (a ++ c :: b) = some (a, b) := by
  induction a with
  | nil => simp [splitAt]
  | cons d ds ih =>
    have hd : d ≠ c := (List.ne_of_not_mem_cons h).symm
    rw [List.cons_append, splitAt, if_neg hd, ih (List.not_mem_of_not_mem_cons h)]
    rfl

/-- An operand in front of its separator. -/
theorem operandTexts_operand {c : Char} {t : Text} (hc : c ∉ t) (k : OperandKind) (ps : List FormPart) (rest : Text) :
    operandTexts (.operand k :: .sep c :: ps) (t ++ c :: rest) =
      (operandTexts ps rest).map (fun ts => (k, trim t) :: ts) := by
  simp only [operandTexts, splitAt_append hc]

section Cut
variable (x : ShownOperand) (ps : List FormPart) (rest : Text)

theorem ShownOperand.comma_not_mem : ',' ∉ x.text := fun h => (x.text_isToken _ h).2.1 rfl

theorem ShownOperand.closeSquare_not_mem : ']' ∉ x.text := fun h => (x.text_isToken _ h).2.2 rfl

theorem ShownOperand.trim_text : trim x.text = x.text := trim_of_no_space (fun c hc => (x.text_isToken c hc).1)

/-- A shown operand at the start of what is left, before a comma. -/
theorem operandTexts_shown_comma {ts : List (OperandKind × Text)} (h : operandTexts ps rest = some ts) :
    operandTexts (.operand x.kind :: .sep ',' :: ps) (x.text ++ ',' :: rest) = some ((x.kind, x.text) :: ts) := by
  rw [operandTexts_operand x.comma_not_mem, x.trim_text, h, Option.map_some]

/-- The same after a space. -/
theorem operandTexts_space_shown_comma {ts : List (OperandKind × Text)} (h : operandTexts ps rest = some ts) :
    operandTexts (.operand x.kind :: .sep ',' :: ps) (' ' :: (x.text ++ ',' :: rest)) =
      some ((x.kind, x.text) :: ts) := by
  have hcut := operandTexts_operand (List.not_mem_cons_of_ne_of_not_mem (by decide : ',' ≠ ' ') x.comma_not_mem)
    x.kind ps rest
  rwa [List.cons_append, trim_space_cons, x.trim_text, h, Option.map_some] at hcut

/-- The last operand of the memory form, before its closing bracket. -/
theorem operandTexts_space_shown_closeSquare :
    operandTexts [.operand x.kind, .sep ']'] (' ' :: (x.text ++ [']'])) = some [(x.kind, x.text)] := by
  have hcut := operandTexts_operand
    (List.not_mem_cons_of_ne_of_not_mem (by decide : ']' ≠ ' ') x.closeSquare_not_mem) x.kind [] []
  rwa [List.cons_append, trim_space_cons, x.trim_text] at hcut

/-- The last operand of the other forms. -/
theorem operandTexts_space_shown : operandTexts [.operand x.kind] (' ' :: x.text) = some [(x.kind, x.text)] := by
  rw [operandTexts, trim_space_cons, x.trim_text]

theorem operandTexts_openSquare : operandTexts (.sep '[' :: ps) (' ' :: '[' :: rest) = operandTexts ps rest := rfl

end Cut

/-- The forms whose operands are registers and immediates. -/
def OperandForm.IsShown : OperandForm → Prop
  | .threeReg | .shift | .oneReg | .twoReg | .regImm | .compareImm | .move | .memory => True
  | .jump | .regJump | .condJump _ | .payload => False

/-- The operand texts of a rendered line are the shown operands. -/
theorem operandTexts_showOperands {form : OperandForm} (h : form.IsShown) (w : InstrWord) :
    operandTexts (formParts form) (' ' :: showOperands form w) =
      some ((shownOperands form w).map fun x => (x.kind, x.text)) := by
  cases form with
  | jump | regJump | condJump _ | payload => exact h.elim
  | oneReg => exact operandTexts_space_shown (.reg _)
  | twoReg =>
    simp only [showOperands, commaSpace, List.append_assoc]
    exact operandTexts_space_shown_comma (.reg _) _ _ (operandTexts_space_shown (.reg _))
  | compareImm | move =>
    simp only [showOperands, commaSpace, List.append_assoc]
    exact operandTexts_space_shown_comma (.reg _) _ _ (operandTexts_space_shown (.imm _))
  | threeReg =>
    simp only [showOperands, commaSpace, List.append_assoc]
    exact operandTexts_space_shown_comma (.reg _) _ _
      (operandTexts_space_shown_comma (.reg _) _ _ (operandTexts_space_shown (.reg _)))
  | shift | regImm =>
    simp only [showOperands, commaSpace, List.append_assoc]
    exact operandTexts_space_shown_comma (.reg _) _ _
      (operandTexts_space_shown_comma (.reg _) _ _ (operandTexts_space_shown (.imm _)))
  | memory =>
    simp only [showOperands, commaSpace, List.append_assoc]
    exact operandTexts_space_shown_comma (.reg _) _ _ ((operandTexts_openSquare _ _).trans
      (operandTexts_shown_comma (.reg _) _ _ (operandTexts_space_shown_closeSquare (.imm _))))

/-! ### The word of the rendering (R68, R80) -/

/-- The operand values shown for an encoding assemble to it again. -/
theorem assembleWord_shownOperands {i : Instr} (hwf : i.wellFormed = true) (hform : (formOf i.mnemonic).IsShown)
    (tab : List OpRow) :
    assembleWord i.mnemonic ((shownOperands (formOf i.mnemonic) (encode i tab)).map ShownOperand.value) tab =
      some (encode i tab) := by
  cases i with
  | add | sub | and | orr | eor | mul | sdiv | adds | subs | ands | udiv | br | cmp | mov =>
    simp [Instr.mnemonic, formOf, shownOperands, ShownOperand.value, encode, assembleWord, impliedShamt]
  | lsl d n v | lsr d n v =>
    have hfits : v < 2 ^ 6 := of_decide_eq_true hwf
    have hv : (v : Int) % 64 = v := by omega
    simp [Instr.mnemonic, formOf, shownOperands, ShownOperand.value, encode, assembleWord, hv]
  | addi d n v | subi d n v | andi d n v | orri d n v | eori d n v | addis d n v | subis d n v | andis d n v | cmpi n v =>
    have hfits : v < 2 ^ 12 := of_decide_eq_true hwf
    have hv : (v : Int) % 4096 = v := by omega
    simp [Instr.mnemonic, formOf, shownOperands, ShownOperand.value, encode, assembleWord, hv]
  | movz d v | movk d v =>
    have hfits : v < 2 ^ 16 := of_decide_eq_true hwf
    have hv : (v : Int) % 65536 = v := by omega
    simp [Instr.mnemonic, formOf, shownOperands, ShownOperand.value, encode, assembleWord, hv]
  | ldur t n v | ldurb t n v | ldurh t n v | ldursw t n v | stur t n v | sturb t n v | sturh t n v | sturw t n v
  | lda t n v | ldxr t n v | stxr t n v =>
    have hfits : v < 2 ^ 9 := of_decide_eq_true hwf
    have hv : (v : Int) % 512 = v := by omega
    simp [Instr.mnemonic, formOf, shownOperands, ShownOperand.value, encode, assembleWord, hv]
  | _ => exact hform.elim

/-- Every mnemonic that is neither a branch to a label nor of Z format has a form without a label. -/
theorem formOf_isShown {m : Mnemonic} (hb : m ∉ branches ∨ m = .br) (hz : m.format ≠ .Z) : (formOf m).IsShown := by
  cases m with
  | b | bl | cbz | cbnz | bEQ | bNE | bLT | bLO | bLE | bLS | bGT | bHI | bGE | bHS | bPL | bMI => simp [branches] at hb
  | prnt | prnl | halt | dump => exact absurd rfl hz
  | _ => trivial

/-- Settles O59: the mnemonic is read again (`parseMnemonic_spelling`), the operands are cut and read again, and their
values assemble to the word. -/
theorem assemblingARenderingGivesTheWord : Obligations.AssemblingARenderingGivesTheWord := by
  intro tab htab i labels line hwf hb hz
  have hform := formOf_isShown hb hz
  have hpayload : formOf i.mnemonic ≠ .payload := fun h => by rw [h] at hform; exact hform
  simp only [assembleLine, parseMnemonic_spelling htab, if_neg hpayload, operandTexts_showOperands hform,
    parseOperands_shown, assembleWord_shownOperands hwf hform]

end Sys2Proof.Machine
